-- ==== Sys2Proof/Word.lean ====
section
/-! DEFINITION. The widths of the hardware: bytes, payload slots, whole messages, binary32 patterns. -/

namespace Sys2Proof

/-- One byte of a serialised message (20_memory R65). -/
abbrev Byte := BitVec 8

/-- One 32-bit word: the header or one payload slot of a message (30_encoding R80). -/
abbrev Word := BitVec 32

/-- One whole message: 160 bits, the header in bits 31..0, then `P0` to `P3` (30_encoding R80). -/
abbrev Message := BitVec 160

/-- The machine's `Num`: an IEEE 754 binary32 pattern, sign in bit 31, biased exponent in bits
30..23, fraction in bits 22..0 (00_scope R11, 30_encoding R86; log 1). -/
abbrev F32 := BitVec 32

end Sys2Proof
end

