-- ==== Sys2Proof/Syntax.lean ====
section
/-! DEFINITION. The control messages: one constructor of `Instr` per row of the opcode table. -/

namespace Sys2Proof

/-- `Note = none | id(n), 0 <= n <= 254` (00_scope R15, 30_encoding R84). -/
inductive Note where
  | none
  | id (n : Fin 255)
deriving DecidableEq, Repr

/-- The message forms (30_encoding R82, R83, R87) and the reserved spaces (R89) of the opcode table. A
payload operand is the 32-bit pattern of its slot; a slot the form does not use is not an operand (R88). -/
inductive Instr where
  /-- `NoteOn{note}`, OP 0 (R181). -/
  | noteOn (note : Note)
  /-- `NoteOff{note}`, OP 1 (R184). -/
  | noteOff (note : Note)
  /-- `SetMasterVolume(v)`, OP 2 (R190). -/
  | setMasterVolume (v : Word)
  /-- `SetAdsr{a, d, s, r}`, OP 3 (R191). -/
  | setAdsr (a d s r : Word)
  /-- `SetWaveform(Sine)`, OP 4 SUB 0 (R197). -/
  | setWaveformSine
  /-- `SetWaveform(Square{pw})`, OP 4 SUB 1 (R198). -/
  | setWaveformSquare (pw : Word)
  /-- `SetWaveform(Sawtooth)`, OP 4 SUB 2 (R199). -/
  | setWaveformSawtooth
  /-- `SetWaveform(Triangle{c})`, OP 4 SUB 3 (R200). -/
  | setWaveformTriangle (c : Word)
  /-- `SetFilter(none)`, OP 5 SUB 0 (R201). -/
  | setFilterNone
  /-- `SetFilter(some(OnePoleLpf{fc}))`, OP 5 SUB 1 (R202). -/
  | setFilterOnePole (fc : Word)
  /-- `SetFilter(some(TwoPoleLpf{fc, q}))`, OP 5 SUB 2 (R203). -/
  | setFilterTwoPole (fc q : Word)
  /-- Reserved: OP 6 and 7 (R89). -/
  | reservedOp6to7
  /-- Reserved: OP 8 to 15 (R89). -/
  | reservedOp8to15
  /-- Reserved: OP 4, SUB 4 to 7 (R89). -/
  | reservedWaveSub4to7
  /-- Reserved: OP 4, SUB 8 to 15 (R89). -/
  | reservedWaveSub8to15
  /-- Reserved: OP 5, SUB 3 (R89). -/
  | reservedFilterSub3
  /-- Reserved: OP 5, SUB 4 to 7 (R89). -/
  | reservedFilterSub4to7
  /-- Reserved: OP 5, SUB 8 to 15 (R89). -/
  | reservedFilterSub8to15
deriving DecidableEq, Repr

/-- The form's name in the opcode table. -/
def Instr.mnemonic : Instr → String
  | .noteOn _ => "NoteOn"
  | .noteOff _ => "NoteOff"
  | .setMasterVolume _ => "SetMasterVolume"
  | .setAdsr _ _ _ _ => "SetAdsr"
  | .setWaveformSine => "SetWaveform.Sine"
  | .setWaveformSquare _ => "SetWaveform.Square"
  | .setWaveformSawtooth => "SetWaveform.Sawtooth"
  | .setWaveformTriangle _ => "SetWaveform.Triangle"
  | .setFilterNone => "SetFilter.none"
  | .setFilterOnePole _ => "SetFilter.OnePoleLpf"
  | .setFilterTwoPole _ _ => "SetFilter.TwoPoleLpf"
  | .reservedOp6to7 => "RESERVED.OP6_7"
  | .reservedOp8to15 => "RESERVED.OP8_15"
  | .reservedWaveSub4to7 => "RESERVED.SetWaveform.SUB4_7"
  | .reservedWaveSub8to15 => "RESERVED.SetWaveform.SUB8_15"
  | .reservedFilterSub3 => "RESERVED.SetFilter.SUB3"
  | .reservedFilterSub4to7 => "RESERVED.SetFilter.SUB4_7"
  | .reservedFilterSub8to15 => "RESERVED.SetFilter.SUB8_15"

/-- The forms that decode to `Invalid` (30_encoding R89, R90). -/
def Instr.reserved : Instr → Bool
  | .noteOn _ => false
  | .noteOff _ => false
  | .setMasterVolume _ => false
  | .setAdsr _ _ _ _ => false
  | .setWaveformSine => false
  | .setWaveformSquare _ => false
  | .setWaveformSawtooth => false
  | .setWaveformTriangle _ => false
  | .setFilterNone => false
  | .setFilterOnePole _ => false
  | .setFilterTwoPole _ _ => false
  | .reservedOp6to7 => true
  | .reservedOp8to15 => true
  | .reservedWaveSub4to7 => true
  | .reservedWaveSub8to15 => true
  | .reservedFilterSub3 => true
  | .reservedFilterSub4to7 => true
  | .reservedFilterSub8to15 => true

/-- The payload slots the form uses, in slot order (30_encoding R87). -/
def Instr.payloads : Instr → List Word
  | .noteOn _ => []
  | .noteOff _ => []
  | .setMasterVolume v => [v]
  | .setAdsr a d s r => [a, d, s, r]
  | .setWaveformSine => []
  | .setWaveformSquare pw => [pw]
  | .setWaveformSawtooth => []
  | .setWaveformTriangle c => [c]
  | .setFilterNone => []
  | .setFilterOnePole fc => [fc]
  | .setFilterTwoPole fc q => [fc, q]
  | .reservedOp6to7 => []
  | .reservedOp8to15 => []
  | .reservedWaveSub4to7 => []
  | .reservedWaveSub8to15 => []
  | .reservedFilterSub3 => []
  | .reservedFilterSub4to7 => []
  | .reservedFilterSub8to15 => []

end Sys2Proof
end

