-- ==== Sys2Proof/Decode.lean ====
section
/-! DEFINITION. The message decoder (30_encoding R80 to R90), total on all 160-bit words, the decoder of a byte
stream (20_memory R65), the canonical encoder (R91) and the opcode table. -/

namespace Sys2Proof

/-- The fields of the header word (30_encoding R81). -/
def Message.op (m : Message) : BitVec 4 := m.extractLsb' 0 4
def Message.sub (m : Message) : BitVec 4 := m.extractLsb' 4 4
def Message.note (m : Message) : BitVec 8 := m.extractLsb' 8 8
def Message.rsv (m : Message) : BitVec 16 := m.extractLsb' 16 16

/-- The header word and the payload slots (30_encoding R80). -/
def Message.header (m : Message) : Word := m.extractLsb' 0 32
def Message.p0 (m : Message) : Word := m.extractLsb' 32 32
def Message.p1 (m : Message) : Word := m.extractLsb' 64 32
def Message.p2 (m : Message) : Word := m.extractLsb' 96 32
def Message.p3 (m : Message) : Word := m.extractLsb' 128 32

/-- The `NOTE` field: 255 is `none`, any other value an identity (30_encoding R84). -/
def Note.ofBits (b : BitVec 8) : Note := if h : b.toNat < 255 then .id ⟨b.toNat, h⟩ else .none

/-- The stored form of a note (30_encoding R84). -/
def Note.toBits : Note → BitVec 8
  | .none => 255
  | .id n => BitVec.ofNat 8 n.val

/-- The variants of `SetWaveform` (30_encoding R83). -/
def decodeWaveform (m : Message) : Instr :=
  match m.sub.toNat with
  | 0 => .setWaveformSine
  | 1 => .setWaveformSquare m.p0
  | 2 => .setWaveformSawtooth
  | 3 => .setWaveformTriangle m.p0
  | n => if n < 8 then .reservedWaveSub4to7 else .reservedWaveSub8to15

/-- The variants of `SetFilter` (30_encoding R83). -/
def decodeFilter (m : Message) : Instr :=
  match m.sub.toNat with
  | 0 => .setFilterNone
  | 1 => .setFilterOnePole m.p0
  | 2 => .setFilterTwoPole m.p0 m.p1
  | 3 => .reservedFilterSub3
  | n => if n < 8 then .reservedFilterSub4to7 else .reservedFilterSub8to15

/-- `decode` (30_encoding R90). A field the form does not use is ignored (R88). -/
def decode (m : Message) : Instr :=
  match m.op.toNat with
  | 0 => .noteOn (Note.ofBits m.note)
  | 1 => .noteOff (Note.ofBits m.note)
  | 2 => .setMasterVolume m.p0
  | 3 => .setAdsr m.p0 m.p1 m.p2 m.p3
  | 4 => decodeWaveform m
  | 5 => decodeFilter m
  | n => if n < 8 then .reservedOp6to7 else .reservedOp8to15

/-- The five words of a message, `P3` most significant (30_encoding R80, R81); `RSV` is 0. -/
def Message.ofFields (op sub : BitVec 4) (note : BitVec 8) (p0 p1 p2 p3 : Word) : Message :=
  p3 ++ p2 ++ p1 ++ p0 ++ (0#16 ++ note ++ sub ++ op)

/-- `encode` (30_encoding R91): 0 in every unused field; not defined on a reserved form (95 section 2.1). -/
def encode : Instr → Option Message
  | .noteOn n => some (Message.ofFields 0 0 n.toBits 0 0 0 0)
  | .noteOff n => some (Message.ofFields 1 0 n.toBits 0 0 0 0)
  | .setMasterVolume v => some (Message.ofFields 2 0 0 v 0 0 0)
  | .setAdsr a d s r => some (Message.ofFields 3 0 0 a d s r)
  | .setWaveformSine => some (Message.ofFields 4 0 0 0 0 0 0)
  | .setWaveformSquare pw => some (Message.ofFields 4 1 0 pw 0 0 0)
  | .setWaveformSawtooth => some (Message.ofFields 4 2 0 0 0 0 0)
  | .setWaveformTriangle c => some (Message.ofFields 4 3 0 c 0 0 0)
  | .setFilterNone => some (Message.ofFields 5 0 0 0 0 0 0)
  | .setFilterOnePole fc => some (Message.ofFields 5 1 0 fc 0 0 0)
  | .setFilterTwoPole fc q => some (Message.ofFields 5 2 0 fc q 0 0)
  | .reservedOp6to7 => none
  | .reservedOp8to15 => none
  | .reservedWaveSub4to7 => none
  | .reservedWaveSub8to15 => none
  | .reservedFilterSub3 => none
  | .reservedFilterSub4to7 => none
  | .reservedFilterSub8to15 => none

/-- All ones in the fields a form uses, `OP` and `SUB` of a variant among them (30_encoding R87). -/
def Instr.usedBits : Instr → Message
  | .noteOn _ => Message.ofFields 15 0 255 0 0 0 0
  | .noteOff _ => Message.ofFields 15 0 255 0 0 0 0
  | .setMasterVolume _ => Message.ofFields 15 0 0 0xFFFFFFFF 0 0 0
  | .setAdsr _ _ _ _ => Message.ofFields 15 0 0 0xFFFFFFFF 0xFFFFFFFF 0xFFFFFFFF 0xFFFFFFFF
  | .setWaveformSine => Message.ofFields 15 15 0 0 0 0 0
  | .setWaveformSquare _ => Message.ofFields 15 15 0 0xFFFFFFFF 0 0 0
  | .setWaveformSawtooth => Message.ofFields 15 15 0 0 0 0 0
  | .setWaveformTriangle _ => Message.ofFields 15 15 0 0xFFFFFFFF 0 0 0
  | .setFilterNone => Message.ofFields 15 15 0 0 0 0 0
  | .setFilterOnePole _ => Message.ofFields 15 15 0 0xFFFFFFFF 0 0 0
  | .setFilterTwoPole _ _ => Message.ofFields 15 15 0 0xFFFFFFFF 0xFFFFFFFF 0 0
  | .reservedOp6to7 => Message.ofFields 15 0 0 0 0 0 0
  | .reservedOp8to15 => Message.ofFields 15 0 0 0 0 0 0
  | .reservedWaveSub4to7 => Message.ofFields 15 15 0 0 0 0 0
  | .reservedWaveSub8to15 => Message.ofFields 15 15 0 0 0 0 0
  | .reservedFilterSub3 => Message.ofFields 15 15 0 0 0 0 0
  | .reservedFilterSub4to7 => Message.ofFields 15 15 0 0 0 0 0
  | .reservedFilterSub8to15 => Message.ofFields 15 15 0 0 0 0 0

/-- A canonical word: every field its form does not use is 0 (30_encoding R88, R91). -/
def Message.canonical (m : Message) : Bool := m &&& ~~~(decode m).usedBits == 0

/-- The `n` low bytes of a value, bits 7..0 first (20_memory R65). -/
def toLittleEndian {w : Nat} (n : Nat) (x : BitVec w) : List Byte :=
  (List.range n).map (fun k => x.extractLsb' (8 * k) 8)

/-- The value whose bytes are given, bits 7..0 first (20_memory R65). -/
def ofLittleEndian (w : Nat) (bs : List Byte) : BitVec w := bs.foldr (fun b x => (x <<< 8) ||| b.setWidth w) 0

/-- A message as 20 bytes: `H`, `P0`, `P1`, `P2`, `P3` (20_memory R65). -/
def Message.toBytes (m : Message) : List Byte := toLittleEndian 20 m

/-- The message whose 20 bytes are given (20_memory R65). -/
def Message.ofBytes (bs : List Byte) : Message := ofLittleEndian 160 bs

/-- Why bytes are no message. -/
inductive DecodeError where
  /-- Fewer than the 20 bytes of a message; there is one length (30_encoding R92). -/
  | truncated
deriving DecidableEq, Repr

/-- The next message of a byte stream, with the bytes after it. -/
def decodeBytes (bs : List Byte) : Except DecodeError (Instr × List Byte) :=
  if bs.length < 20 then .error .truncated else .ok (decode (Message.ofBytes (bs.take 20)), bs.drop 20)

/-- The message whose low `nbits` bits are those of `w`, the others 0. -/
def tableMessage (nbits w : Nat) : Message := BitVec.ofNat 160 (w % 2 ^ nbits)

/-- The instruction the decoder reads from an opcode-table word. -/
def decodeTableWord (nbits w : Nat) : Option Instr :=
  match decodeBytes (tableMessage nbits w).toBytes with
  | .ok (i, _) => some i
  | .error _ => none

/-- A row of the opcode table: a header `H` selects it when `H & mask == pattern`. -/
structure OpcodeRow where
  mnemonic : String
  pattern : Word
  mask : Word
deriving DecidableEq, Repr

def OpcodeRow.selects (r : OpcodeRow) (h : Word) : Bool := h &&& r.mask == r.pattern

/-- The opcode table (30_encoding, first paragraph; R82, R83, R89). -/
def opcodeTable : List OpcodeRow :=
  [⟨"NoteOn", 0x00000000, 0x0000000F⟩,
   ⟨"NoteOff", 0x00000001, 0x0000000F⟩,
   ⟨"SetMasterVolume", 0x00000002, 0x0000000F⟩,
   ⟨"SetAdsr", 0x00000003, 0x0000000F⟩,
   ⟨"SetWaveform.Sine", 0x00000004, 0x000000FF⟩,
   ⟨"SetWaveform.Square", 0x00000014, 0x000000FF⟩,
   ⟨"SetWaveform.Sawtooth", 0x00000024, 0x000000FF⟩,
   ⟨"SetWaveform.Triangle", 0x00000034, 0x000000FF⟩,
   ⟨"SetFilter.none", 0x00000005, 0x000000FF⟩,
   ⟨"SetFilter.OnePoleLpf", 0x00000015, 0x000000FF⟩,
   ⟨"SetFilter.TwoPoleLpf", 0x00000025, 0x000000FF⟩,
   ⟨"RESERVED.OP6_7", 0x00000006, 0x0000000E⟩,
   ⟨"RESERVED.OP8_15", 0x00000008, 0x00000008⟩,
   ⟨"RESERVED.SetWaveform.SUB4_7", 0x00000044, 0x000000CF⟩,
   ⟨"RESERVED.SetWaveform.SUB8_15", 0x00000084, 0x0000008F⟩,
   ⟨"RESERVED.SetFilter.SUB3", 0x00000035, 0x000000FF⟩,
   ⟨"RESERVED.SetFilter.SUB4_7", 0x00000045, 0x000000CF⟩,
   ⟨"RESERVED.SetFilter.SUB8_15", 0x00000085, 0x0000008F⟩]

end Sys2Proof
end

