-- ==== Sys2Proof/Config.lean ====
section
/-! DEFINITION. What an implementation fixes: the operations of `NUM`, the open parameters of R9, and the
values the spec leaves free (uninterpreted constants). -/

namespace Sys2Proof

/-- `NUM` (00_scope R11): the numeric format, with its primitive operations. Every operation of the
synthesis blocks is written over these, one primitive at a time in the order of the rule (R12), so the same
text is read under binary32 (the machine) and under exact arithmetic (the reference meaning of R11). -/
structure NumOps (α : Type) where
  /-- The constant nearest to `n / d` (R11 lists `0`, `1`, `2`, `4`, `1/2`, `0.49`, `0.05`, `0.95`). -/
  lit : Int → Nat → α
  add : α → α → α
  sub : α → α → α
  mul : α → α → α
  div : α → α → α
  neg : α → α
  /-- `<`, `<=` and `==`; `>` and `>=` are these with the operands exchanged. -/
  lt : α → α → Bool
  le : α → α → Bool
  eq : α → α → Bool
  sin : α → α
  cos : α → α
  /-- `pow base exponent`, used with `base >= 0`. -/
  pow : α → α → α
  floor : α → α
  /-- The value a payload slot holds (30_encoding R86). -/
  dec : Word → α
  /-- Whether the value is a number: neither NaN nor an infinity (93 U1, U3). -/
  isFinite : α → Bool

/-- The parameters of the step relation the document leaves open (00_scope R9), with the constant `PI`
of `NUM` (R11). The arguments of `new` are not among them. `noteFreq` is the note-frequency ROM
(20_memory R62). -/
structure Params (α : Type) where
  pi : α
  envEps : α
  cutoffMin : α
  qMin : α
  oscAmp : α
  noteFreq : Vector α 255
  initMasterVolume : α
  initAttack : α
  initDecay : α
  initSustain : α
  initRelease : α
  /-- `L_MAX`, the largest block length the host may ask for; `none` is no bound (92 D26). -/
  maxBlock : Option Nat
deriving DecidableEq, Repr

/-- The binary32 operations whose result can be a NaN the standard does not fix. -/
inductive Prim where
  | add
  | sub
  | mul
  | div
deriving DecidableEq, Repr

/-- FREE VALUE (log 5): the `sin` of the machine's `NUM`; the result depends on the operand alone (R11, 93 U6). -/
opaque Config.sin : F32 → F32

/-- FREE VALUE (log 5): the `cos` of the machine's `NUM` (R11, 93 U6). -/
opaque Config.cos : F32 → F32

/-- FREE VALUE (log 5): the `pow` of the machine's `NUM` (R11, 93 U6). -/
opaque Config.pow : F32 → F32 → F32

/-- FREE VALUE (log 6): sign and low fraction bits of the NaN an operation makes of two operands. -/
opaque Config.nanBits : Prim → F32 → F32 → BitVec 23

end Sys2Proof
end

