-- ==== Sys2Proof/Machine/Float.lean ====
section
/-! DEFINITION. IEEE 754 binary32, the machine's `NUM` (00_scope R11, 92 D1): every operation computes exactly
on integers and rounds once, to nearest with ties to even. Encoding, overflow, subnormals and the signs of
zeros are IEEE 754's (log 16). -/

namespace Sys2Proof.F32

/-- The fields of a pattern (30_encoding R86). -/
def sign (x : F32) : Bool := x.getLsbD 31
def expo (x : F32) : Nat := (x.extractLsb' 23 8).toNat
def frac (x : F32) : Nat := (x.extractLsb' 0 23).toNat

def isNaN (x : F32) : Bool := x.expo == 255 && x.frac != 0
def isInf (x : F32) : Bool := x.expo == 255 && x.frac == 0

/-- Neither NaN nor an infinity. -/
def isFinite (x : F32) : Bool := x.expo != 255

/-- The magnitude in units of `2^-149`, of which every finite value is a multiple; an infinity lies above
every finite value. -/
def mag (x : F32) : Nat :=
  if x.expo = 0 then x.frac else (2 ^ 23 + x.frac) * 2 ^ (x.expo - 1)

/-- The value in units of `2^-149`, with its sign. -/
def units (x : F32) : Int := if x.sign then -(x.mag : Int) else (x.mag : Int)

/-- The exact value of a finite pattern (30_encoding R86). -/
def value (x : F32) : ℚ := x.units / 2 ^ 149

def inf (neg : Bool) : F32 := BitVec.ofBool neg ++ 0x7F800000#31
def zero (neg : Bool) : F32 := BitVec.ofBool neg ++ 0#31

/-- The quiet NaN an operation makes; its sign and low fraction bits are free (log 6). -/
def nan (p : Prim) (x y : F32) : F32 :=
  let b := Config.nanBits p x y
  b.extractLsb' 22 1 ++ 0x1FF#9 ++ b.extractLsb' 0 22

/-- How many bits the exact magnitude `num / den` (in units) is above the 24 that a significand holds. -/
def excess (num den : Nat) : Nat := Nat.log2 (num / den) - 23

/-- The magnitude bits of `num / den` units, rounded to nearest, ties to even; at most the pattern of
infinity, which every overflow gives. -/
def roundMag (num den : Nat) : Nat :=
  let e := excess num den
  let d := den * 2 ^ e
  let sig := num / d
  let r := num % d
  let up := if d < 2 * r ∨ (2 * r = d ∧ sig % 2 = 1) then 1 else 0
  min (e * 2 ^ 23 + (sig + up)) 0x7F800000

/-- The pattern nearest to the magnitude `num / den` units, with a given sign. -/
def round (neg : Bool) (num den : Nat) : F32 := BitVec.ofBool neg ++ BitVec.ofNat 31 (roundMag num den)

def neg (x : F32) : F32 := x ^^^ 0x80000000#32

/-- The sum of the values of two patterns: an exact zero is `+0` unless both operands are negative. -/
def addAs (p : Prim) (x y : F32) : F32 :=
  if x.isNaN || y.isNaN then nan p x y
  else if x.isInf then (if y.isInf && x.sign != y.sign then nan p x y else x)
  else if y.isInf then y
  else
    let k := x.units + y.units
    if k = 0 then zero (x.sign && y.sign) else round (decide (k < 0)) k.natAbs 1

def add (x y : F32) : F32 := addAs .add x y
def sub (x y : F32) : F32 := addAs .sub x y.neg

def mul (x y : F32) : F32 :=
  let s := x.sign != y.sign
  if x.isNaN || y.isNaN then nan .mul x y
  else if x.isInf then (if y.mag = 0 then nan .mul x y else inf s)
  else if y.isInf then (if x.mag = 0 then nan .mul x y else inf s)
  else round s (x.mag * y.mag) (2 ^ 149)

def div (x y : F32) : F32 :=
  let s := x.sign != y.sign
  if x.isNaN || y.isNaN then nan .div x y
  else if x.isInf then (if y.isInf then nan .div x y else inf s)
  else if y.isInf then zero s
  else if y.mag = 0 then (if x.mag = 0 then nan .div x y else inf s)
  else round s (x.mag * 2 ^ 149) y.mag

/-- Comparisons as IEEE: false with a NaN, the two zeros equal. -/
def lt (x y : F32) : Bool := !x.isNaN && !y.isNaN && decide (x.units < y.units)
def le (x y : F32) : Bool := !x.isNaN && !y.isNaN && decide (x.units ≤ y.units)
def eq (x y : F32) : Bool := !x.isNaN && !y.isNaN && decide (x.units = y.units)

/-- The greatest integer not above the value; NaN, infinities and zeros as they are. -/
def floor (x : F32) : F32 :=
  if !x.isFinite || x.mag = 0 then x
  else
    let k := x.units / (2 ^ 149 : Int)
    round (decide (k < 0)) (k.natAbs * 2 ^ 149) 1

/-- The binary32 constant nearest to `n / d`. -/
def lit (n : Int) (d : Nat) : F32 := round (decide (n < 0)) (n.natAbs * 2 ^ 149) d

/-- A payload slot holds a `Num` as it is (30_encoding R86; the sign of a zero is kept, log 17). -/
def dec (w : Word) : F32 := w

/-- The 32 bits of a value: the inverse of `dec` (30_encoding R86). -/
def enc (x : F32) : Word := x

/-- Binary32 with given `sin`, `cos` and `pow`. -/
def numWith (sin cos : F32 → F32) (pow : F32 → F32 → F32) : NumOps F32 where
  lit := lit
  add := add
  sub := sub
  mul := mul
  div := div
  neg := neg
  lt := lt
  le := le
  eq := eq
  sin := sin
  cos := cos
  pow := pow
  floor := floor
  dec := dec
  isFinite := isFinite

end Sys2Proof.F32

namespace Sys2Proof.Machine

/-- The machine's `NUM` (00_scope R11, 92 D1). -/
def num : NumOps F32 := F32.numWith Config.sin Config.cos Config.pow

end Sys2Proof.Machine
end

