-- ==== Sys2Proof/Machine/Num.lean ====
section
/-! DEFINITION. The numeric helpers of R13 over any `NUM`, and the exact reference arithmetic of R11. -/

namespace Sys2Proof.NumOps

variable {α : Type}

def zero (N : NumOps α) : α := N.lit 0 1
def one (N : NumOps α) : α := N.lit 1 1
def two (N : NumOps α) : α := N.lit 2 1

def gt (N : NumOps α) (x y : α) : Bool := N.lt y x
def ge (N : NumOps α) (x y : α) : Bool := N.le y x

/-- `max(x, y) = if x >= y then x else y` (00_scope R13). -/
def max (N : NumOps α) (x y : α) : α := if N.ge x y then x else y

/-- `min(x, y) = if x <= y then x else y` (00_scope R13). -/
def min (N : NumOps α) (x y : α) : α := if N.le x y then x else y

/-- `clamp(x, lo, hi)` returns one of its three arguments unchanged (00_scope R13). -/
def clamp (N : NumOps α) (x lo hi : α) : α := if N.lt x lo then lo else if N.gt x hi then hi else x

/-- `sign(x)` (00_scope R13). -/
def sign (N : NumOps α) (x : α) : α :=
  if N.gt x N.zero then N.one else if N.lt x N.zero then N.neg N.one else N.zero

/-- `abs(x) = if x < 0 then -x else x` (00_scope R13). -/
def abs (N : NumOps α) (x : α) : α := if N.lt x N.zero then N.neg x else x

/-- `TWO_PI = 2 * PI` (00_scope R11). -/
def twoPi (N : NumOps α) (P : Params α) : α := N.mul N.two P.pi

/-- The reference meaning of `NUM` (00_scope R11): exact arithmetic over an ordered field, with given `sin`,
`cos` and `pow`. -/
def exact (K : Type) [Field K] [LinearOrder K] [FloorRing K] (sin cos : K → K) (pow : K → K → K) : NumOps K where
  lit n d := (n : K) / (d : K)
  add x y := x + y
  sub x y := x - y
  mul x y := x * y
  div x y := x / y
  neg x := -x
  lt x y := decide (x < y)
  le x y := decide (x ≤ y)
  eq x y := decide (x = y)
  sin := sin
  cos := cos
  pow := pow
  floor x := ((⌊x⌋ : ℤ) : K)
  dec w := (F32.units w : K) / 2 ^ 149
  isFinite _ := true

end Sys2Proof.NumOps
end

