-- ==== Sys2Proof/Machine/Registers.lean ====
section
/-! DEFINITION. The records of 10_state: envelope, oscillator, filter, voice slot and engine, over any `Num`. -/

namespace Sys2Proof.Machine

/-- The stages of an envelope (00_scope R15, 10_state R30). -/
inductive EnvState where
  | idle
  | attack
  | decay
  | sustain
  | release
deriving DecidableEq, Repr

/-- The 3-bit code of a stage (10_state R30). -/
def EnvState.code : EnvState → BitVec 3
  | .idle => 0
  | .attack => 1
  | .decay => 2
  | .sustain => 3
  | .release => 4

/-- `Waveform` (00_scope R15). -/
inductive Waveform (α : Type) where
  | sine
  | square (pulseWidth : α)
  | sawtooth
  | triangle (curve : α)
deriving DecidableEq, Repr

/-- `FilterType` (00_scope R15). -/
inductive FilterType (α : Type) where
  | onePole (cutoff : α)
  | twoPole (cutoff q : α)
deriving DecidableEq, Repr

/-- `Envelope` (10_state R30). -/
structure Envelope (α : Type) where
  attack : α
  decay : α
  sustain : α
  release : α
  sampleRate : α
  state : EnvState
  level : α
  gate : Bool
  target : α
  step : α
deriving DecidableEq, Repr

/-- `Oscillator` (10_state R34). -/
structure Oscillator (α : Type) where
  phase : α
  phaseIncrement : α
  waveform : Waveform α
  amplitude : α
deriving DecidableEq, Repr

/-- The registers of a one-pole filter (10_state R40). -/
structure OnePole (α : Type) where
  sampleRate : α
  cutoff : α
  a : α
  y : α
deriving DecidableEq, Repr

/-- The registers of a two-pole filter (10_state R40). -/
structure TwoPole (α : Type) where
  sampleRate : α
  cutoff : α
  q : α
  b0 : α
  b1 : α
  b2 : α
  a1 : α
  a2 : α
  y1 : α
  y2 : α
deriving DecidableEq, Repr

/-- `Filter`, a tagged record with two variants (10_state R40). -/
inductive VoiceFilter (α : Type) where
  | onePole (f : OnePole α)
  | twoPole (f : TwoPole α)
deriving DecidableEq, Repr

/-- `Voice`, one slot of the voice file (10_state R21). -/
structure Voice (α : Type) where
  active : Bool
  note : Note
  envelope : Envelope α
  oscillator : Oscillator α
  filter : Option (VoiceFilter α)
deriving DecidableEq, Repr

/-- `ENGINE`: the voice file of `MAX_VOICES = 16` slots and the global registers (10_state R20, R21, R44). -/
structure Engine (α : Type) where
  sampleRate : α
  voices : Vector (Voice α) 16
  masterVolume : α
  attack : α
  decay : α
  sustain : α
  release : α
  waveform : Waveform α
  filterType : Option (FilterType α)
deriving DecidableEq, Repr

end Sys2Proof.Machine
end

