-- ==== Sys2Proof/Machine/Envelope.lean ====
section
/-! DEFINITION. The envelope state machine (40_envelope). The recursion of `ENV.enter` and `ENV.complete` is
written out along the order Attack, Decay, Sustain or Release, Idle, in which each call moves forward (R113 a). -/

namespace Sys2Proof.Machine.Envelope

variable {α : Type}

/-- `ENV.new` (R110). -/
def new (N : NumOps α) (a d s r sr : α) : Envelope α where
  attack := a
  decay := d
  sustain := s
  release := r
  sampleRate := sr
  state := .idle
  level := N.zero
  gate := false
  target := N.zero
  step := N.zero

/-- `ENV.enter` (R112), `done` standing for the `ENV.complete` of the stage entered. -/
def enterWith (N : NumOps α) (stage : EnvState) (target time : α) (done : Envelope α → Envelope α)
    (E : Envelope α) : Envelope α :=
  if N.le time N.zero || N.eq E.level target then
    done { E with state := stage, target := target, level := target, step := N.zero }
  else
    { E with state := stage, target := target, step := N.div (N.sub target E.level) (N.mul time E.sampleRate) }

/-- `ENV.complete` in Release (R113). -/
def completeRelease (N : NumOps α) (E : Envelope α) : Envelope α :=
  { E with state := .idle, level := N.zero, target := N.zero, step := N.zero }

/-- `ENV.enter(E, Release, 0, E.release)` (R112). -/
def enterRelease (N : NumOps α) (E : Envelope α) : Envelope α :=
  enterWith N .release N.zero E.release (completeRelease N) E

/-- `ENV.complete` in Decay (R113). -/
def completeDecay (N : NumOps α) (E : Envelope α) : Envelope α :=
  if E.gate then { E with state := .sustain, target := E.sustain, step := N.zero, level := E.sustain }
  else enterRelease N E

/-- `ENV.enter(E, Decay, E.sustain, E.decay)` (R112). -/
def enterDecay (N : NumOps α) (E : Envelope α) : Envelope α :=
  enterWith N .decay E.sustain E.decay (completeDecay N) E

/-- `ENV.complete` in Attack (R113). -/
def completeAttack (N : NumOps α) (E : Envelope α) : Envelope α :=
  if E.gate then enterDecay N E else enterRelease N E

/-- `ENV.enter(E, Attack, 1, E.attack)` (R112). -/
def enterAttack (N : NumOps α) (E : Envelope α) : Envelope α :=
  enterWith N .attack N.one E.attack (completeAttack N) E

/-- `ENV.complete` (R113). -/
def complete (N : NumOps α) (E : Envelope α) : Envelope α :=
  match E.state with
  | .attack => completeAttack N E
  | .decay => completeDecay N E
  | .release => completeRelease N E
  | .sustain => E
  | .idle => E

/-- `ENV.note_on` (R111). -/
def noteOn (N : NumOps α) (E : Envelope α) : Envelope α := enterAttack N { E with gate := true }

/-- `ENV.note_off` (R114): in Release and Idle only the gate is written (90_conflicts C3). -/
def noteOff (N : NumOps α) (E : Envelope α) : Envelope α :=
  match E.state with
  | .release => { E with gate := false }
  | .idle => { E with gate := false }
  | .attack => enterRelease N { E with gate := false }
  | .decay => enterRelease N { E with gate := false }
  | .sustain => enterRelease N { E with gate := false }

/-- `ENV.retune` (R115). -/
def retune (a d s r : α) (E : Envelope α) : Envelope α :=
  { E with attack := a, decay := d, sustain := s, release := r }

/-- `hit(E)` (R117). -/
def hit (N : NumOps α) (E : Envelope α) : Bool :=
  (N.gt E.step N.zero && N.ge E.level E.target) || (N.lt E.step N.zero && N.le E.level E.target)

/-- The advance of a moving stage (R116): one step, then on a hit the clamp to the target and the chaining. -/
def advance (N : NumOps α) (E : Envelope α) : Envelope α :=
  let E' := { E with level := N.add E.level E.step }
  if hit N E' then complete N { E' with level := E'.target } else E'

/-- The denormal flush of the stored level (R118, 90_conflicts C6). -/
def flush (N : NumOps α) (eps : α) (E : Envelope α) : Envelope α :=
  if N.lt (N.abs E.level) eps then { E with level := N.zero } else E

/-- A tick before the flush (R116). -/
def tick (N : NumOps α) (E : Envelope α) : Envelope α :=
  match E.state with
  | .idle => { E with level := N.zero }
  | .sustain => if E.gate then { E with level := E.sustain } else enterRelease N E
  | .attack => advance N E
  | .decay => advance N E
  | .release => advance N E

/-- `ENV.next_sample` (R116); the level it returns is the `level` of the envelope after it. -/
def nextSample (N : NumOps α) (P : Params α) (E : Envelope α) : Envelope α := flush N P.envEps (tick N E)

/-- `ENV.is_active` (R119). -/
def isActive (N : NumOps α) (E : Envelope α) : Bool := N.gt E.level N.zero

end Sys2Proof.Machine.Envelope
end

