-- ==== Sys2Proof/Machine/Filters.lean ====
section
/-! DEFINITION. The low-pass filters (42_filter). -/

namespace Sys2Proof.Machine

variable {α : Type}

/-- The upper cutoff bound `0.49 * sr` (R168). -/
def cutoffMax (N : NumOps α) (sr : α) : α := N.mul (N.lit 49 100) sr

/-- `clamp_cutoff` (R168). -/
def clampCutoff (N : NumOps α) (P : Params α) (fc sr : α) : α := N.clamp fc P.cutoffMin (cutoffMax N sr)

/-- `clamp_q` (R168). -/
def clampQ (N : NumOps α) (P : Params α) (q : α) : α := N.max q P.qMin

/-- The parameter clamps of one filter type (43_engine R195). -/
def FilterType.clamped (N : NumOps α) (P : Params α) (sr : α) (ft : FilterType α) : FilterType α :=
  match ft with
  | .onePole fc => .onePole (clampCutoff N P fc sr)
  | .twoPole fc q => .twoPole (clampCutoff N P fc sr) (clampQ N P q)

namespace OnePole

/-- The one-pole coefficient for a clamped cutoff (R161). -/
def coefficient (N : NumOps α) (P : Params α) (cutoff sr : α) : α :=
  let rc := N.div N.one (N.mul (N.twoPi P) cutoff)
  let dt := N.div N.one sr
  N.div dt (N.add rc dt)

/-- `FILTER.set_params` on a one-pole filter (R161); the history stays (R167). -/
def setParams (N : NumOps α) (P : Params α) (fc : α) (F : OnePole α) : OnePole α :=
  let cutoff := clampCutoff N P fc F.sampleRate
  { F with cutoff := cutoff, a := coefficient N P cutoff F.sampleRate }

/-- `FILTER.new` for a one-pole filter (R160). -/
def new (N : NumOps α) (P : Params α) (fc sr : α) : OnePole α :=
  setParams N P fc { sampleRate := sr, cutoff := N.zero, a := N.zero, y := N.zero }

/-- `FILTER.process` on a one-pole filter (R162); the output is the `y` after it. -/
def process (N : NumOps α) (x : α) (F : OnePole α) : OnePole α :=
  { F with y := N.add F.y (N.mul F.a (N.sub x F.y)) }

/-- `FILTER.reset` on a one-pole filter (R163). -/
def reset (N : NumOps α) (F : OnePole α) : OnePole α := { F with y := N.zero }

end OnePole

namespace TwoPole

/-- `FILTER.set_params` on a two-pole filter (R164); the history stays (R167). -/
def setParams (N : NumOps α) (P : Params α) (fc q : α) (F : TwoPole α) : TwoPole α :=
  let cutoff := clampCutoff N P fc F.sampleRate
  let q := clampQ N P q
  let w0 := N.div (N.mul (N.twoPi P) cutoff) F.sampleRate
  let cw := N.cos w0
  let sw := N.sin w0
  let alpha := N.div sw (N.mul N.two q)
  let a0 := N.add N.one alpha
  { F with
    cutoff := cutoff
    q := q
    b0 := N.div (N.div (N.sub N.one cw) N.two) a0
    b1 := N.div (N.sub N.one cw) a0
    b2 := N.div (N.div (N.sub N.one cw) N.two) a0
    a1 := N.div (N.mul (N.neg N.two) cw) a0
    a2 := N.div (N.sub N.one alpha) a0 }

/-- `FILTER.new` for a two-pole filter (R160). -/
def new (N : NumOps α) (P : Params α) (fc q sr : α) : TwoPole α :=
  setParams N P fc q
    { sampleRate := sr, cutoff := N.zero, q := N.zero, b0 := N.zero, b1 := N.zero, b2 := N.zero,
      a1 := N.zero, a2 := N.zero, y1 := N.zero, y2 := N.zero }

/-- The sample `FILTER.process` returns on a two-pole filter (R165). -/
def output (N : NumOps α) (x : α) (F : TwoPole α) : α := N.add (N.mul F.b0 x) F.y1

/-- The histories after `FILTER.process` on a two-pole filter (R165): the new `y1` reads the old `y2`. -/
def process (N : NumOps α) (x : α) (F : TwoPole α) : TwoPole α :=
  let y := output N x F
  { F with
    y1 := N.add (N.sub (N.mul F.b1 x) (N.mul F.a1 y)) F.y2
    y2 := N.sub (N.mul F.b2 x) (N.mul F.a2 y) }

/-- `FILTER.reset` on a two-pole filter (R166). -/
def reset (N : NumOps α) (F : TwoPole α) : TwoPole α := { F with y1 := N.zero, y2 := N.zero }

end TwoPole

namespace VoiceFilter

/-- `FILTER.new` (R160). -/
def new (N : NumOps α) (P : Params α) (ft : FilterType α) (sr : α) : VoiceFilter α :=
  match ft with
  | .onePole fc => .onePole (OnePole.new N P fc sr)
  | .twoPole fc q => .twoPole (TwoPole.new N P fc q sr)

/-- `FILTER.same_topology` (R170): the variant tags alone. -/
def sameTopology (F : VoiceFilter α) (ft : FilterType α) : Bool :=
  match F, ft with
  | .onePole _, .onePole _ => true
  | .twoPole _, .twoPole _ _ => true
  | .onePole _, .twoPole _ _ => false
  | .twoPole _, .onePole _ => false

/-- `FILTER.set_params` (R161, R164), which is called for a type of the filter's own topology only. -/
def setParams (N : NumOps α) (P : Params α) (ft : FilterType α) (F : VoiceFilter α) : VoiceFilter α :=
  match F, ft with
  | .onePole f, .onePole fc => .onePole (f.setParams N P fc)
  | .twoPole f, .twoPole fc q => .twoPole (f.setParams N P fc q)
  | .onePole f, .twoPole _ _ => .onePole f
  | .twoPole f, .onePole _ => .twoPole f

/-- The live update of R195: the same topology keeps the history (R167), another one starts a new filter. -/
def setType (N : NumOps α) (P : Params α) (ft : FilterType α) (sr : α) (F : VoiceFilter α) : VoiceFilter α :=
  if F.sameTopology ft then F.setParams N P ft else VoiceFilter.new N P ft sr

/-- The sample `FILTER.process` returns (R162, R165). -/
def output (N : NumOps α) (x : α) (F : VoiceFilter α) : α :=
  match F with
  | .onePole f => (f.process N x).y
  | .twoPole f => f.output N x

/-- The filter after `FILTER.process` (R162, R165). -/
def process (N : NumOps α) (x : α) (F : VoiceFilter α) : VoiceFilter α :=
  match F with
  | .onePole f => .onePole (f.process N x)
  | .twoPole f => .twoPole (f.process N x)

/-- `FILTER.reset` (R163, R166). -/
def reset (N : NumOps α) (F : VoiceFilter α) : VoiceFilter α :=
  match F with
  | .onePole f => .onePole (f.reset N)
  | .twoPole f => .twoPole (f.reset N)

end VoiceFilter

end Sys2Proof.Machine
end

