-- ==== Sys2Proof/Machine/Oscillator.lean ====
section
/-! DEFINITION. The band-limited oscillator (41_oscillator). -/

namespace Sys2Proof.Machine

variable {α : Type}

/-- The wrap of the phase into `[0, TWO_PI)` (R142). -/
def wrapPhase (N : NumOps α) (P : Params α) (p : α) : α :=
  N.sub p (N.mul (N.twoPi P) (N.floor (N.div p (N.twoPi P))))

/-- The polynomial band-limited step residual (R144). -/
def polyblep (N : NumOps α) (t dt : α) : α :=
  if N.lt t dt then
    let u := N.div t dt
    N.sub (N.sub (N.mul u N.two) (N.mul u u)) N.one
  else if N.gt t (N.sub N.one dt) then
    let u := N.div (N.sub t N.one) dt
    N.add (N.add (N.mul u u) (N.mul N.two u)) N.one
  else N.zero

/-- The square at normalised phase `t` and increment `dt` (R146). -/
def squareAt (N : NumOps α) (pw t dt : α) : α :=
  let naive := if N.lt t pw then N.one else N.neg N.one
  let rising := N.add naive (polyblep N t dt)
  let t2 := N.sub t pw
  let t2 := if N.lt t2 N.zero then N.add t2 N.one else t2
  N.sub rising (polyblep N t2 dt)

/-- The sawtooth at normalised phase `t` and increment `dt` (R147). -/
def sawtoothAt (N : NumOps α) (t dt : α) : α :=
  N.sub (N.sub (N.mul N.two t) N.one) (polyblep N t dt)

/-- The shaped triangle at normalised phase `t` (R148). -/
def triangleAt (N : NumOps α) (c t : α) : α :=
  let tri := N.sub N.one (N.mul (N.lit 4 1) (N.abs (N.sub t (N.lit 1 2))))
  N.mul (N.sign tri) (N.pow (N.abs tri) (N.add N.one (N.mul N.two c)))

/-- `WAVE.sample` (R145 to R148), on the normalised phase and increment of R143. -/
def Waveform.sample (N : NumOps α) (P : Params α) (w : Waveform α) (phase inc : α) : α :=
  let t := N.div phase (N.twoPi P)
  let dt := N.div inc (N.twoPi P)
  match w with
  | .sine => N.sin phase
  | .square pw => squareAt N pw t dt
  | .sawtooth => sawtoothAt N t dt
  | .triangle c => triangleAt N c t

/-- `clamp_waveform` (43_engine R193). -/
def Waveform.clamped (N : NumOps α) (w : Waveform α) : Waveform α :=
  match w with
  | .sine => .sine
  | .square pw => .square (N.clamp pw (N.lit 5 100) (N.lit 95 100))
  | .sawtooth => .sawtooth
  | .triangle c => .triangle (N.max c N.zero)

namespace Oscillator

/-- `OSC.new` (R140). -/
def new (N : NumOps α) (P : Params α) (freq sr : α) (w : Waveform α) : Oscillator α where
  phase := N.zero
  phaseIncrement := N.mul (N.div freq sr) (N.twoPi P)
  waveform := w
  amplitude := P.oscAmp

/-- The sample `OSC.next_sample` returns (R141). -/
def output (N : NumOps α) (P : Params α) (O : Oscillator α) : α :=
  N.mul (O.waveform.sample N P O.phase O.phaseIncrement) O.amplitude

/-- The advance of the phase in `OSC.next_sample` (R141). -/
def advance (N : NumOps α) (P : Params α) (O : Oscillator α) : Oscillator α :=
  { O with phase := wrapPhase N P (N.add O.phase O.phaseIncrement) }

end Oscillator

end Sys2Proof.Machine
end

