-- ==== Sys2Proof/Machine/Voices.lean ====
section
/-! DEFINITION. The engine (43_engine): the voice file, the note operations, the setters, the mixer and `new`. -/

namespace Sys2Proof.Machine

variable {α : Type}

/-- A loop over all slots that rewrites each one. -/
def mapSlots {β γ : Type} {n : Nat} (f : β → γ) (v : Vector β n) : Vector γ n := ⟨⟨v.toList.map f⟩, by simp⟩

/-- The lowest slot index that passes a test: the linear scan of R181. -/
def findSlot {β : Type} {n : Nat} (p : β → Bool) (v : Vector β n) : Option (Fin n) :=
  (List.finRange n).find? (fun i => p v[i])

namespace Voice

/-- The slot sounds this note (R181, R184). -/
def carries (n : Fin 255) (v : Voice α) : Bool := v.active && v.note == .id n

/-- "a voice is 'free' iff `active == false`" (10_state R21). -/
def free (v : Voice α) : Bool := !v.active

/-- The contents of a slot no note has used yet (10_state R24, R55; log 11). -/
def unused (N : NumOps α) : Voice α where
  active := false
  note := .none
  envelope := Envelope.new N N.zero N.zero N.zero N.zero N.zero
  oscillator := { phase := N.zero, phaseIncrement := N.zero, waveform := .sine, amplitude := N.zero }
  filter := none

end Voice

namespace Engine

/-- A fresh envelope from the global registers, with `ENV.note_on` applied (R181, R182). -/
def startEnvelope (N : NumOps α) (e : Engine α) : Envelope α :=
  (Envelope.new N e.attack e.decay e.sustain e.release e.sampleRate).noteOn N

/-- Step 1 of `NoteOn`: retrigger in place (R181). -/
def retrigger (N : NumOps α) (e : Engine α) (v : Voice α) : Voice α :=
  { v with envelope := startEnvelope N e, filter := v.filter.map (VoiceFilter.reset N) }

/-- The voice `ENGINE.allocate` puts in a slot (R182): nothing of the previous occupant survives. -/
def freshVoice (N : NumOps α) (P : Params α) (e : Engine α) (n : Fin 255) : Voice α where
  active := true
  note := .id n
  envelope := startEnvelope N e
  oscillator := Oscillator.new N P P.noteFreq[n] e.sampleRate e.waveform
  filter := e.filterType.map (fun ft => VoiceFilter.new N P ft e.sampleRate)

/-- `ENGINE.note_on` (R181 to R183): retrigger, else first-fit allocation, else nothing. -/
def noteOn (N : NumOps α) (P : Params α) (n : Fin 255) (e : Engine α) : Engine α :=
  match findSlot (Voice.carries n) e.voices with
  | some i => { e with voices := e.voices.set i (retrigger N e e.voices[i]) }
  | none =>
    match findSlot Voice.free e.voices with
    | some i => { e with voices := e.voices.set i (freshVoice N P e n) }
    | none => e

/-- What `ENGINE.note_off` does to one slot (R184). -/
def releaseVoice (N : NumOps α) (n : Fin 255) (v : Voice α) : Voice α :=
  if v.carries n then { v with envelope := v.envelope.noteOff N } else v

/-- `ENGINE.note_off` (R184): every active voice that carries the note. -/
def noteOff (N : NumOps α) (n : Fin 255) (e : Engine α) : Engine α :=
  { e with voices := mapSlots (releaseVoice N n) e.voices }

/-- `ENGINE.set_master_volume` (R190). -/
def setMasterVolume (N : NumOps α) (v : α) (e : Engine α) : Engine α :=
  { e with masterVolume := N.clamp v N.zero N.one }

/-- What `ENGINE.set_adsr` does to one slot (R191, 90_conflicts C4). -/
def adsrVoice (N : NumOps α) (a d s r : α) (v : Voice α) : Voice α :=
  if v.active then
    let E := v.envelope.retune a d s r
    { v with envelope := if E.isActive N then E.noteOn N else E }
  else v

/-- `ENGINE.set_adsr` (R191). -/
def setAdsr (N : NumOps α) (a d s r : α) (e : Engine α) : Engine α :=
  let a := N.max a N.zero
  let d := N.max d N.zero
  let s := N.clamp s N.zero N.one
  let r := N.max r N.zero
  { e with attack := a, decay := d, sustain := s, release := r, voices := mapSlots (adsrVoice N a d s r) e.voices }

/-- What `ENGINE.set_waveform` does to one slot (R193). -/
def waveVoice (w : Waveform α) (v : Voice α) : Voice α :=
  if v.active then { v with oscillator := { v.oscillator with waveform := w } } else v

/-- `ENGINE.set_waveform` (R193). -/
def setWaveform (N : NumOps α) (w : Waveform α) (e : Engine α) : Engine α :=
  let w := w.clamped N
  { e with waveform := w, voices := mapSlots (waveVoice w) e.voices }

/-- The filter of an active voice after `ENGINE.set_filter` with a clamped type (R195). -/
def filterAfter (N : NumOps α) (P : Params α) (sr : α) (f : Option (FilterType α)) (old : Option (VoiceFilter α)) :
    Option (VoiceFilter α) :=
  match f, old with
  | none, _ => none
  | some ft, none => some (VoiceFilter.new N P ft sr)
  | some ft, some F => some (F.setType N P ft sr)

/-- What `ENGINE.set_filter` does to one slot (R195). -/
def filterVoice (N : NumOps α) (P : Params α) (sr : α) (f : Option (FilterType α)) (v : Voice α) : Voice α :=
  if v.active then { v with filter := filterAfter N P sr f v.filter } else v

/-- `ENGINE.set_filter` (R195). -/
def setFilter (N : NumOps α) (P : Params α) (f : Option (FilterType α)) (e : Engine α) : Engine α :=
  let f := f.map (FilterType.clamped N P e.sampleRate)
  { e with filterType := f, voices := mapSlots (filterVoice N P e.sampleRate f) e.voices }

/-- The oscillator sample of a voice through its optional filter (R186, 42_filter R171). -/
def voiceSample (N : NumOps α) (P : Params α) (v : Voice α) : α :=
  let x := v.oscillator.output N P
  match v.filter with
  | none => x
  | some F => F.output N x

/-- One voice's part of `ENGINE.next_sample` (R186): the slot afterwards, and what it adds to the sum. -/
def tickVoice (N : NumOps α) (P : Params α) (v : Voice α) : Voice α × Option α :=
  if v.active then
    let E := v.envelope.nextSample N P
    if N.le E.level N.zero then ({ v with envelope := E, active := false }, none)
    else
      ({ v with
          envelope := E
          oscillator := v.oscillator.advance N P
          filter := v.filter.map (VoiceFilter.process N (v.oscillator.output N P)) },
        some (N.mul (voiceSample N P v) E.level))
  else (v, none)

/-- The sum of the contributions, in ascending slot order from 0 (R187). -/
def mix (N : NumOps α) (contributions : List (Option α)) : α :=
  contributions.foldl (fun sum c => match c with | none => sum | some y => N.add sum y) N.zero

/-- `ENGINE.next_sample` (R185, R186): the unclamped sample and the engine afterwards. -/
def nextSample (N : NumOps α) (P : Params α) (e : Engine α) : α × Engine α :=
  if N.eq e.masterVolume N.zero then (N.zero, e)
  else
    let ticks := mapSlots (tickVoice N P) e.voices
    (N.mul (mix N (ticks.toList.map Prod.snd)) e.masterVolume, { e with voices := mapSlots Prod.fst ticks })

/-- `new` (70_reset R260). -/
def new (N : NumOps α) (P : Params α) (sr : α) (w : Waveform α) (f : Option (FilterType α)) : Engine α where
  sampleRate := sr
  voices := Vector.replicate 16 (Voice.unused N)
  masterVolume := P.initMasterVolume
  attack := P.initAttack
  decay := P.initDecay
  sustain := P.initSustain
  release := P.initRelease
  waveform := w.clamped N
  filterType := f.map (FilterType.clamped N P sr)

end Engine

/-- The output clamp (45_render R221). -/
def clampSample (N : NumOps α) (s : α) : α := N.clamp s (N.neg N.one) N.one

/-- The default parameters of R9, with the test ROM `NOTE_FREQ(n) = n + 1` (20_memory R62; log 3). -/
def standardParams (N : NumOps α) (pi : α) : Params α where
  pi := pi
  envEps := N.lit 1 (2 ^ 40)
  cutoffMin := N.one
  qMin := N.lit 1 10
  oscAmp := N.one
  noteFreq := ⟨⟨(List.range 255).map (fun (n : Nat) => N.lit (n + 1 : Nat) 1)⟩, (List.length_map _).trans List.length_range⟩
  initMasterVolume := N.one
  initAttack := N.zero
  initDecay := N.zero
  initSustain := N.one
  initRelease := N.zero
  maxBlock := none

/-- All numbers of a waveform are numbers. -/
def Waveform.isFinite (N : NumOps α) (w : Waveform α) : Bool :=
  match w with
  | .sine => true
  | .square pw => N.isFinite pw
  | .sawtooth => true
  | .triangle c => N.isFinite c

/-- All numbers of a filter type are numbers. -/
def FilterType.isFinite (N : NumOps α) (ft : FilterType α) : Bool :=
  match ft with
  | .onePole fc => N.isFinite fc
  | .twoPole fc q => N.isFinite fc && N.isFinite q

/-- `0 < x`, for a number. -/
def positive (N : NumOps α) (x : α) : Bool := N.isFinite x && N.gt x N.zero

/-- `0 <= x`, for a number. -/
def nonneg (N : NumOps α) (x : α) : Bool := N.isFinite x && N.ge x N.zero

/-- `x` in [0, 1]. -/
def inUnit (N : NumOps α) (x : α) : Bool := N.ge x N.zero && N.le x N.one

/-- The constraints on a configuration and its sample rate (70_reset R262; log 13). -/
def admissible (N : NumOps α) (P : Params α) (sr : α) : Bool :=
  positive N sr && positive N P.pi && positive N P.envEps && positive N P.cutoffMin && positive N P.qMin &&
  N.isFinite P.oscAmp && P.noteFreq.toList.all (positive N) && inUnit N P.initMasterVolume &&
  nonneg N P.initAttack && nonneg N P.initDecay && inUnit N P.initSustain && nonneg N P.initRelease &&
  N.le P.cutoffMin (cutoffMax N sr)

/-- The constraints on the arguments of `new`: `admissible`, and numbers in the waveform and filter type. -/
def admissibleNew (N : NumOps α) (P : Params α) (sr : α) (w : Waveform α) (f : Option (FilterType α)) : Bool :=
  admissible N P sr && w.isFinite N && f.all (FilterType.isFinite N)

end Sys2Proof.Machine
end

