-- ==== Sys2Proof/Machine/State.lean ====
section
/-! DEFINITION. The state of the machine, the reasons a step can stop, and the state after reset. -/

namespace Sys2Proof.Machine

/-- The renderer's phases (10_state R50). -/
inductive Phase where
  | drain
  | gen
deriving DecidableEq, Repr

/-- `SEQ = {phase, i}` with the length `L` of the block's buffer (10_state R50). It exists only while a
`render_block` is in progress. -/
structure Sequencer where
  phase : Phase
  i : Nat
  len : Nat
deriving DecidableEq, Repr

/-- What an agent does next (00_scope R5, R6; log 8). -/
inductive Turn where
  /-- A producer pushes one message word (44_bus R210). -/
  | push (m : Message)
  /-- The host calls `render_block` with a buffer of `len` entries (45_render R220). -/
  | renderBlock (len : Nat)
  /-- The host constructs an engine (70_reset R260). -/
  | newEngine (sampleRate : F32) (waveform : Waveform F32) (filterType : Option (FilterType F32))
  /-- The host constructs a bus (44_bus R212). -/
  | newBus
  /-- The renderer takes its next atomic step. -/
  | renderer
deriving DecidableEq, Repr

/-- The state (10_state R20). `config`, `pushResult` and `turns` are the model's own fields (logs 2, 8, 10). -/
structure State where
  /-- The parameters of the step relation (00_scope R9); no step writes them. -/
  config : Params F32
  /-- `ENGINE` (R20, R21, R44). -/
  engine : Engine F32
  /-- `BUS.Q`, oldest first (R48). -/
  bus : List Message
  /-- The renderer's sequencer, absent between blocks (R50). -/
  seq : Option Sequencer
  /-- The entries of the output buffer written in the block in progress or the last one, in ascending
  order (R52 c, 20_memory R63; log 9). -/
  out : List F32
  /-- The result bit of the latest push, an output of the hardware (R7, R49; log 10). -/
  pushResult : Option (BitVec 1)
  /-- The schedule: who moves next (log 8). -/
  turns : List Turn
deriving DecidableEq, Repr

/-- The machine has no fault: no condition stops it or transfers control (60_exceptions R236; log 12). Nobody
raises one, which is safe. -/
inductive Fault where
deriving DecidableEq, Repr

/-- Acts outside the contract. No message is refused. -/
inductive Refusal where
  /-- Raised by an arm of `exec` whose instruction has no meaning yet; safe. No arm does. -/
  | notModelled (mnemonic : String)
  /-- Raised by a `renderBlock` turn while a block is in progress (45_render R226 a, 93 U7); safe. -/
  | overlappingBlock
  /-- Raised by a `renderBlock` turn whose length is above `L_MAX` (00_scope R9, 92 D26; log 13); safe. -/
  | blockTooLong
  /-- Raised by a `newEngine` or `newBus` turn while a block is in progress (R226, U7; log 13); safe. -/
  | constructionDuringBlock
  /-- Raised by a `newEngine` turn outside the constraints of 70_reset R262 (93 U2; log 13); safe. -/
  | inadmissibleConfiguration
deriving DecidableEq, Repr

/-- The pattern of `PI` at reset: the one 42_filter R161 names (log 4). -/
def resetPi : F32 := 0x40490FDB#32

/-- The sample rate at reset, 44100 Hz (log 3). -/
def resetSampleRate : F32 := num.lit 44100 1

/-- The state after `new` and `BUS.new` (10_state R55, 70_reset R260, R261; logs 3, 4, 11). -/
def State.reset : State where
  config := standardParams num resetPi
  engine := Engine.new num (standardParams num resetPi) resetSampleRate .sine none
  bus := []
  seq := none
  out := []
  pushResult := none
  turns := []

end Sys2Proof.Machine
end

