-- ==== Sys2Proof/Machine/Flags.lean ====
section
/-! DEFINITION. The one-bit conditions of 10_state R49. There is no condition-code register: `active` and
`gate` are fields of their records, and the two bus conditions are functions of the queue. -/

namespace Sys2Proof.Machine

/-- `BUS_CAPACITY` (00_scope R8). -/
def busCapacity : Nat := 2048

/-- Bus full: `|Q| == 2048` (R49). -/
def busFull (q : List Message) : Bool := q.length == busCapacity

/-- Bus empty: `|Q| == 0` (R49). -/
def busEmpty (q : List Message) : Bool := q.length == 0

/-- The encoding of the push result: 1 accepted, 0 refused (44_bus R210). -/
def pushResultBit (accepted : Bool) : BitVec 1 := BitVec.ofBool accepted

/-- The number of active slots (10_state R21). -/
def activeCount {α : Type} (e : Engine α) : Nat := e.voices.toList.countP Voice.active

end Sys2Proof.Machine
end

