-- ==== Sys2Proof/Machine/Ops.lean ====
section
/-! DEFINITION. The named updates of State, the operations of the bus, and the one handling of every error. -/

namespace Sys2Proof.Machine

namespace State

def setEngine (s : State) (e : Engine F32) : State := { s with engine := e }
def setBus (s : State) (q : List Message) : State := { s with bus := q }
def setSeq (s : State) (q : Option Sequencer) : State := { s with seq := q }
def setOut (s : State) (xs : List F32) : State := { s with out := xs }
def setPushResult (s : State) (b : Option (BitVec 1)) : State := { s with pushResult := b }
def setTurns (s : State) (ts : List Turn) : State := { s with turns := ts }

/-- An operation of the engine under the machine's `NUM` and the state's parameters. -/
def applyEngine (s : State) (f : NumOps F32 → Params F32 → Engine F32 → Engine F32) : State :=
  s.setEngine (f num s.config s.engine)

end State

namespace Bus

/-- `BUS.new` (44_bus R212). -/
def new : List Message := []

/-- `BUS.push` (44_bus R210): the queue afterwards and the result, accepted or refused. -/
def push (q : List Message) (m : Message) : List Message × Bool :=
  if busFull q then (q, false) else (q ++ [m], true)

/-- `BUS.pop` (44_bus R211): the oldest message and the rest, or nothing. -/
def pop (q : List Message) : Option (Message × List Message) :=
  match q with
  | [] => none
  | m :: rest => some (m, rest)

end Bus

/-- The error classes E1 to E5 (60_exceptions R251); labels, held in no state. -/
inductive ErrorClass where
  | queueFull
  | voicePoolExhausted
  | invalidParameter
  | filterInstability
  | reservedEncoding
deriving DecidableEq, Repr

/-- The "trap entry" of an error class: the identity on state (60_exceptions R236, R238). There is no return
from it (R239). -/
def absorb (_ : ErrorClass) (s : State) : State := s

end Sys2Proof.Machine
end

