-- ==== Sys2Proof/Machine/Operands.lean ====
section
/-! DEFINITION. The operands of a message: the note field and the payload slots. -/

namespace Sys2Proof.Machine

/-- The value of a payload slot (30_encoding R85, R86). -/
def payload (w : Word) : F32 := F32.dec w

/-- A message form with a note operand: the sentinel `none` is ignored (43_engine R180). -/
def onNote (note : Note) (f : Fin 255 → NumOps F32 → Params F32 → Engine F32 → Engine F32) (s : State) : State :=
  match note with
  | .none => s
  | .id n => s.applyEngine (f n)

/-- A message form with payload operands. A payload that is NaN or infinite makes the message ignored, like a
reserved one, as 93 U1 allows (log 7). -/
def onPayloads (ws : List Word) (f : NumOps F32 → Params F32 → Engine F32 → Engine F32) (s : State) : State :=
  if ws.all (fun w => F32.isFinite (payload w)) then s.applyEngine f else absorb .reservedEncoding s

end Sys2Proof.Machine
end

