-- ==== Sys2Proof/Machine/Notes.lean ====
section
/-! DEFINITION. The note messages (43_engine R180 to R184). -/

namespace Sys2Proof.Machine

/-- `NoteOn{note}` (R180, R181). -/
def execNoteOn (note : Note) (s : State) : Host.Outcome State Fault Refusal :=
  .next (onNote note (fun n N P e => Engine.noteOn N P n e) s)

/-- `NoteOff{note}` (R180, R184). -/
def execNoteOff (note : Note) (s : State) : Host.Outcome State Fault Refusal :=
  .next (onNote note (fun n N _ e => Engine.noteOff N n e) s)

end Sys2Proof.Machine
end

