-- ==== Sys2Proof/Machine/Reserved.lean ====
section
/-! DEFINITION. The reserved encodings (30_encoding R89, 60_exceptions R235): each decodes to `Invalid`, is
consumed, and has no effect on the engine. -/

namespace Sys2Proof.Machine

/-- OP 6 and 7 (R89). -/
def execReservedOp6to7 (s : State) : Host.Outcome State Fault Refusal := .next (absorb .reservedEncoding s)

/-- OP 8 to 15 (R89). -/
def execReservedOp8to15 (s : State) : Host.Outcome State Fault Refusal := .next (absorb .reservedEncoding s)

/-- OP 4, SUB 4 to 7 (R89). -/
def execReservedWaveSub4to7 (s : State) : Host.Outcome State Fault Refusal := .next (absorb .reservedEncoding s)

/-- OP 4, SUB 8 to 15 (R89). -/
def execReservedWaveSub8to15 (s : State) : Host.Outcome State Fault Refusal := .next (absorb .reservedEncoding s)

/-- OP 5, SUB 3 (R89). -/
def execReservedFilterSub3 (s : State) : Host.Outcome State Fault Refusal := .next (absorb .reservedEncoding s)

/-- OP 5, SUB 4 to 7 (R89). -/
def execReservedFilterSub4to7 (s : State) : Host.Outcome State Fault Refusal := .next (absorb .reservedEncoding s)

/-- OP 5, SUB 8 to 15 (R89). -/
def execReservedFilterSub8to15 (s : State) : Host.Outcome State Fault Refusal := .next (absorb .reservedEncoding s)

end Sys2Proof.Machine
end

