-- ==== Sys2Proof/Machine/Setters.lean ====
section
/-! DEFINITION. The global setters (43_engine R190 to R203). -/

namespace Sys2Proof.Machine

/-- `SetMasterVolume(v)` (R190). -/
def execSetMasterVolume (v : Word) (s : State) : Host.Outcome State Fault Refusal :=
  .next (onPayloads [v] (fun N _ e => e.setMasterVolume N (payload v)) s)

/-- `SetAdsr{a, d, s, r}` (R191); `t` is the state. -/
def execSetAdsr (a d s r : Word) (t : State) : Host.Outcome State Fault Refusal :=
  .next (onPayloads [a, d, s, r] (fun N _ e => e.setAdsr N (payload a) (payload d) (payload s) (payload r)) t)

/-- `SetWaveform(Sine)` (R197). -/
def execSetWaveformSine (s : State) : Host.Outcome State Fault Refusal :=
  .next (s.applyEngine (fun N _ e => e.setWaveform N .sine))

/-- `SetWaveform(Square{pw})` (R198). -/
def execSetWaveformSquare (pw : Word) (s : State) : Host.Outcome State Fault Refusal :=
  .next (onPayloads [pw] (fun N _ e => e.setWaveform N (.square (payload pw))) s)

/-- `SetWaveform(Sawtooth)` (R199). -/
def execSetWaveformSawtooth (s : State) : Host.Outcome State Fault Refusal :=
  .next (s.applyEngine (fun N _ e => e.setWaveform N .sawtooth))

/-- `SetWaveform(Triangle{c})` (R200). -/
def execSetWaveformTriangle (c : Word) (s : State) : Host.Outcome State Fault Refusal :=
  .next (onPayloads [c] (fun N _ e => e.setWaveform N (.triangle (payload c))) s)

/-- `SetFilter(none)` (R201). -/
def execSetFilterNone (s : State) : Host.Outcome State Fault Refusal :=
  .next (s.applyEngine (fun N P e => e.setFilter N P none))

/-- `SetFilter(some(OnePoleLpf{fc}))` (R202). -/
def execSetFilterOnePole (fc : Word) (s : State) : Host.Outcome State Fault Refusal :=
  .next (onPayloads [fc] (fun N P e => e.setFilter N P (some (.onePole (payload fc)))) s)

/-- `SetFilter(some(TwoPoleLpf{fc, q}))` (R203). -/
def execSetFilterTwoPole (fc q : Word) (s : State) : Host.Outcome State Fault Refusal :=
  .next (onPayloads [fc, q] (fun N P e => e.setFilter N P (some (.twoPole (payload fc) (payload q)))) s)

end Sys2Proof.Machine
end

