-- ==== Sys2Proof/Machine/Dispatch.lean ====
section
/-! DEFINITION. `ENGINE.apply` (43_engine R180): one arm per message form. -/

namespace Sys2Proof.Machine

def exec (i : Instr) (s : State) : Host.Outcome State Fault Refusal :=
  match i with
  | .noteOn note => Sys2Proof.Machine.execNoteOn note s
  | .noteOff note => Sys2Proof.Machine.execNoteOff note s
  | .setMasterVolume v => Sys2Proof.Machine.execSetMasterVolume v s
  | .setAdsr a d u r => Sys2Proof.Machine.execSetAdsr a d u r s
  | .setWaveformSine => Sys2Proof.Machine.execSetWaveformSine s
  | .setWaveformSquare pw => Sys2Proof.Machine.execSetWaveformSquare pw s
  | .setWaveformSawtooth => Sys2Proof.Machine.execSetWaveformSawtooth s
  | .setWaveformTriangle c => Sys2Proof.Machine.execSetWaveformTriangle c s
  | .setFilterNone => Sys2Proof.Machine.execSetFilterNone s
  | .setFilterOnePole fc => Sys2Proof.Machine.execSetFilterOnePole fc s
  | .setFilterTwoPole fc q => Sys2Proof.Machine.execSetFilterTwoPole fc q s
  | .reservedOp6to7 => Sys2Proof.Machine.execReservedOp6to7 s
  | .reservedOp8to15 => Sys2Proof.Machine.execReservedOp8to15 s
  | .reservedWaveSub4to7 => Sys2Proof.Machine.execReservedWaveSub4to7 s
  | .reservedWaveSub8to15 => Sys2Proof.Machine.execReservedWaveSub8to15 s
  | .reservedFilterSub3 => Sys2Proof.Machine.execReservedFilterSub3 s
  | .reservedFilterSub4to7 => Sys2Proof.Machine.execReservedFilterSub4to7 s
  | .reservedFilterSub8to15 => Sys2Proof.Machine.execReservedFilterSub8to15 s

end Sys2Proof.Machine
end

