-- ==== Sys2Proof/Machine/Render.lean ====
section
/-! DEFINITION. The acts of the agents, one atomic step each (00_scope R6): a push, the host's calls, and the
steps of the renderer (45_render R220). -/

namespace Sys2Proof.Machine

/-- The sequencer ceases to exist when `i == L` (10_state R50). -/
def Sequencer.settled (q : Sequencer) : Option Sequencer := if q.len ≤ q.i then none else some q

/-- The state at the call of `render_block` with a buffer of `len` entries: the drain begins, nothing is written. -/
def State.beginBlock (s : State) (len : Nat) : State :=
  (s.setSeq (some { phase := .drain, i := 0, len := len })).setOut []

/-- A producer's push (44_bus R210). -/
def pushTurn (m : Message) (s : State) : State :=
  let r := Bus.push s.bus m
  (s.setBus r.1).setPushResult (some (pushResultBit r.2))

/-- The host may ask for a block of `len` samples: `len` is at most `L_MAX` (00_scope R9, 92 D26). -/
def blockAllowed (P : Params F32) (len : Nat) : Bool := P.maxBlock.all (fun bound => decide (len ≤ bound))

/-- The call of `render_block`; one block at a time, of a length within `L_MAX` (45_render R220, R226 a). -/
def renderBlockTurn (len : Nat) (s : State) : Host.Outcome State Fault Refusal :=
  match s.seq with
  | some _ => .refused .overlappingBlock
  | none => if blockAllowed s.config len then .next (s.beginBlock len) else .refused .blockTooLong

/-- The construction of an engine; the bus is not touched (70_reset R260 d, R263). -/
def newEngineTurn (sr : F32) (w : Waveform F32) (f : Option (FilterType F32)) (s : State) :
    Host.Outcome State Fault Refusal :=
  match s.seq with
  | some _ => .refused .constructionDuringBlock
  | none =>
    if admissibleNew num s.config sr w f then .next (s.setEngine (Engine.new num s.config sr w f))
    else .refused .inadmissibleConfiguration

/-- The construction of a bus; the engine is not touched (44_bus R212, 70_reset R261). -/
def newBusTurn (s : State) : Host.Outcome State Fault Refusal :=
  match s.seq with
  | some _ => .refused .constructionDuringBlock
  | none => .next (s.setBus Bus.new)

/-- The step of the drain that pops a message and applies it (R6 b). -/
def applyMessage (m : Message) (rest : List Message) (s : State) : Host.Outcome State Fault Refusal :=
  exec (decode m) (s.setBus rest)

/-- The observation that the bus is empty: the drain ends (R6 c, 45_render R223). -/
def endDrain (q : Sequencer) (s : State) : State :=
  s.setSeq (Sequencer.settled { phase := .gen, i := 0, len := q.len })

/-- The generation of one sample: clamped, stored at index `i` (R6 d, 45_render R220, R221). -/
def generateSample (q : Sequencer) (s : State) : State :=
  let r := Engine.nextSample num s.config s.engine
  ((s.setEngine r.2).setOut (s.out ++ [clampSample num r.1])).setSeq (Sequencer.settled { q with i := q.i + 1 })

/-- The renderer's next atomic step; between blocks it is idle (10_state R50, 45_render R220). -/
def rendererStep (s : State) : Host.Outcome State Fault Refusal :=
  match s.seq with
  | none => .next s
  | some q =>
    match q.phase with
    | .drain =>
      match Bus.pop s.bus with
      | some (m, rest) => applyMessage m rest s
      | none => .next (endDrain q s)
    | .gen => if q.i < q.len then .next (generateSample q s) else .next (s.setSeq none)

/-- One act of the schedule, the schedule already advanced past it. -/
def takeTurn (t : Turn) (s : State) : Host.Outcome State Fault Refusal :=
  match t with
  | .push m => .next (pushTurn m s)
  | .renderBlock len => renderBlockTurn len s
  | .newEngine sr w f => newEngineTurn sr w f s
  | .newBus => newBusTurn s
  | .renderer => rendererStep s

/-- The bus with `m` as its next message, in place of the one there. -/
def placeMessage (m : Message) (q : List Message) : List Message := m :: q.tail

/-- A block in its drain: as it is, or a drain that begins now. -/
def State.inDrain (s : State) : State :=
  match s.seq with
  | none => s.beginBlock 0
  | some q =>
    match q.phase with
    | .drain => s
    | .gen => s.beginBlock q.len

/-- The renderer moves next. -/
def rendererFirst (ts : List Turn) : List Turn :=
  match ts with
  | [] => []
  | t :: ts => .renderer :: t :: ts

end Sys2Proof.Machine
end

