-- ==== Sys2Proof/Machine/Step.lean ====
section
/-! DEFINITION. One atomic step of the machine, and the placing of a message where the next step fetches it. -/

namespace Sys2Proof.Machine

/-- The next atomic step (00_scope R6): the schedule's next act; with no act scheduled, the renderer's step. -/
def step (s : State) : Host.Outcome State Fault Refusal :=
  match s.turns with
  | [] => rendererStep s
  | t :: ts => takeTurn t (s.setTurns ts)

/-- The state in which the next step pops and applies the given message word (log 18). -/
def State.withFetchWord (s : State) (nbits w : Nat) : State :=
  let t := s.inDrain
  (t.setBus (placeMessage (tableMessage nbits w) t.bus)).setTurns (rendererFirst t.turns)

end Sys2Proof.Machine
end

