-- ==== Sys2Proof/Machine/Serial.lean ====
section
/-! DEFINITION. Samples as bytes (20_memory R65); `Sys2Proof/Decode.lean` holds the bytes of a message. -/

namespace Sys2Proof.Machine

/-- A sample as 4 bytes (20_memory R65). -/
def sampleBytes (x : F32) : List Byte := toLittleEndian 4 (F32.enc x)

/-- The sample whose 4 bytes are given (20_memory R65). -/
def sampleOfBytes (bs : List Byte) : F32 := F32.dec (ofLittleEndian 32 bs)

/-- The written entries of the output buffer as bytes, in ascending order (20_memory R63, R65). -/
def State.outBytes (s : State) : List Byte := s.out.flatMap sampleBytes

end Sys2Proof.Machine
end

