-- ==== Sys2Proof/Safety.lean ====
section
/-! DEFINITION. What the claims are about: the invariants the spec states of the machine, the clamps as relations
between values, and the whole-block reading of `render_block`. -/

namespace Sys2Proof.Machine

/-! ### Clamps on values -/

/-- `y` is `x` clamped to the interval from `lo` to `hi`: the nearer bound outside it, `x` itself inside
(60_exceptions R232). The comparisons are those of the exact values. -/
def ClampedTo (lo hi x y : F32) : Prop :=
  (x.value < lo.value → y = lo) ∧ (hi.value < x.value → y = hi) ∧ (lo.value ≤ x.value → x.value ≤ hi.value → y = x)

/-- `y` is `x` clamped below at `lo` (60_exceptions R232). -/
def ClampedBelow (lo x y : F32) : Prop := (x.value < lo.value → y = lo) ∧ (lo.value ≤ x.value → y = x)

/-- `r` is the exact value `q` rounded to binary32, to nearest with ties to even; a magnitude of
`2^128 - 2^103` or more gives infinity (00_scope R11, 92 D1; log 16). -/
def RoundsTo (q : ℚ) (r : F32) : Prop :=
  (|q| < 2 ^ 128 - 2 ^ 103 →
    r.isFinite = true ∧
    ∀ z : F32, z.isFinite = true →
      |r.value - q| ≤ |z.value - q| ∧ (|z.value - q| = |r.value - q| → z.value = r.value ∨ r.frac % 2 = 0)) ∧
  (2 ^ 128 - 2 ^ 103 ≤ |q| → r = F32.inf (decide (q < 0)))

/-! ### Slots -/

/-- Slot `i` is the first that passes the test. -/
def IsFirstSlot (e : Engine F32) (p : Voice F32 → Bool) (i : Fin 16) : Prop :=
  p e.voices[i] = true ∧ ∀ j : Fin 16, j < i → p e.voices[j] = false

/-! ### Invariants of the engine (10_state, 43_engine R196) -/

/-- No two active slots carry the same note, and none carries `none` (R23, R196 b, c). -/
def NotesDistinct (e : Engine F32) : Prop :=
  (∀ i : Fin 16, e.voices[i].active = true → ∃ n, e.voices[i].note = .id n) ∧
  (∀ i j : Fin 16, e.voices[i].active = true → e.voices[j].active = true →
    e.voices[i].note = e.voices[j].note → i = j)

/-- The ranges of the stored waveform's parameter (10_state R44). -/
def Waveform.InRange (w : Waveform F32) : Prop :=
  match w with
  | .sine => True
  | .square pw => F32.le (num.lit 5 100) pw = true ∧ F32.le pw (num.lit 95 100) = true
  | .sawtooth => True
  | .triangle c => F32.le num.zero c = true

/-- The ranges of the stored filter parameters (10_state R44). -/
def FilterType.InRange (P : Params F32) (sr : F32) (ft : FilterType F32) : Prop :=
  match ft with
  | .onePole fc => F32.le P.cutoffMin fc = true ∧ F32.le fc (cutoffMax num sr) = true
  | .twoPole fc q =>
    F32.le P.cutoffMin fc = true ∧ F32.le fc (cutoffMax num sr) = true ∧ F32.le P.qMin q = true

/-- The global registers are in their ranges (10_state R44, R45; R196 d). -/
def GlobalsInRange (P : Params F32) (e : Engine F32) : Prop :=
  (F32.le num.zero e.masterVolume = true ∧ F32.le e.masterVolume num.one = true) ∧
  F32.le num.zero e.attack = true ∧ F32.le num.zero e.decay = true ∧ F32.le num.zero e.release = true ∧
  (F32.le num.zero e.sustain = true ∧ F32.le e.sustain num.one = true) ∧
  e.waveform.InRange ∧ (∀ ft, e.filterType = some ft → ft.InRange P e.sampleRate)

/-- A voice's filter has the topology and the parameters of a filter type, and their coefficient. -/
def VoiceFilter.Matches (P : Params F32) (sr : F32) (F : VoiceFilter F32) (ft : FilterType F32) : Prop :=
  match F, ft with
  | .onePole f, .onePole fc => f.sampleRate = sr ∧ f.cutoff = fc ∧ f.a = OnePole.coefficient num P fc sr
  | .twoPole f, .twoPole fc q => f.sampleRate = sr ∧ f.cutoff = fc ∧ f.q = q
  | .onePole _, .twoPole _ _ => False
  | .twoPole _, .onePole _ => False

/-- Presence, topology and parameters of a voice's filter are those of the global register (10_state R46). -/
def FilterTracks (P : Params F32) (sr : F32) (F : Option (VoiceFilter F32)) (ft : Option (FilterType F32)) : Prop :=
  match F, ft with
  | none, none => True
  | some F, some ft => F.Matches P sr ft
  | none, some _ => False
  | some _, none => False

/-- Every active voice tracks the globals (10_state R46, R196 e): waveform, filter, and the constants of its
envelope, which are copied at allocation and retrigger and rewritten by every `SetAdsr`. -/
def VoicesTrackGlobals (P : Params F32) (e : Engine F32) : Prop :=
  ∀ i : Fin 16, e.voices[i].active = true →
    e.voices[i].oscillator.waveform = e.waveform ∧
    FilterTracks P e.sampleRate e.voices[i].filter e.filterType ∧
    e.voices[i].envelope.attack = e.attack ∧ e.voices[i].envelope.decay = e.decay ∧
    e.voices[i].envelope.sustain = e.sustain ∧ e.voices[i].envelope.release = e.release ∧
    e.voices[i].envelope.sampleRate = e.sampleRate

/-- The configuration the engine was built under is admissible (70_reset R262). -/
def ConfigAdmissible (s : State) : Prop := admissible num s.config s.engine.sampleRate = true

/-- The invariants of parameters: configuration, ranges, tracking. -/
def ParametersSound (s : State) : Prop :=
  ConfigAdmissible s ∧ GlobalsInRange s.config s.engine ∧ VoicesTrackGlobals s.config s.engine

/-- 10_state R32 b, c for one envelope: a lowered gate means Release or Idle, and Idle means level 0. -/
def Envelope.GateSound (E : Envelope F32) : Prop :=
  (E.gate = false → E.state = .release ∨ E.state = .idle) ∧ (E.state = .idle → E.level = num.zero)

/-- 10_state R32 b, c for every active voice. -/
def GatesSound (e : Engine F32) : Prop := ∀ i : Fin 16, e.voices[i].active = true → e.voices[i].envelope.GateSound

/-! ### Invariants of bus and renderer -/

/-- The bus holds at most its capacity (10_state R48, 20_memory R74). -/
def BusBounded (s : State) : Prop := s.bus.length ≤ busCapacity

/-- The block is within `L_MAX` (00_scope R9), and the sequencer's index and the entries written agree (10_state R50,
20_memory R63). -/
def SequencerSound (s : State) : Prop :=
  match s.seq with
  | none => True
  | some q =>
    (∀ bound, s.config.maxBlock = some bound → q.len ≤ bound) ∧
    match q.phase with
    | .drain => q.i = 0 ∧ s.out = []
    | .gen => q.i < q.len ∧ s.out.length = q.i

/-- Every written sample that is a number lies in [-1, 1] (45_render R222). -/
def OutputInRange (s : State) : Prop :=
  ∀ x ∈ s.out, x.isNaN = true ∨ (F32.le (num.neg num.one) x = true ∧ F32.le x num.one = true)

/-- The invariant of bus, sequencer and output buffer. -/
def RenderSound (s : State) : Prop := BusBounded s ∧ SequencerSound s ∧ OutputInRange s

/-! ### Runs -/

/-- The renderer moves next, by an empty schedule or by a turn at its head; `ts` is the schedule after that turn. -/
def RendererMoves (s : State) (ts : List Turn) : Prop := s.turns = .renderer :: ts ∨ (s.turns = [] ∧ ts = [])

/-- `k` steps, stopping at the first that answers no next state. -/
def steps (k : Nat) (s : State) : Host.Outcome State Fault Refusal :=
  match k with
  | 0 => .next s
  | k + 1 =>
    match step s with
    | .next s' => steps k s'
    | .fault r => .fault r
    | .refused r => .refused r

/-! ### The whole block -/

/-- The drain of 45_render R220 on a queue no producer touches meanwhile: each message applied in order. -/
def drainAll (q : List Message) (s : State) : Host.Outcome State Fault Refusal :=
  match q with
  | [] => .next s
  | m :: rest =>
    match exec (decode m) s with
    | .next s' => drainAll rest s'
    | .fault r => .fault r
    | .refused r => .refused r

/-- Phase GEN of 45_render R220: `len` samples from an engine, each clamped (R221). -/
def generateAll (P : Params F32) (len : Nat) (e : Engine F32) : List F32 × Engine F32 :=
  match len with
  | 0 => ([], e)
  | k + 1 =>
    let r := Engine.nextSample num P e
    let rest := generateAll P k r.2
    (clampSample num r.1 :: rest.1, rest.2)

/-- `k` ticks of an envelope (40_envelope R116). -/
def Envelope.ticks {α : Type} (N : NumOps α) (P : Params α) (k : Nat) (E : Envelope α) : Envelope α :=
  match k with
  | 0 => E
  | k + 1 => (E.nextSample N P).ticks N P k

/-- Level, target and sustain of an envelope lie in [0, 1], under exact arithmetic (10_state R30, R32 a). -/
def Envelope.LevelSound (E : Envelope ℝ) : Prop :=
  (0 ≤ E.level ∧ E.level ≤ 1) ∧ (0 ≤ E.target ∧ E.target ≤ 1) ∧ (0 ≤ E.sustain ∧ E.sustain ≤ 1)

/-- The stages a tick may lead to from each stage (40_envelope R109). -/
def EnvState.tickTo : EnvState → List EnvState
  | .idle => [.idle]
  | .attack => [.attack, .decay, .sustain, .release, .idle]
  | .decay => [.decay, .sustain, .release, .idle]
  | .sustain => [.sustain, .release, .idle]
  | .release => [.release, .idle]

/-- A schedule of pushes and renderer steps alone: no call of the host. -/
def Turn.isLocal : Turn → Bool
  | .push _ => true
  | .renderer => true
  | .renderBlock _ => false
  | .newEngine _ _ _ => false
  | .newBus => false

/-- The number of renderer steps a schedule grants. -/
def rendererTurns (ts : List Turn) : Nat := ts.count .renderer

end Sys2Proof.Machine
end

