-- ==== Sys2Proof/WellFormed.lean ====
section
/-! DEFINITION. The well-formed messages: those of the admitted stream (93_implementation_defined U1), which a
producer can write. The range of a note identity is held by the type of `Note`. -/

namespace Sys2Proof

/-- Every payload slot the form uses holds a number, neither NaN nor an infinity (93 U1, 92 D28). -/
def Instr.payloadsFinite (i : Instr) : Bool := i.payloads.all (fun w => F32.isFinite (F32.dec w))

/-- A well-formed message is not a reserved encoding (30_encoding R89) and its payloads are numbers. -/
def Instr.wellFormed (i : Instr) : Bool := !i.reserved && i.payloadsFinite

end Sys2Proof
end

