-- ==== Sys2Proof/Certificates/Slice0/Obligations.lean ====
section
/-! DEFINITION. The statements for the provers. -/

open Sys2Proof Sys2Proof.Machine

/-! ### Encoding (30_encoding) -/

/-- R91: a message decodes back from its canonical encoding, which has 0 in every unused field; and encoding what a
word decodes to gives the word back exactly when it is canonical and not reserved. -/
def Obligations.EncodedMessagesDecodeBack : Prop :=
  (∀ i : Instr, i.wellFormed = true → ∃ m, encode i = some m ∧ decode m = i ∧ m.canonical = true) ∧
  ∀ m : Message, encode (decode m) = some m ↔ (m.canonical = true ∧ (decode m).reserved = false)

/-- R88: two words that agree in the fields the form of one of them uses decode alike, and a canonical encoding has 0
in every field its form does not use. -/
def Obligations.UnusedFieldsAreIgnored : Prop :=
  (∀ m m' : Message, (m ^^^ m') &&& (decode m).usedBits = 0 → decode m' = decode m) ∧
  ∀ (i : Instr) (m : Message), encode i = some m → m &&& ~~~i.usedBits = 0

/-- The rows of the opcode table partition all header values, and the decoder gives the form of the one row a
header selects (R82, R83, R89). -/
def Obligations.EveryHeaderSelectsOneRow : Prop :=
  ∀ m : Message, (opcodeTable.filter (fun r => r.selects m.header)).map OpcodeRow.mnemonic = [(decode m).mnemonic]

/-- R89: which encodings are reserved; such a word can be pushed and occupies an entry; popped, it is consumed with no
effect, and the drain goes on. -/
def Obligations.ReservedWordsAreConsumed : Prop :=
  (∀ m : Message, (decode m).reserved = true ↔
    (6 ≤ m.op.toNat ∨ (m.op = 4 ∧ 4 ≤ m.sub.toNat) ∨ (m.op = 5 ∧ 3 ≤ m.sub.toNat))) ∧
  (∀ (i : Instr) (s : State), i.reserved = true → exec i s = .next s) ∧
  (∀ (m : Message) (s : State) (ts : List Turn), (decode m).reserved = true → s.turns = .push m :: ts →
    s.bus.length < 2048 →
    step s = .next { s with turns := ts, bus := s.bus ++ [m], pushResult := some 1 }) ∧
  (∀ (m : Message) (rest : List Message) (s : State) (q : Sequencer) (ts : List Turn), (decode m).reserved = true →
    RendererMoves s ts → s.seq = some q → q.phase = .drain → s.bus = m :: rest →
    step s = .next { s with turns := ts, bus := rest })

/-- R93: the worked encodings, decoded and encoded. -/
def Obligations.WorkedEncodingsDecode : Prop :=
  (∀ p ∈ ([(0x0000000000000000000000000000000000000000, .noteOn (.id 0)),
      (0x0000000000000000000000000000000000003C00, .noteOn (.id 60)),
      (0x000000000000000000000000000000000000FF00, .noteOn .none),
      (0x0000000000000000000000000000000000003C01, .noteOff (.id 60)),
      (0x0000000000000000000000003F00000000000002, .setMasterVolume 0x3F000000),
      (0x3E8000003F0000003F0000003F00000000000003, .setAdsr 0x3F000000 0x3F000000 0x3F000000 0x3E800000),
      (0x0000000000000000000000000000000000000004, .setWaveformSine),
      (0x0000000000000000000000003F00000000000014, .setWaveformSquare 0x3F000000),
      (0x0000000000000000000000000000000000000024, .setWaveformSawtooth),
      (0x0000000000000000000000003F80000000000034, .setWaveformTriangle 0x3F800000),
      (0x0000000000000000000000000000000000000005, .setFilterNone),
      (0x000000000000000000000000447A000000000015, .setFilterOnePole 0x447A0000),
      (0x00000000000000003F800000463B800000000025, .setFilterTwoPole 0x463B8000 0x3F800000)] :
        List (Message × Instr)), decode p.1 = p.2 ∧ encode p.2 = some p.1) ∧
  ∀ p0 p1 p2 p3 : Word, decode (p3 ++ p2 ++ p1 ++ p0 ++ 0x00000006#32) = .reservedOp6to7

/-- R84: `NOTE = 255` is `none`, any other value `n` is `id(n)`, and the same 8 bits are the stored form. -/
def Obligations.NoteFieldIsTheIdentity : Prop :=
  Note.ofBits 255 = .none ∧
  (∀ n : Fin 255, Note.ofBits (BitVec.ofNat 8 n.val) = .id n) ∧
  ∀ b : BitVec 8, (Note.ofBits b).toBits = b

/-- R65, R92: a message is 20 bytes, lowest bits first; its bytes decode to what the word decodes to, the bytes after
it are left, and fewer than 20 bytes are refused. -/
def Obligations.SerialisedMessagesDecodeBack : Prop :=
  (∀ (m : Message) (rest : List Byte), m.toBytes.length = 20 ∧
    (∀ k < 20, m.toBytes[k]? = some (m.extractLsb' (8 * k) 8)) ∧
    decodeBytes (m.toBytes ++ rest) = .ok (decode m, rest)) ∧
  ∀ bs : List Byte, bs.length < 20 → decodeBytes bs = .error .truncated

/-- R65: a sample is 4 bytes, lowest bits first, which read back as the sample; the written entries of the output
buffer are those bytes in ascending order. -/
def Obligations.SerialisedSamplesReadBack : Prop :=
  (∀ x : F32, (sampleBytes x).length = 4 ∧
    (∀ k < 4, (sampleBytes x)[k]? = some (BitVec.extractLsb' (8 * k) 8 x)) ∧
    sampleOfBytes (sampleBytes x) = x) ∧
  ∀ (s : State) (i k : ℕ) (x : F32), s.out[i]? = some x → k < 4 → s.outBytes.length = 4 * s.out.length ∧
    s.outBytes[4 * i + k]? = some (BitVec.extractLsb' (8 * k) 8 x)

/-! ### The messages (43_engine) -/

/-- R181, R182, R183: `NoteOn{id(n)}` retriggers the first active slot that carries the note (a fresh envelope with
`ENV.note_on`, the filter history zeroed, the oscillator untouched); else it allocates the first free slot, of whose
contents nothing survives; else it changes nothing. Every other slot and all other state are as before. -/
def Obligations.NoteOnRetriggersAllocatesOrDrops : Prop :=
  ∀ (s : State) (n : Fin 255),
    let e := s.engine
    let started := (Envelope.new num e.attack e.decay e.sustain e.release e.sampleRate).noteOn num
    ∃ t, exec (.noteOn (.id n)) s = .next t ∧
      t = { s with engine := { e with voices := t.engine.voices } } ∧
      (∀ i : Fin 16, IsFirstSlot e (fun v => v.active && v.note == .id n) i →
        t.engine.voices[i] =
          { e.voices[i] with
            envelope := started
            filter := match e.voices[i].filter with
              | none => none
              | some (.onePole f) => some (.onePole { f with y := 0x00000000#32 })
              | some (.twoPole f) => some (.twoPole { f with y1 := 0x00000000#32, y2 := 0x00000000#32 }) } ∧
        ∀ j : Fin 16, j ≠ i → t.engine.voices[j] = e.voices[j]) ∧
      ((∀ i : Fin 16, ¬ (e.voices[i].active = true ∧ e.voices[i].note = .id n)) →
        (∀ i : Fin 16, IsFirstSlot e (fun v => !v.active) i →
          t.engine.voices[i] =
            { active := true
              note := .id n
              envelope := started
              oscillator :=
                { phase := 0x00000000#32
                  phaseIncrement := num.mul (num.div s.config.noteFreq[n] e.sampleRate) (num.twoPi s.config)
                  waveform := e.waveform
                  amplitude := s.config.oscAmp }
              filter := e.filterType.map (fun ft => VoiceFilter.new num s.config ft e.sampleRate) } ∧
          ∀ j : Fin 16, j ≠ i → t.engine.voices[j] = e.voices[j]) ∧
        ((∀ i : Fin 16, e.voices[i].active = true) → t = s))

/-- R180: `NoteOn` and `NoteOff` of the sentinel `none` change nothing. -/
def Obligations.NoteMessagesOfNoneDoNothing : Prop :=
  ∀ s : State, exec (.noteOn .none) s = .next s ∧ exec (.noteOff .none) s = .next s

/-- R184: `NoteOff{id(n)}` gives `ENV.note_off` to every active slot that carries the note, and changes nothing else;
no slot becomes free. -/
def Obligations.NoteOffReleasesEveryCarrier : Prop :=
  ∀ (s : State) (n : Fin 255), ∃ t, exec (.noteOff (.id n)) s = .next t ∧
    t = { s with engine := { s.engine with voices := t.engine.voices } } ∧
    ∀ i : Fin 16, t.engine.voices[i] =
      (if s.engine.voices[i].active = true ∧ s.engine.voices[i].note = .id n then
        { s.engine.voices[i] with envelope := s.engine.voices[i].envelope.noteOff num }
      else s.engine.voices[i])

/-- R190: `SetMasterVolume(v)` stores `v` clamped to [0, 1]; no voice state and nothing else is touched. -/
def Obligations.SetMasterVolumeStoresTheClampedValue : Prop :=
  ∀ (s : State) (v : Word), F32.isFinite v = true → ∃ vol,
    exec (.setMasterVolume v) s = .next { s with engine := { s.engine with masterVolume := vol } } ∧
    ClampedTo 0x00000000#32 0x3F800000#32 v vol

/-- R191: `SetAdsr{a, d, u, r}` stores the four values clamped; every active slot's envelope takes the clamped values
and, if its level is above 0, `ENV.note_on` from that level; nothing else changes. -/
def Obligations.SetAdsrRetunesAndRetriggers : Prop :=
  ∀ (s : State) (a d u r : Word), (∀ w ∈ [a, d, u, r], F32.isFinite w = true) → ∃ a' d' u' r' t,
    exec (.setAdsr a d u r) s = .next t ∧
    ClampedBelow 0x00000000#32 a a' ∧ ClampedBelow 0x00000000#32 d d' ∧
    ClampedTo 0x00000000#32 0x3F800000#32 u u' ∧ ClampedBelow 0x00000000#32 r r' ∧
    t = { s with engine := { s.engine with
      attack := a', decay := d', sustain := u', release := r', voices := t.engine.voices } } ∧
    ∀ i : Fin 16,
      (s.engine.voices[i].active = false → t.engine.voices[i] = s.engine.voices[i]) ∧
      (s.engine.voices[i].active = true →
        let E := { s.engine.voices[i].envelope with attack := a', decay := d', sustain := u', release := r' }
        t.engine.voices[i] = { s.engine.voices[i] with
          envelope := if F32.lt 0x00000000#32 E.level = true then E.noteOn num else E })

/-- R193, R197 to R200: each `SetWaveform` form stores its waveform, the pulse width clamped to [0.05, 0.95] and the
curve below at 0, in the global register and in every active slot's oscillator, and changes nothing else. -/
def Obligations.SetWaveformReachesEveryActiveVoice : Prop :=
  let after : State → Waveform F32 → State → Prop := fun s w t =>
    t = { s with engine := { s.engine with waveform := w, voices := t.engine.voices } } ∧
    ∀ i : Fin 16, t.engine.voices[i] =
      (if s.engine.voices[i].active = true then
        { s.engine.voices[i] with oscillator := { s.engine.voices[i].oscillator with waveform := w } }
      else s.engine.voices[i])
  ∀ s : State,
    (∃ t, exec .setWaveformSine s = .next t ∧ after s .sine t) ∧
    (∀ pw : Word, F32.isFinite pw = true → ∃ pw' t, ClampedTo 0x3D4CCCCD#32 0x3F733333#32 pw pw' ∧
      exec (.setWaveformSquare pw) s = .next t ∧ after s (.square pw') t) ∧
    (∃ t, exec .setWaveformSawtooth s = .next t ∧ after s .sawtooth t) ∧
    (∀ c : Word, F32.isFinite c = true → ∃ c' t, ClampedBelow 0x00000000#32 c c' ∧
      exec (.setWaveformTriangle c) s = .next t ∧ after s (.triangle c') t)

/-- R195, R201 to R203: each `SetFilter` form stores its clamped parameters; every active slot loses its filter, gets a
new one, keeps its history under new coefficients (same topology), or gets a new one in place of the other topology;
nothing else changes. The premise that a live filter carries the engine's sample rate is part of the invariant
`ParametersSound`. -/
def Obligations.SetFilterUpdatesEveryActiveVoice : Prop :=
  let after : State → Option (FilterType F32) → (Option (VoiceFilter F32) → Option (VoiceFilter F32)) → State → Prop :=
    fun s f upd t =>
      t = { s with engine := { s.engine with filterType := f, voices := t.engine.voices } } ∧
      ∀ i : Fin 16, t.engine.voices[i] =
        (if s.engine.voices[i].active = true then
          { s.engine.voices[i] with filter := upd s.engine.voices[i].filter }
        else s.engine.voices[i])
  ∀ s : State, ConfigAdmissible s → VoicesTrackGlobals s.config s.engine →
    let sr := s.engine.sampleRate
    let P := s.config
    (∃ t, exec .setFilterNone s = .next t ∧ after s none (fun _ => none) t) ∧
    (∀ fc : Word, F32.isFinite fc = true → ∃ fc' t,
      ClampedTo P.cutoffMin (F32.mul 0x3EFAE148#32 sr) fc fc' ∧
      exec (.setFilterOnePole fc) s = .next t ∧
      let a := OnePole.coefficient num P fc' sr
      after s (some (.onePole fc')) (fun F => match F with
        | some (.onePole f) => some (.onePole { f with cutoff := fc', a := a })
        | none => some (.onePole { sampleRate := sr, cutoff := fc', a := a, y := 0x00000000#32 })
        | some (.twoPole _) => some (.onePole { sampleRate := sr, cutoff := fc', a := a, y := 0x00000000#32 })) t) ∧
    (∀ fc q : Word, F32.isFinite fc = true → F32.isFinite q = true → ∃ fc' q' t,
      ClampedTo P.cutoffMin (F32.mul 0x3EFAE148#32 sr) fc fc' ∧ ClampedBelow P.qMin q q' ∧
      exec (.setFilterTwoPole fc q) s = .next t ∧
      let fresh := TwoPole.new num P fc' q' sr
      (fresh.cutoff = fc' ∧ fresh.q = q' ∧ fresh.y1 = 0x00000000#32 ∧ fresh.y2 = 0x00000000#32) ∧
      after s (some (.twoPole fc' q')) (fun F => match F with
        | some (.twoPole f) => some (.twoPole { fresh with y1 := f.y1, y2 := f.y2 })
        | none => some (.twoPole fresh)
        | some (.onePole _) => some (.twoPole fresh)) t)

/-- The model's choice (log 7; 93 U1 allows it): a message with a payload that is NaN or infinite changes nothing. -/
def Obligations.NonFinitePayloadsAreIgnored : Prop :=
  ∀ (i : Instr) (s : State), i.payloadsFinite = false → exec i s = .next s

/-- R188, R196 f: no message frees a slot, and only `NoteOn` makes one active. -/
def Obligations.OnlyNoteOnChangesActivity : Prop :=
  ∀ (i : Instr) (s : State), ∃ t, exec i s = .next t ∧
    (∀ k : Fin 16, s.engine.voices[k].active = true → t.engine.voices[k].active = true) ∧
    ((∀ n, i ≠ .noteOn n) → ∀ k : Fin 16, t.engine.voices[k].active = s.engine.voices[k].active)

/-- R183, 95 S5: distinct notes into a free pool take the slots in order, sixteen at most; the others are dropped. -/
def Obligations.DistinctNotesFillTheSlotsInOrder : Prop :=
  ∀ (s : State) (ns : List (Fin 255)), (∀ k : Fin 16, s.engine.voices[k].active = false) → ns.Nodup →
    ∃ t, drainAll (ns.map (fun n => Message.ofFields 0 0 (Note.toBits (.id n)) 0 0 0 0)) s = .next t ∧
      activeCount t.engine = min ns.length 16 ∧
      ∀ (k : Fin 16) (n : Fin 255), ns[k.val]? = some n →
        t.engine.voices[k].active = true ∧ t.engine.voices[k].note = .id n

/-! ### The envelope (40_envelope) -/

/-- R121: for any `a = 0, d = 0`, `note_on()` yields `level == sustain` and `state == Sustain`, in any `NUM`. -/
def Obligations.ZeroAttackAndDecaySustainAtOnce : Prop :=
  ∀ (α : Type) (N : NumOps α) (E : Envelope α), N.le E.attack N.zero = true → N.le E.decay N.zero = true →
    (E.noteOn N).level = E.sustain ∧ (E.noteOn N).state = .sustain ∧ (E.noteOn N).gate = true

/-- R123, R114: a `note_off` on an envelope already in Release changes the gate alone, and a second `note_off` changes
nothing, in any `NUM`. -/
def Obligations.NoteOffIsIdempotent : Prop :=
  ∀ (α : Type) (N : NumOps α) (E : Envelope α),
    (E.state = .release → E.noteOff N = { E with gate := false }) ∧ (E.noteOff N).noteOff N = E.noteOff N

/-- R109: the stages a tick, a `note_on` and a `note_off` lead to; with the gate up a tick reaches Release or Idle from
these stages alone. -/
def Obligations.StagesFollowTheTransitionGraph : Prop :=
  ∀ (α : Type) (N : NumOps α) (P : Params α) (E : Envelope α),
    (E.nextSample N P).state ∈ E.state.tickTo ∧
    (E.gate = true → (E.state = .attack ∨ E.state = .decay ∨ E.state = .sustain) →
      (E.nextSample N P).state ∈ [.attack, .decay, .sustain]) ∧
    (E.noteOn N).state ∈ [.attack, .decay, .sustain] ∧
    ((E.state = .release ∨ E.state = .idle) → (E.noteOff N).state = E.state) ∧
    ((E.state = .attack ∨ E.state = .decay ∨ E.state = .sustain) → (E.noteOff N).state ∈ [.release, .idle])

/-- R117: the hit test, on the values of numbers. -/
def Obligations.HitMeansTargetCrossed : Prop :=
  ∀ E : Envelope F32, E.step.isNaN = false → E.level.isNaN = false → E.target.isNaN = false →
    (Envelope.hit num E = true ↔
      (0 < E.step.value ∧ E.target.value ≤ E.level.value) ∨ (E.step.value < 0 ∧ E.level.value ≤ E.target.value))

/-- R118: a tick whose level falls below `ENV_EPS` in magnitude stores exactly 0 in its place, and else stores the level
it reached; the flush touches nothing but the level. -/
def Obligations.TicksFlushTinyLevels : Prop :=
  ∀ (α : Type) (N : NumOps α) (P : Params α) (E : Envelope α),
    (N.lt (N.abs (E.tick N).level) P.envEps = true → E.nextSample N P = { E.tick N with level := N.zero }) ∧
    (N.lt (N.abs (E.tick N).level) P.envEps = false → E.nextSample N P = E.tick N)

/-- R122, under exact reals: from a fresh envelope with `attack > 0` the level climbs by `1 / (attack * sample_rate)` a
tick and is below 1 until tick `ceil(attack * sample_rate)`, on which it is 1 and Attack is left, for a Decay with the
step of R112 or, at a sustain level of 1, for Sustain. With a zero-length Decay the chaining of R113 goes on to the
sustain level, flushed if tiny, within that tick (log 19). -/
def Obligations.AttackLastsCeilTicks : Prop :=
  ∀ (sin cos : ℝ → ℝ) (pow : ℝ → ℝ → ℝ) (P : Params ℝ) (a d u r sr : ℝ),
    0 < a → 0 < sr → 0 < P.envEps → P.envEps ≤ 1 → P.envEps ≤ 1 / (a * sr) →
    let N := NumOps.exact ℝ sin cos pow
    let E := (Envelope.new N a d u r sr).noteOn N
    let last := E.ticks N P ⌈a * sr⌉₊
    (∀ k < ⌈a * sr⌉₊, (E.ticks N P k).state = .attack ∧ (E.ticks N P k).level = k / (a * sr) ∧
      (E.ticks N P k).level < 1) ∧
    (0 < d → last.level = 1 ∧
      (u ≠ 1 → last.state = .decay ∧ last.target = u ∧ last.step = (u - 1) / (d * sr)) ∧
      (u = 1 → last.state = .sustain)) ∧
    (d ≤ 0 → last.state = .sustain ∧ (P.envEps ≤ |u| → last.level = u) ∧ (|u| < P.envEps → last.level = 0))

/-- R124, R112, R113, R122, under exact reals: a Decay entered from level `l0` with the gate up moves by the constant step
`(sustain - l0) / (decay * sample_rate)`, lasts `ceil(decay * sample_rate)` ticks and ends in Sustain at the sustain
level. R116, R32 d: a tick in Sustain with the gate up re-asserts the sustain level and changes nothing else. A level
below `ENV_EPS` is stored as 0 (R118). -/
def Obligations.DecayIsLinearThenSustainHolds : Prop :=
  ∀ (sin cos : ℝ → ℝ) (pow : ℝ → ℝ → ℝ) (P : Params ℝ) (E : Envelope ℝ), E.gate = true →
    let N := NumOps.exact ℝ sin cos pow
    let slope := (E.sustain - E.level) / (E.decay * E.sampleRate)
    let D := E.enterDecay N
    let last := D.ticks N P ⌈E.decay * E.sampleRate⌉₊
    (0 < E.decay → 0 < E.sampleRate → E.level ≠ E.sustain →
      (∀ k < ⌈E.decay * E.sampleRate⌉₊, 0 < k → P.envEps ≤ |E.level + k * slope|) →
      (∀ k < ⌈E.decay * E.sampleRate⌉₊,
        D.ticks N P k = { E with state := .decay, level := E.level + k * slope, target := E.sustain, step := slope }) ∧
      last.state = .sustain ∧
      (P.envEps ≤ |E.sustain| → last.level = E.sustain) ∧ (|E.sustain| < P.envEps → last.level = 0)) ∧
    (E.state = .sustain →
      (P.envEps ≤ |E.sustain| → E.nextSample N P = { E with level := E.sustain }) ∧
      (|E.sustain| < P.envEps → E.nextSample N P = { E with level := 0 }))

/-- R124, under exact reals: a Release entered from level `l` falls by `l / (release * sample_rate)` a tick. -/
def Obligations.ReleaseIsLinear : Prop :=
  ∀ (sin cos : ℝ → ℝ) (pow : ℝ → ℝ → ℝ) (P : Params ℝ) (E : Envelope ℝ) (k : ℕ),
    (E.state = .attack ∨ E.state = .decay ∨ E.state = .sustain) →
    0 < E.level → 0 < E.release → 0 < E.sampleRate → 0 < P.envEps →
    P.envEps ≤ E.level * (1 - k / (E.release * E.sampleRate)) →
    let N := NumOps.exact ℝ sin cos pow
    let F := (E.noteOff N).ticks N P k
    F.state = .release ∧ F.level = E.level * (1 - k / (E.release * E.sampleRate)) ∧
      F.step = -E.level / (E.release * E.sampleRate)

/-- R32 a, under exact reals: level, target and sustain stay in [0, 1] under every operation of the envelope. -/
def Obligations.ExactLevelsStayInUnit : Prop :=
  ∀ (sin cos : ℝ → ℝ) (pow : ℝ → ℝ → ℝ) (P : Params ℝ) (E : Envelope ℝ), E.LevelSound →
    let N := NumOps.exact ℝ sin cos pow
    (E.nextSample N P).LevelSound ∧ (E.noteOn N).LevelSound ∧ (E.noteOff N).LevelSound ∧
    ∀ a d u r : ℝ, 0 ≤ u → u ≤ 1 → (E.retune a d u r).LevelSound ∧ (Envelope.new N a d u r E.sampleRate).LevelSound

/-! ### The oscillator (41_oscillator) -/

/-- R142, under exact reals: the wrap brings any phase into `[0, TWO_PI)` by whole turns. -/
def Obligations.WrapLandsInRange : Prop :=
  ∀ (sin cos : ℝ → ℝ) (pow : ℝ → ℝ → ℝ) (P : Params ℝ) (p : ℝ), 0 < P.pi →
    let w := wrapPhase (NumOps.exact ℝ sin cos pow) P p
    0 ≤ w ∧ w < 2 * P.pi ∧ (∃ k : ℤ, p = w + k * (2 * P.pi)) ∧ (0 ≤ p → p < 2 * P.pi → w = p)

/-- R144 a, under exact reals: the residual is `-(1 - u)^2` just after the discontinuity, `(1 + u)^2` just before it,
and 0 elsewhere. -/
def Obligations.PolyblepIsTheStepResidual : Prop :=
  ∀ (sin cos : ℝ → ℝ) (pow : ℝ → ℝ → ℝ) (t dt : ℝ), 0 ≤ t → t < 1 → 0 < dt → dt ≤ 1 / 2 →
    let N := NumOps.exact ℝ sin cos pow
    (t < dt → polyblep N t dt = -(1 - t / dt) ^ 2) ∧
    (1 - dt < t → polyblep N t dt = (1 + (t - 1) / dt) ^ 2) ∧
    (dt ≤ t → t ≤ 1 - dt → polyblep N t dt = 0)

/-- R145 to R148, under exact reals: the sine is `sin(phase)`; the square is 1 before the falling edge at the pulse width
and -1 after it, 0 on an edge, and between corrected by the residual; the sawtooth is `2t - 1`, corrected around its
fall; the triangle is `sign(tri) * |tri|^(1 + 2c)`. -/
def Obligations.WaveformsTakeTheirValues : Prop :=
  ∀ (sin cos : ℝ → ℝ) (pow : ℝ → ℝ → ℝ) (P : Params ℝ) (phase inc : ℝ), 0 < P.pi → 0 ≤ phase → phase < 2 * P.pi →
    0 < inc → inc ≤ P.pi →
    let value := fun w => Waveform.sample (NumOps.exact ℝ sin cos pow) P w phase inc
    let t := phase / (2 * P.pi)
    let dt := inc / (2 * P.pi)
    value .sine = sin phase ∧
    (∀ pw,
      (dt ≤ t → t ≤ pw - dt → pw ≤ 1 → value (.square pw) = 1) ∧
      (pw + dt ≤ t → t ≤ 1 - dt → 0 ≤ pw → value (.square pw) = -1) ∧
      (dt ≤ pw → pw ≤ 1 - dt → t = 0 ∨ t = pw → value (.square pw) = 0) ∧
      (2 * dt ≤ pw → pw ≤ 1 - 2 * dt →
        (t < dt → value (.square pw) = 1 - (1 - t / dt) ^ 2) ∧
        (pw - dt < t → t < pw → value (.square pw) = 1 - (1 + (t - pw) / dt) ^ 2) ∧
        (pw ≤ t → t < pw + dt → value (.square pw) = -1 + (1 - (t - pw) / dt) ^ 2) ∧
        (1 - dt < t → value (.square pw) = -1 + (1 + (t - 1) / dt) ^ 2))) ∧
    ((dt ≤ t → t ≤ 1 - dt → value .sawtooth = 2 * t - 1) ∧
      (t < dt → value .sawtooth = 2 * t - 1 + (1 - t / dt) ^ 2) ∧
      (1 - dt < t → value .sawtooth = 2 * t - 1 - (1 + (t - 1) / dt) ^ 2)) ∧
    ∀ c,
      let tri := 1 - 4 * |t - 1 / 2|
      (tri = 0 → value (.triangle c) = 0) ∧
      (0 < tri → value (.triangle c) = pow tri (1 + 2 * c)) ∧
      (tri < 0 → value (.triangle c) = -pow (-tri) (1 + 2 * c))

/-- R140, R141, R143, under exact reals: the `k`-th sample of a new voice is the waveform at the normalised phase
`frac(k * freq / sr)`, times the amplitude; the advance writes the phase alone. -/
def Obligations.OscillatorsRunAtTheNoteFrequency : Prop :=
  ∀ (sin cos : ℝ → ℝ) (pow : ℝ → ℝ → ℝ) (P : Params ℝ) (freq sr : ℝ) (w : Waveform ℝ) (k : ℕ), 0 < P.pi →
    let N := NumOps.exact ℝ sin cos pow
    let O := (Oscillator.advance N P)^[k] (Oscillator.new N P freq sr w)
    let phase := 2 * P.pi * Int.fract (k * (freq / sr))
    let inc := freq / sr * (2 * P.pi)
    O = { phase := phase, phaseIncrement := inc, waveform := w, amplitude := P.oscAmp } ∧
      O.output N P = w.sample N P phase inc * P.oscAmp

/-- R151, under exact reals: sawtooth, triangle, sine, and the square with corrections that do not overlap lie in [-1, 1]. -/
def Obligations.WaveformsStayInUnit : Prop :=
  ∀ (P : Params ℝ) (phase inc : ℝ), 0 < P.pi → 0 ≤ phase → phase < 2 * P.pi → 0 < inc → inc ≤ P.pi →
    let N := NumOps.exact ℝ Real.sin Real.cos (fun x y => x ^ y)
    let dt := inc / (2 * P.pi)
    |Waveform.sample N P .sine phase inc| ≤ 1 ∧
    |Waveform.sample N P .sawtooth phase inc| ≤ 1 ∧
    (∀ c, 0 ≤ c → |Waveform.sample N P (.triangle c) phase inc| ≤ 1) ∧
    (∀ pw, 2 * dt ≤ pw → pw ≤ 1 - 2 * dt → |Waveform.sample N P (.square pw) phase inc| ≤ 1)

/-! ### The filters (42_filter) -/

/-- R169, R161 a, R164 b c, under exact reals: with the parameters clamped, the one-pole coefficient lies in (0, 1), the
two-pole satisfies both stability conditions, and its gain at frequency 0 is 1. -/
def Obligations.ClampedFiltersAreStable : Prop :=
  ∀ (P : Params ℝ) (sr fc q : ℝ), P.pi = Real.pi → 0 < sr → 0 < P.cutoffMin → P.cutoffMin ≤ 49 / 100 * sr → 0 < P.qMin →
    let N := NumOps.exact ℝ Real.sin Real.cos (fun x y => x ^ y)
    let F := OnePole.new N P fc sr
    let G := TwoPole.new N P fc q sr
    (P.cutoffMin ≤ F.cutoff ∧ F.cutoff ≤ 49 / 100 * sr ∧ 0 < F.a ∧ F.a < 1) ∧
    (P.cutoffMin ≤ G.cutoff ∧ G.cutoff ≤ 49 / 100 * sr ∧ P.qMin ≤ G.q ∧ |G.a2| < 1 ∧ |G.a1| < 1 + G.a2 ∧
      G.b0 + G.b1 + G.b2 = 1 + G.a1 + G.a2)

/-- R161, R164, R168, under exact reals: `set_params` stores the clamped parameters and the closed forms of the coefficients
and keeps the history; a new filter has the same coefficients and no history (R160). -/
def Obligations.CoefficientsHaveTheirClosedForms : Prop :=
  ∀ (sin cos : ℝ → ℝ) (pow : ℝ → ℝ → ℝ) (P : Params ℝ) (fc q : ℝ) (F : OnePole ℝ) (G : TwoPole ℝ) (sr : ℝ),
    0 < P.pi → 0 < sr → 0 < P.cutoffMin → P.cutoffMin ≤ 49 / 100 * sr → F.sampleRate = sr → G.sampleRate = sr →
    let N := NumOps.exact ℝ sin cos pow
    let cutoff := max P.cutoffMin (min fc (49 / 100 * sr))
    let Q := max q P.qMin
    let w0 := 2 * P.pi * cutoff / sr
    let alpha := sin w0 / (2 * Q)
    let b := (1 - cos w0) / 2 / (1 + alpha)
    F.setParams N P fc = { F with cutoff := cutoff, a := 2 * P.pi * cutoff / (sr + 2 * P.pi * cutoff) } ∧
    G.setParams N P fc q = { G with
      cutoff := cutoff, q := Q, b0 := b, b1 := 2 * b, b2 := b,
      a1 := -2 * cos w0 / (1 + alpha), a2 := (1 - alpha) / (1 + alpha) } ∧
    OnePole.new N P fc sr = { F.setParams N P fc with y := 0 } ∧
    TwoPole.new N P fc q sr = { G.setParams N P fc q with y1 := 0, y2 := 0 }

/-- R162 b, c, under exact reals: the one-pole impulse response is `a (1 - a)^k`, and the output never exceeds the
larger of the input and the previous output. -/
def Obligations.OnePoleImpulseDecaysGeometrically : Prop :=
  ∀ (sin cos : ℝ → ℝ) (pow : ℝ → ℝ → ℝ) (F : OnePole ℝ),
    let N := NumOps.exact ℝ sin cos pow
    (F.y = 0 → ∀ k : ℕ, ((fun G : OnePole ℝ => G.process N 0)^[k] (F.process N 1)).y = F.a * (1 - F.a) ^ k) ∧
    (0 < F.a → F.a < 1 → ∀ x : ℝ, |(F.process N x).y| ≤ max |F.y| |x|)

/-- R165 c, under exact reals: the transposed form satisfies the second-order difference equation, whatever the history. -/
def Obligations.TwoPoleObeysTheDifferenceEquation : Prop :=
  ∀ (sin cos : ℝ → ℝ) (pow : ℝ → ℝ → ℝ) (F : TwoPole ℝ) (x : ℕ → ℝ),
    let N := NumOps.exact ℝ sin cos pow
    let G : ℕ → TwoPole ℝ := fun n => Nat.rec F (fun k H => H.process N (x k)) n
    let y : ℕ → ℝ := fun n => (G n).output N (x n)
    ∀ n, y (n + 2) = F.b0 * x (n + 2) + F.b1 * x (n + 1) + F.b2 * x n - F.a1 * y (n + 1) - F.a2 * y n

/-! ### Samples and blocks (43_engine, 45_render) -/

/-- R185: at `master_volume == 0` a sample is 0 and no engine state changes, whoever granted the renderer its step. -/
def Obligations.MutedSamplesFreezeTheEngine : Prop :=
  ∀ (s : State) (q : Sequencer) (ts : List Turn), RendererMoves s ts → s.seq = some q → q.phase = .gen → q.i < q.len →
    F32.eq s.engine.masterVolume 0x00000000#32 = true →
    ∃ seq, step s = .next { s with turns := ts, out := s.out ++ [0x00000000#32], seq := seq } ∧
      (q.i + 1 = q.len → seq = none) ∧ (q.i + 1 < q.len → seq = some { q with i := q.i + 1 })

/-- R186, R187: at another volume every active slot's envelope ticks; a level `<= 0` frees the slot, whose oscillator and
filter are then not advanced; else the oscillator sample, which is the waveform's times the amplitude (R141), passes the
optional filter (R162, R165), is multiplied by the level and added
to the sum, in ascending slot order from 0; the sum is multiplied by the volume. -/
def Obligations.SamplesTickEveryActiveVoice : Prop :=
  ∀ (P : Params F32) (e : Engine F32), F32.eq e.masterVolume 0x00000000#32 = false →
    let r := Engine.nextSample num P e
    r.2 = { e with voices := r.2.voices } ∧
    (∀ i : Fin 16,
      let v := e.voices[i]
      let E := v.envelope.nextSample num P
      let O := v.oscillator
      let x := F32.mul (O.waveform.sample num P O.phase O.phaseIncrement) O.amplitude
      r.2.voices[i] =
        if v.active = false then v
        else if F32.le E.level 0x00000000#32 = true then { v with envelope := E, active := false }
        else { v with
          envelope := E
          oscillator := { O with phase := wrapPhase num P (F32.add O.phase O.phaseIncrement) }
          filter := match v.filter with
            | none => none
            | some (.onePole f) => some (.onePole { f with y := F32.add f.y (F32.mul f.a (F32.sub x f.y)) })
            | some (.twoPole f) =>
              let y := F32.add (F32.mul f.b0 x) f.y1
              some (.twoPole { f with
                y1 := F32.add (F32.sub (F32.mul f.b1 x) (F32.mul f.a1 y)) f.y2
                y2 := F32.sub (F32.mul f.b2 x) (F32.mul f.a2 y) }) }) ∧
    ∃ sum : ℕ → F32, sum 0 = 0x00000000#32 ∧
      (∀ i : Fin 16,
        let v := e.voices[i]
        let l := (v.envelope.nextSample num P).level
        let O := v.oscillator
        let x := F32.mul (O.waveform.sample num P O.phase O.phaseIncrement) O.amplitude
        let y := match v.filter with
          | none => x
          | some (.onePole f) => F32.add f.y (F32.mul f.a (F32.sub x f.y))
          | some (.twoPole f) => F32.add (F32.mul f.b0 x) f.y1
        sum (i.val + 1) =
          if v.active = true ∧ F32.le l 0x00000000#32 = false then F32.add (sum i.val) (F32.mul y l) else sum i.val) ∧
      r.1 = F32.mul (sum 16) e.masterVolume

/-- R221, R222, R50: in phase GEN a renderer step, whoever granted it, stores the next sample, clamped to [-1, 1], at the
next index, writes engine, buffer and sequencer alone, and ends the block after the last index. -/
def Obligations.SamplesAreClampedAndStored : Prop :=
  ∀ (s : State) (q : Sequencer) (ts : List Turn), RendererMoves s ts → s.seq = some q → q.phase = .gen → q.i < q.len →
    let r := Engine.nextSample num s.config s.engine
    ∃ y seq, step s = .next { s with turns := ts, engine := r.2, out := s.out ++ [y], seq := seq } ∧
      (r.1.isNaN = false → ClampedTo 0xBF800000#32 0x3F800000#32 r.1 y) ∧ (r.1.isNaN = true → y = r.1) ∧
      (q.i + 1 = q.len → seq = none) ∧ (q.i + 1 < q.len → seq = some { q with i := q.i + 1 })

/-- R6 b, R220: in the drain a step pops the oldest message and applies it, whoever granted the step: `step` is `exec` of
the decoded message on the state with that message removed from the bus. -/
def Obligations.StepAppliesTheDecodedMessage : Prop :=
  ∀ (s : State) (q : Sequencer) (m : Message) (rest : List Message), s.seq = some q → q.phase = .drain →
    s.bus = m :: rest →
    (s.turns = [] → step s = exec (decode m) { s with bus := rest }) ∧
    ∀ ts, s.turns = .renderer :: ts → step s = exec (decode m) { s with bus := rest, turns := ts }

/-- R223, R225: the drain ends at the first observation of an empty bus, in a renderer step of its own, whoever
granted it; a block of length 0 then ends. -/
def Obligations.EmptyBusEndsTheDrain : Prop :=
  ∀ (s : State) (q : Sequencer) (ts : List Turn), RendererMoves s ts → s.seq = some q → q.phase = .drain → s.bus = [] →
    step s = .next { s with turns := ts, seq := if q.len = 0 then none else some { phase := .gen, i := 0, len := q.len } }

/-- R210, R230, R240: a producer's push is one test-and-append: refused exactly when the bus is full, and then nothing
but the result changes; it writes nothing but the bus and its result. -/
def Obligations.PushIsTestAndAppend : Prop :=
  ∀ (s : State) (m : Message) (ts : List Turn), s.turns = .push m :: ts →
    (s.bus.length = 2048 → step s = .next { s with turns := ts, pushResult := some 0 }) ∧
    (s.bus.length ≠ 2048 → step s = .next { s with turns := ts, bus := s.bus ++ [m], pushResult := some 1 })

/-- R213, R70: pushes with no pop between them leave the messages accepted, in order, up to the capacity; the last push's
result says whether it was among them. -/
def Obligations.PushesQueueInOrderUpToCapacity : Prop :=
  ∀ (s : State) (ms : List Message) (m : Message), s.bus.length ≤ 2048 → s.turns = (ms ++ [m]).map Turn.push →
    steps (ms.length + 1) s =
      .next { s with
        turns := []
        bus := (s.bus ++ (ms ++ [m])).take 2048
        pushResult := some (if s.bus.length + ms.length < 2048 then 1 else 0) }

/-- R220: from an idle renderer, the call of `render_block(L)`, `L` within `L_MAX` (R9), and the renderer's own steps
compute the loop of the rule: all queued messages applied in order, then `L` samples, each clamped; and then the renderer
is idle with an empty bus. -/
def Obligations.RenderBlockDrainsThenGenerates : Prop :=
  ∀ (s : State) (len : ℕ), s.seq = none → s.turns = [.renderBlock len] →
    (∀ bound, s.config.maxBlock = some bound → len ≤ bound) →
    ∃ e, drainAll s.bus s = .next { s with engine := e } ∧
      steps (s.bus.length + len + 2) s =
        .next { s with
          engine := (generateAll s.config len e).2
          out := (generateAll s.config len e).1
          bus := []
          seq := none
          turns := [] }

/-- R72, R224: once the drain has ended, what producers push changes neither the samples nor the engine of the block: two
schedules of pushes and renderer steps with equally many renderer steps agree on both. -/
def Obligations.PushesDuringGenerationChangeNoSample : Prop :=
  ∀ s₁ s₂ : State, s₁.config = s₂.config → s₁.engine = s₂.engine → s₁.seq = s₂.seq → s₁.out = s₂.out →
    (∀ q, s₁.seq = some q → q.phase = .gen) →
    (∀ t ∈ s₁.turns, t.isLocal = true) → (∀ t ∈ s₂.turns, t.isLocal = true) →
    rendererTurns s₁.turns = rendererTurns s₂.turns →
    ∃ t₁ t₂, steps s₁.turns.length s₁ = .next t₁ ∧
      steps s₂.turns.length s₂ = .next t₂ ∧
      t₁.config = t₂.config ∧ t₁.engine = t₂.engine ∧ t₁.seq = t₂.seq ∧ t₁.out = t₂.out

/-! ### Construction, refusals, invariants -/

/-- R260, R263: `new` with admissible arguments builds an engine with the given sample rate, the initial values of the
configuration, the arguments clamped and every slot inactive with no note; the bus and all else are as before. -/
def Obligations.NewBuildsAnIdleEngine : Prop :=
  ∀ (s : State) (sr : F32) (w : Waveform F32) (f : Option (FilterType F32)) (ts : List Turn),
    s.turns = .newEngine sr w f :: ts → s.seq = none → admissibleNew num s.config sr w f = true →
    ∃ e, step s = .next { s with turns := ts, engine := e } ∧
      e.sampleRate = sr ∧ e.masterVolume = s.config.initMasterVolume ∧ e.attack = s.config.initAttack ∧
      e.decay = s.config.initDecay ∧ e.sustain = s.config.initSustain ∧ e.release = s.config.initRelease ∧
      (∀ i : Fin 16, e.voices[i].active = false ∧ e.voices[i].note = .none) ∧
      (match w with
        | .sine => e.waveform = .sine
        | .square pw => ∃ pw', ClampedTo 0x3D4CCCCD#32 0x3F733333#32 pw pw' ∧ e.waveform = .square pw'
        | .sawtooth => e.waveform = .sawtooth
        | .triangle c => ∃ c', ClampedBelow 0x00000000#32 c c' ∧ e.waveform = .triangle c') ∧
      (match f with
        | none => e.filterType = none
        | some (.onePole fc) => ∃ fc', ClampedTo s.config.cutoffMin (F32.mul 0x3EFAE148#32 sr) fc fc' ∧
          e.filterType = some (.onePole fc')
        | some (.twoPole fc q) => ∃ fc' q', ClampedTo s.config.cutoffMin (F32.mul 0x3EFAE148#32 sr) fc fc' ∧
          ClampedBelow s.config.qMin q q' ∧ e.filterType = some (.twoPole fc' q'))

/-- R212, R261: the construction of a bus empties the queue and touches nothing else. -/
def Obligations.NewBusIsEmpty : Prop :=
  ∀ (s : State) (ts : List Turn), s.turns = .newBus :: ts → s.seq = none →
    step s = .next { s with turns := ts, bus := [] }

/-- The model's choice (log 13; R9, R226, 93 U2, U7): exactly the acts outside the contract are refused, so no message and no
push ever is. -/
def Obligations.OnlyActsOutsideTheContractAreRefused : Prop :=
  ∀ (s : State) (r : Refusal), step s = .refused r ↔ ∃ t ts, s.turns = t :: ts ∧
    ((r = .overlappingBlock ∧ s.seq ≠ none ∧ ∃ len, t = .renderBlock len) ∨
     (r = .blockTooLong ∧ s.seq = none ∧
       ∃ len bound, t = .renderBlock len ∧ s.config.maxBlock = some bound ∧ bound < len) ∨
     (r = .constructionDuringBlock ∧ s.seq ≠ none ∧ (t = .newBus ∨ ∃ sr w f, t = .newEngine sr w f)) ∨
     (r = .inadmissibleConfiguration ∧ s.seq = none ∧
       ∃ sr w f, t = .newEngine sr w f ∧ admissibleNew num s.config sr w f = false))

/-- R262, R20: no step changes the configuration, and none but the construction of an engine the sample rate. -/
def Obligations.StepsKeepConfigurationAndSampleRate : Prop :=
  ∀ s s' : State, step s = .next s' → s'.config = s.config ∧
    ((∀ sr w f ts, s.turns ≠ .newEngine sr w f :: ts) → s'.engine.sampleRate = s.engine.sampleRate)

/-- R23, R196 a to c: every step keeps that no two active slots carry the same note and that none carries `none`. -/
def Obligations.StepsKeepNotesDistinct : Prop :=
  ∀ s s' : State, NotesDistinct s.engine → step s = .next s' → NotesDistinct s'.engine

/-- R45, R46, R196 d, e: every step keeps the ranges of the global registers and that every active voice tracks them. -/
def Obligations.StepsKeepParametersSound : Prop :=
  ∀ s s' : State, ParametersSound s → step s = .next s' → ParametersSound s'

/-- R32 b, c: every step keeps that in an active voice a lowered gate means Release or Idle, and Idle means level 0. -/
def Obligations.StepsKeepGatesSound : Prop :=
  ∀ s s' : State, GatesSound s.engine → step s = .next s' → GatesSound s'.engine

/-- R48, R50, R63, R222, R9: every step keeps the bus within its capacity, the block within `L_MAX`, the sequencer's index
in step with the entries written, and every written number in [-1, 1]. -/
def Obligations.StepsKeepRenderSound : Prop :=
  ∀ s s' : State, RenderSound s → step s = .next s' → RenderSound s'

/-- The reset state satisfies the four invariants. -/
def Obligations.ResetSatisfiesEveryInvariant : Prop :=
  NotesDistinct State.reset.engine ∧ ParametersSound State.reset ∧ GatesSound State.reset.engine ∧
  RenderSound State.reset

/-- R55 with the defaults of R9: what reset leaves. The sample rate, the waveform and the filter type are the model's
choice (log 3). -/
def Obligations.ResetLeavesTheStatedValues : Prop :=
  let s := State.reset
  (∀ i : Fin 16, s.engine.voices[i].active = false ∧ s.engine.voices[i].note = .none ∧
    s.engine.voices[i].envelope.gate = false) ∧
  s.engine.masterVolume = 0x3F800000#32 ∧ s.engine.attack = 0x00000000#32 ∧ s.engine.decay = 0x00000000#32 ∧
  s.engine.sustain = 0x3F800000#32 ∧ s.engine.release = 0x00000000#32 ∧
  s.engine.sampleRate = 0x472C4400#32 ∧ s.engine.waveform = .sine ∧ s.engine.filterType = none ∧
  s.bus = [] ∧ s.seq = none ∧
  s.config.envEps = 0x2B800000#32 ∧ s.config.cutoffMin = 0x3F800000#32 ∧ s.config.qMin = 0x3DCCCCCD#32 ∧
  s.config.oscAmp = 0x3F800000#32 ∧ s.config.maxBlock = none

/-! ### Numbers (00_scope R11) -/

/-- R11, 92 D1: `+ - * /` of the machine's numbers are the exact results rounded to nearest, ties to even; the bound from
which `RoundsTo` gives an infinity is IEEE 754's (log 16). -/
def Obligations.ArithmeticRoundsToNearestEven : Prop :=
  ∀ x y : F32, x.isFinite = true → y.isFinite = true →
    RoundsTo (x.value + y.value) (num.add x y) ∧ RoundsTo (x.value - y.value) (num.sub x y) ∧
    RoundsTo (x.value * y.value) (num.mul x y) ∧ (y.value ≠ 0 → RoundsTo (x.value / y.value) (num.div x y))
end

