-- ==== Sys2Proof/Laws/Decode.lean ====
section
/-! SUPPORT. The fields of an assembled word, and what decoding answers for given fields. -/

namespace Sys2Proof

namespace Message

theorem op_ofFields (op sub : BitVec 4) (note : BitVec 8) (p0 p1 p2 p3 : Word) :
    (ofFields op sub note p0 p1 p2 p3).op = op := by
  apply BitVec.eq_of_getLsbD_eq
  intro i hi
  simp only [Message.op, ofFields, BitVec.getLsbD_extractLsb', BitVec.getLsbD_append]
  simp [hi, show i < 32 by omega]

theorem sub_ofFields (op sub : BitVec 4) (note : BitVec 8) (p0 p1 p2 p3 : Word) :
    (ofFields op sub note p0 p1 p2 p3).sub = sub := by
  apply BitVec.eq_of_getLsbD_eq
  intro i hi
  simp only [Message.sub, ofFields, BitVec.getLsbD_extractLsb', BitVec.getLsbD_append]
  simp [hi, show 4 + i < 32 by omega]

theorem note_ofFields (op sub : BitVec 4) (note : BitVec 8) (p0 p1 p2 p3 : Word) :
    (ofFields op sub note p0 p1 p2 p3).note = note := by
  apply BitVec.eq_of_getLsbD_eq
  intro i hi
  simp only [Message.note, ofFields, BitVec.getLsbD_extractLsb', BitVec.getLsbD_append]
  simp [hi, show 8 + i < 32 by omega, show ¬ 8 + i < 4 by omega, show ¬ 8 + i - 4 < 4 by omega,
    show 8 + i - 4 - 4 = i by omega]

theorem p0_ofFields (op sub : BitVec 4) (note : BitVec 8) (p0 p1 p2 p3 : Word) :
    (ofFields op sub note p0 p1 p2 p3).p0 = p0 := by
  apply BitVec.eq_of_getLsbD_eq
  intro i hi
  simp only [Message.p0, ofFields, BitVec.getLsbD_extractLsb', BitVec.getLsbD_append]
  simp [hi]

theorem p1_ofFields (op sub : BitVec 4) (note : BitVec 8) (p0 p1 p2 p3 : Word) :
    (ofFields op sub note p0 p1 p2 p3).p1 = p1 := by
  apply BitVec.eq_of_getLsbD_eq
  intro i hi
  simp only [Message.p1, ofFields, BitVec.getLsbD_extractLsb', BitVec.getLsbD_append]
  simp [hi, show ¬ 64 + i < 32 by omega, show ¬ 64 + i - 32 < 32 by omega, show 64 + i - 32 - 32 = i by omega]

theorem p2_ofFields (op sub : BitVec 4) (note : BitVec 8) (p0 p1 p2 p3 : Word) :
    (ofFields op sub note p0 p1 p2 p3).p2 = p2 := by
  apply BitVec.eq_of_getLsbD_eq
  intro i hi
  simp only [Message.p2, ofFields, BitVec.getLsbD_extractLsb', BitVec.getLsbD_append]
  simp [hi, show ¬ 96 + i < 32 by omega, show ¬ 96 + i - 32 < 32 by omega, show ¬ 96 + i - 32 - 32 < 32 by omega,
    show 96 + i - 32 - 32 - 32 = i by omega]

theorem p3_ofFields (op sub : BitVec 4) (note : BitVec 8) (p0 p1 p2 p3 : Word) :
    (ofFields op sub note p0 p1 p2 p3).p3 = p3 := by
  apply BitVec.eq_of_getLsbD_eq
  intro i hi
  simp only [Message.p3, ofFields, BitVec.getLsbD_extractLsb', BitVec.getLsbD_append]
  simp [hi, show ¬ 128 + i < 32 by omega, show ¬ 128 + i - 32 < 32 by omega, show ¬ 128 + i - 32 - 32 < 32 by omega,
    show ¬ 128 + i - 32 - 32 - 32 < 32 by omega, show 128 + i - 32 - 32 - 32 - 32 = i by omega]

/-- The header of an assembled word (30_encoding R80, R81). -/
theorem header_ofFields (op sub : BitVec 4) (note : BitVec 8) (p0 p1 p2 p3 : Word) :
    (ofFields op sub note p0 p1 p2 p3).header = 0#16 ++ note ++ sub ++ op := by
  apply BitVec.eq_of_getLsbD_eq
  intro i hi
  simp only [Message.header, ofFields, BitVec.getLsbD_extractLsb']
  rw [BitVec.getLsbD_append]
  simp [hi]

end Message

@[simp] theorem length_toLittleEndian {w : Nat} (n : Nat) (x : BitVec w) : (toLittleEndian n x).length = n := by
  simp [toLittleEndian]

theorem getElem?_toLittleEndian {w n k : Nat} (x : BitVec w) (h : k < n) :
    (toLittleEndian n x)[k]? = some (x.extractLsb' (8 * k) 8) := by
  simp [toLittleEndian, h]

/-- Assembling the bytes from number `s` on gives the bits from `8 * s` on. -/
theorem ofLittleEndian_bytesFrom {w : Nat} (x : BitVec w) (m s : Nat) :
    ofLittleEndian w ((List.range' s m).map (fun k => x.extractLsb' (8 * k) 8)) =
      BitVec.ofNat w ((x.toNat >>> (8 * s)) % 2 ^ (8 * m)) := by
  induction m generalizing s with
  | zero => simp [ofLittleEndian, Nat.mod_one]
  | succ m ih =>
    have ih := ih (s + 1)
    simp only [ofLittleEndian] at ih
    simp only [ofLittleEndian, List.range'_succ, List.map_cons, List.foldr_cons, ih]
    apply BitVec.eq_of_getLsbD_eq
    intro i hi
    simp only [BitVec.getLsbD_or, BitVec.getLsbD_shiftLeft, BitVec.getLsbD_setWidth, BitVec.getLsbD_extractLsb',
      BitVec.getLsbD_ofNat, Nat.testBit_mod_two_pow, Nat.testBit_shiftRight, hi, decide_true, Bool.true_and]
    by_cases h8 : i < 8
    · simp [h8, BitVec.getLsbD, show i < 8 * (m + 1) by omega]
    · simp only [h8, decide_false, Bool.not_false, Bool.true_and, Bool.false_and, Bool.or_false,
        show i - 8 < w by omega, decide_true, show 8 * (s + 1) + (i - 8) = 8 * s + i by omega]
      congr 1
      simp
      omega

/-- Little-endian bytes read back, when they are enough for the width (20_memory R65). -/
theorem ofLittleEndian_toLittleEndian {w n : Nat} (x : BitVec w) (h : w ≤ 8 * n) :
    ofLittleEndian w (toLittleEndian n x) = x := by
  have hx : x.toNat < 2 ^ (8 * n) := lt_of_lt_of_le x.isLt (Nat.pow_le_pow_right (by norm_num) h)
  rw [toLittleEndian, List.range_eq_range', ofLittleEndian_bytesFrom]
  simp [Nat.mod_eq_of_lt hx]

/-- The stored form of a note reads back (30_encoding R84). -/
theorem Note.ofBits_toBits (n : Note) : Note.ofBits n.toBits = n := by
  cases n with
  | none => rfl
  | id k =>
    have hk : k.val % 256 = k.val := by omega
    simp [Note.toBits, Note.ofBits, BitVec.toNat_ofNat, hk]

end Sys2Proof
end

