-- ==== Sys2Proof/Laws/Envelope.lean ====
section
/-! SUPPORT. The envelope: what a stage entry and each operation can do, and that none touches the constants. -/

namespace Sys2Proof.Machine.Envelope

variable {α : Type}

/-- Everything a stage entry can do: instant completion, or the constant step of R112. -/
theorem enterWith_cases (N : NumOps α) (st : EnvState) (tgt time : α) (done : Envelope α → Envelope α)
    (E : Envelope α) :
    ((N.le time N.zero || N.eq E.level tgt) = true ∧
      enterWith N st tgt time done E =
        done { E with state := st, target := tgt, level := tgt, step := N.zero }) ∨
    ((N.le time N.zero || N.eq E.level tgt) = false ∧
      enterWith N st tgt time done E =
        { E with state := st, target := tgt, step := N.div (N.sub tgt E.level) (N.mul time E.sampleRate) }) := by
  unfold enterWith
  split
  · exact .inl ⟨by assumption, rfl⟩
  · exact .inr ⟨eq_false_of_ne_true (by assumption), rfl⟩

/-- The constants, the sample rate and the gate, which no stage entry or completion writes. -/
def constants (E : Envelope α) : α × α × α × α × α × Bool :=
  (E.attack, E.decay, E.sustain, E.release, E.sampleRate, E.gate)

theorem constants_fields {E F : Envelope α} (h : E.constants = F.constants) :
    E.attack = F.attack ∧ E.decay = F.decay ∧ E.sustain = F.sustain ∧ E.release = F.release ∧
      E.sampleRate = F.sampleRate ∧ E.gate = F.gate := by
  simpa [constants] using h

@[simp] theorem completeRelease_constants (N : NumOps α) (E : Envelope α) :
    (completeRelease N E).constants = E.constants := rfl

theorem enterWith_constants (N : NumOps α) (st : EnvState) (tgt time : α) (done : Envelope α → Envelope α)
    (E : Envelope α) (h : ∀ F : Envelope α, (done F).constants = F.constants) :
    (enterWith N st tgt time done E).constants = E.constants := by
  rcases enterWith_cases N st tgt time done E with ⟨-, h'⟩ | ⟨-, h'⟩ <;> rw [h']
  · rw [h]; rfl
  · rfl

@[simp] theorem enterRelease_constants (N : NumOps α) (E : Envelope α) :
    (enterRelease N E).constants = E.constants :=
  enterWith_constants N _ _ _ _ E (completeRelease_constants N)

@[simp] theorem completeDecay_constants (N : NumOps α) (E : Envelope α) :
    (completeDecay N E).constants = E.constants := by
  unfold completeDecay
  split
  · rfl
  · exact enterRelease_constants N E

@[simp] theorem enterDecay_constants (N : NumOps α) (E : Envelope α) : (enterDecay N E).constants = E.constants :=
  enterWith_constants N _ _ _ _ E (completeDecay_constants N)

@[simp] theorem completeAttack_constants (N : NumOps α) (E : Envelope α) :
    (completeAttack N E).constants = E.constants := by
  unfold completeAttack
  split
  · exact enterDecay_constants N E
  · exact enterRelease_constants N E

@[simp] theorem enterAttack_constants (N : NumOps α) (E : Envelope α) : (enterAttack N E).constants = E.constants :=
  enterWith_constants N _ _ _ _ E (completeAttack_constants N)

@[simp] theorem complete_constants (N : NumOps α) (E : Envelope α) : (complete N E).constants = E.constants := by
  unfold complete
  split <;> simp

theorem noteOn_constants (N : NumOps α) (E : Envelope α) :
    (E.noteOn N).constants = { E with gate := true }.constants := enterAttack_constants N _

theorem noteOff_constants (N : NumOps α) (E : Envelope α) :
    (E.noteOff N).constants = { E with gate := false }.constants := by
  unfold noteOff
  split <;> first | rfl | exact enterRelease_constants N _

@[simp] theorem advance_constants (N : NumOps α) (E : Envelope α) : (advance N E).constants = E.constants := by
  unfold advance
  simp only
  split
  · exact complete_constants N _
  · rfl

@[simp] theorem flush_constants (N : NumOps α) (eps : α) (E : Envelope α) :
    (flush N eps E).constants = E.constants := by
  unfold flush
  split <;> rfl

@[simp] theorem tick_constants (N : NumOps α) (E : Envelope α) : (tick N E).constants = E.constants := by
  unfold tick
  split
  · rfl
  · split
    · rfl
    · exact enterRelease_constants N E
  all_goals exact advance_constants N E

/-- A tick writes no constant and not the gate (R116 e). -/
theorem nextSample_constants (N : NumOps α) (P : Params α) (E : Envelope α) :
    (E.nextSample N P).constants = E.constants := by
  simp [nextSample]

/-- Where a Release entry ends (R112, R113): in Release with the constant step, or in Idle at level 0. -/
theorem enterRelease_cases (N : NumOps α) (E : Envelope α) :
    (enterRelease N E).state = .release ∨
      ((enterRelease N E).state = .idle ∧ (enterRelease N E).level = N.zero) := by
  rcases enterWith_cases N .release N.zero E.release (completeRelease N) E with ⟨-, h⟩ | ⟨-, h⟩ <;>
    rw [enterRelease, h]
  · exact .inr ⟨rfl, rfl⟩
  · exact .inl rfl

/-- With the gate held a Decay entry ends in Decay or in Sustain (R113). -/
theorem enterDecay_gate (N : NumOps α) (E : Envelope α) (hg : E.gate = true) :
    (enterDecay N E).state = .decay ∨ (enterDecay N E).state = .sustain := by
  rcases enterWith_cases N .decay E.sustain E.decay (completeDecay N) E with ⟨-, h⟩ | ⟨-, h⟩ <;>
    rw [enterDecay, h]
  · right; simp [completeDecay, hg]
  · exact .inl rfl

/-- `ENV.note_on` ends in Attack, Decay or Sustain (R111, R113). -/
theorem noteOn_state (N : NumOps α) (E : Envelope α) :
    (E.noteOn N).state = .attack ∨ (E.noteOn N).state = .decay ∨ (E.noteOn N).state = .sustain := by
  rcases enterWith_cases N .attack N.one E.attack (completeAttack N) { E with gate := true } with ⟨-, h⟩ | ⟨-, h⟩ <;>
    rw [noteOn, enterAttack, h]
  · right
    simp only [completeAttack]
    exact enterDecay_gate N _ rfl
  · exact .inl rfl

@[simp] theorem noteOn_gate (N : NumOps α) (E : Envelope α) : (E.noteOn N).gate = true :=
  congrArg (fun c => c.2.2.2.2.2) (noteOn_constants N E)

@[simp] theorem noteOff_gate (N : NumOps α) (E : Envelope α) : (E.noteOff N).gate = false :=
  congrArg (fun c => c.2.2.2.2.2) (noteOff_constants N E)

/-- One tick more, at the end of a run of ticks. -/
theorem ticks_succ_last (N : NumOps α) (P : Params α) (k : Nat) (E : Envelope α) :
    E.ticks N P (k + 1) = (E.ticks N P k).nextSample N P := by
  induction k generalizing E with
  | zero => rfl
  | succ k ih =>
    rw [ticks, ih]
    rfl

/-- The flush under exact reals (R118). -/
theorem flush_exact (sin cos : ℝ → ℝ) (pow : ℝ → ℝ → ℝ) (eps : ℝ) (E : Envelope ℝ) :
    flush (NumOps.exact ℝ sin cos pow) eps E = if |E.level| < eps then { E with level := 0 } else E := by
  have h : (NumOps.exact ℝ sin cos pow).abs E.level = |E.level| := by
    simp only [NumOps.abs, NumOps.exact, NumOps.zero, decide_eq_true_eq, Nat.cast_one, Int.cast_zero, div_one]
    split_ifs with hx
    · rw [abs_of_neg hx]
    · rw [abs_of_nonneg (by linarith)]
  unfold flush
  rw [h]
  simp [NumOps.exact, NumOps.zero]

/-- The advance of a moving stage under exact reals (R116, R117). -/
theorem advance_exact (sin cos : ℝ → ℝ) (pow : ℝ → ℝ → ℝ) (E : Envelope ℝ) :
    advance (NumOps.exact ℝ sin cos pow) E =
      if (0 < E.step ∧ E.target ≤ E.level + E.step) ∨ (E.step < 0 ∧ E.level + E.step ≤ E.target) then
        complete (NumOps.exact ℝ sin cos pow) { E with level := E.target }
      else { E with level := E.level + E.step } := by
  unfold advance hit
  simp [NumOps.exact, NumOps.gt, NumOps.ge, NumOps.zero]

end Sys2Proof.Machine.Envelope

namespace Sys2Proof.Machine

/-- The stage codes differ (10_state R30). -/
theorem EnvState.code_injective (a b : EnvState) (h : a.code = b.code) : a = b := by
  revert h
  cases a <;> cases b <;> decide

end Sys2Proof.Machine
end

