-- ==== Sys2Proof/Laws/State.lean ====
section
/-! SUPPORT. One lemma per field of State per named update. -/

namespace Sys2Proof.Machine.State

@[simp] theorem setEngine_config (s : State) (e : Engine F32) : (s.setEngine e).config = s.config := rfl
@[simp] theorem setEngine_engine (s : State) (e : Engine F32) : (s.setEngine e).engine = e := rfl
@[simp] theorem setEngine_bus (s : State) (e : Engine F32) : (s.setEngine e).bus = s.bus := rfl
@[simp] theorem setEngine_seq (s : State) (e : Engine F32) : (s.setEngine e).seq = s.seq := rfl
@[simp] theorem setEngine_out (s : State) (e : Engine F32) : (s.setEngine e).out = s.out := rfl
@[simp] theorem setEngine_pushResult (s : State) (e : Engine F32) : (s.setEngine e).pushResult = s.pushResult := rfl
@[simp] theorem setEngine_turns (s : State) (e : Engine F32) : (s.setEngine e).turns = s.turns := rfl

@[simp] theorem setBus_config (s : State) (q : List Message) : (s.setBus q).config = s.config := rfl
@[simp] theorem setBus_engine (s : State) (q : List Message) : (s.setBus q).engine = s.engine := rfl
@[simp] theorem setBus_bus (s : State) (q : List Message) : (s.setBus q).bus = q := rfl
@[simp] theorem setBus_seq (s : State) (q : List Message) : (s.setBus q).seq = s.seq := rfl
@[simp] theorem setBus_out (s : State) (q : List Message) : (s.setBus q).out = s.out := rfl
@[simp] theorem setBus_pushResult (s : State) (q : List Message) : (s.setBus q).pushResult = s.pushResult := rfl
@[simp] theorem setBus_turns (s : State) (q : List Message) : (s.setBus q).turns = s.turns := rfl

@[simp] theorem setSeq_config (s : State) (q : Option Sequencer) : (s.setSeq q).config = s.config := rfl
@[simp] theorem setSeq_engine (s : State) (q : Option Sequencer) : (s.setSeq q).engine = s.engine := rfl
@[simp] theorem setSeq_bus (s : State) (q : Option Sequencer) : (s.setSeq q).bus = s.bus := rfl
@[simp] theorem setSeq_seq (s : State) (q : Option Sequencer) : (s.setSeq q).seq = q := rfl
@[simp] theorem setSeq_out (s : State) (q : Option Sequencer) : (s.setSeq q).out = s.out := rfl
@[simp] theorem setSeq_pushResult (s : State) (q : Option Sequencer) : (s.setSeq q).pushResult = s.pushResult := rfl
@[simp] theorem setSeq_turns (s : State) (q : Option Sequencer) : (s.setSeq q).turns = s.turns := rfl

@[simp] theorem setOut_config (s : State) (xs : List F32) : (s.setOut xs).config = s.config := rfl
@[simp] theorem setOut_engine (s : State) (xs : List F32) : (s.setOut xs).engine = s.engine := rfl
@[simp] theorem setOut_bus (s : State) (xs : List F32) : (s.setOut xs).bus = s.bus := rfl
@[simp] theorem setOut_seq (s : State) (xs : List F32) : (s.setOut xs).seq = s.seq := rfl
@[simp] theorem setOut_out (s : State) (xs : List F32) : (s.setOut xs).out = xs := rfl
@[simp] theorem setOut_pushResult (s : State) (xs : List F32) : (s.setOut xs).pushResult = s.pushResult := rfl
@[simp] theorem setOut_turns (s : State) (xs : List F32) : (s.setOut xs).turns = s.turns := rfl

@[simp] theorem setPushResult_config (s : State) (b : Option (BitVec 1)) : (s.setPushResult b).config = s.config := rfl
@[simp] theorem setPushResult_engine (s : State) (b : Option (BitVec 1)) : (s.setPushResult b).engine = s.engine := rfl
@[simp] theorem setPushResult_bus (s : State) (b : Option (BitVec 1)) : (s.setPushResult b).bus = s.bus := rfl
@[simp] theorem setPushResult_seq (s : State) (b : Option (BitVec 1)) : (s.setPushResult b).seq = s.seq := rfl
@[simp] theorem setPushResult_out (s : State) (b : Option (BitVec 1)) : (s.setPushResult b).out = s.out := rfl
@[simp] theorem setPushResult_pushResult (s : State) (b : Option (BitVec 1)) : (s.setPushResult b).pushResult = b := rfl
@[simp] theorem setPushResult_turns (s : State) (b : Option (BitVec 1)) : (s.setPushResult b).turns = s.turns := rfl

@[simp] theorem setTurns_config (s : State) (ts : List Turn) : (s.setTurns ts).config = s.config := rfl
@[simp] theorem setTurns_engine (s : State) (ts : List Turn) : (s.setTurns ts).engine = s.engine := rfl
@[simp] theorem setTurns_bus (s : State) (ts : List Turn) : (s.setTurns ts).bus = s.bus := rfl
@[simp] theorem setTurns_seq (s : State) (ts : List Turn) : (s.setTurns ts).seq = s.seq := rfl
@[simp] theorem setTurns_out (s : State) (ts : List Turn) : (s.setTurns ts).out = s.out := rfl
@[simp] theorem setTurns_pushResult (s : State) (ts : List Turn) : (s.setTurns ts).pushResult = s.pushResult := rfl
@[simp] theorem setTurns_turns (s : State) (ts : List Turn) : (s.setTurns ts).turns = ts := rfl

end Sys2Proof.Machine.State
end

