-- ==== Sys2Proof/Laws/Num.lean ====
section
/-! SUPPORT. The machine's numbers: comparisons are those of the exact values, and what the clamps answer. -/

namespace Sys2Proof

namespace F32

theorem isNaN_eq_false_of_isFinite {x : F32} (h : x.isFinite = true) : x.isNaN = false := by
  simp_all [isFinite, isNaN]

theorem value_lt_value {x y : F32} : x.value < y.value ↔ x.units < y.units := by
  have h : (0 : ℚ) < 2 ^ 149 := by positivity
  rw [value, value, div_lt_div_iff_of_pos_right h, Int.cast_lt]

theorem value_le_value {x y : F32} : x.value ≤ y.value ↔ x.units ≤ y.units := by
  have h : (0 : ℚ) < 2 ^ 149 := by positivity
  rw [value, value, div_le_div_iff_of_pos_right h, Int.cast_le]

/-- `<` is the order of the values, for operands that are no NaN. -/
theorem lt_iff {x y : F32} (hx : x.isNaN = false) (hy : y.isNaN = false) :
    lt x y = true ↔ x.value < y.value := by
  simp [lt, hx, hy, value_lt_value]

/-- `<=` is the order of the values, for operands that are no NaN. -/
theorem le_iff {x y : F32} (hx : x.isNaN = false) (hy : y.isNaN = false) :
    le x y = true ↔ x.value ≤ y.value := by
  simp [le, hx, hy, value_le_value]

theorem lt_false_iff {x y : F32} (hx : x.isNaN = false) (hy : y.isNaN = false) :
    lt x y = false ↔ y.value ≤ x.value := by
  rw [← not_lt, ← lt_iff hx hy, Bool.not_eq_true]

theorem le_false_iff {x y : F32} (hx : x.isNaN = false) (hy : y.isNaN = false) :
    le x y = false ↔ y.value < x.value := by
  rw [← not_le, ← le_iff hx hy, Bool.not_eq_true]

theorem isNaN_left_of_le {x y : F32} (h : le x y = true) : x.isNaN = false := by simp_all [le]

theorem isNaN_right_of_le {x y : F32} (h : le x y = true) : y.isNaN = false := by simp_all [le]

theorem le_refl {x : F32} (h : x.isNaN = false) : le x x = true := by simp [le, h]

theorem lt_eq_false_of_le {x y : F32} (h : le x y = true) : lt y x = false :=
  (lt_false_iff (isNaN_right_of_le h) (isNaN_left_of_le h)).2
    ((le_iff (isNaN_left_of_le h) (isNaN_right_of_le h)).1 h)

theorem le_of_lt_eq_false {x y : F32} (hx : x.isNaN = false) (hy : y.isNaN = false) (h : lt x y = false) :
    le y x = true :=
  (le_iff hy hx).2 ((lt_false_iff hx hy).1 h)

end F32

namespace Machine

theorem num_lt (x y : F32) : num.lt x y = F32.lt x y := rfl
theorem num_le (x y : F32) : num.le x y = F32.le x y := rfl
theorem num_eq (x y : F32) : num.eq x y = F32.eq x y := rfl
theorem num_gt (x y : F32) : num.gt x y = F32.lt y x := rfl
theorem num_ge (x y : F32) : num.ge x y = F32.le y x := rfl
theorem num_isFinite (x : F32) : num.isFinite x = F32.isFinite x := rfl

@[simp] theorem num_zero : num.zero = 0x00000000#32 := by decide
@[simp] theorem num_one : num.one = 0x3F800000#32 := by decide
@[simp] theorem payload_eq (w : Word) : payload w = w := rfl

/-- `clamp` answers the clamp of the values, and stays in the interval. -/
theorem clamp_spec {x lo hi : F32} (hx : x.isNaN = false) (h : F32.le lo hi = true) :
    ClampedTo lo hi x (num.clamp x lo hi) ∧ F32.le lo (num.clamp x lo hi) = true ∧
      F32.le (num.clamp x lo hi) hi = true := by
  have hlo := F32.isNaN_left_of_le h
  have hhi := F32.isNaN_right_of_le h
  have hle := (F32.le_iff hlo hhi).1 h
  unfold NumOps.clamp ClampedTo
  rw [num_lt, num_gt]
  by_cases h1 : F32.lt x lo = true
  · have := (F32.lt_iff hx hlo).1 h1
    rw [if_pos h1]
    exact ⟨⟨fun _ => rfl, fun h => absurd h (by linarith), fun h => absurd h (by linarith)⟩, F32.le_refl hlo, h⟩
  · have h1' := (F32.lt_false_iff hx hlo).1 (by simpa using h1)
    rw [if_neg h1]
    by_cases h2 : F32.lt hi x = true
    · have := (F32.lt_iff hhi hx).1 h2
      rw [if_pos h2]
      exact ⟨⟨fun h => absurd h (by linarith), fun _ => rfl, fun _ h => absurd h (by linarith)⟩, h, F32.le_refl hhi⟩
    · have h2' := (F32.lt_false_iff hhi hx).1 (by simpa using h2)
      rw [if_neg h2]
      exact ⟨⟨fun h => absurd h (by linarith), fun h => absurd h (by linarith), fun _ _ => rfl⟩,
        (F32.le_iff hlo hx).2 h1', (F32.le_iff hx hhi).2 h2'⟩

/-- A value in the interval is its own clamp. -/
theorem clamp_eq_self {x lo hi : F32} (h1 : F32.le lo x = true) (h2 : F32.le x hi = true) :
    num.clamp x lo hi = x := by
  unfold NumOps.clamp
  rw [num_lt, num_gt, F32.lt_eq_false_of_le h1, F32.lt_eq_false_of_le h2]
  rfl

/-- `max` answers the clamp below of the values, and stays above the bound. -/
theorem max_spec {x lo : F32} (hx : x.isNaN = false) (hlo : lo.isNaN = false) :
    ClampedBelow lo x (num.max x lo) ∧ F32.le lo (num.max x lo) = true := by
  unfold NumOps.max ClampedBelow
  rw [num_ge]
  by_cases h : F32.le lo x = true
  · have := (F32.le_iff hlo hx).1 h
    rw [if_pos h]
    exact ⟨⟨fun h => absurd h (by linarith), fun _ => rfl⟩, h⟩
  · have := (F32.le_false_iff hlo hx).1 (by simpa using h)
    rw [if_neg h]
    exact ⟨⟨fun _ => rfl, fun h => absurd h (by linarith)⟩, F32.le_refl hlo⟩

theorem max_eq_self {x lo : F32} (h : F32.le lo x = true) : num.max x lo = x := by
  unfold NumOps.max
  rw [num_ge, if_pos h]

/-- The output clamp keeps a number in [-1, 1] (45_render R222). -/
theorem clampSample_inRange (x : F32) :
    (clampSample num x).isNaN = true ∨
      (F32.le (num.neg num.one) (clampSample num x) = true ∧ F32.le (clampSample num x) num.one = true) := by
  cases hx : x.isNaN with
  | true =>
    left
    have h1 : F32.lt x (num.neg num.one) = false := by simp [F32.lt, hx]
    have h2 : F32.lt num.one x = false := by simp [F32.lt, hx]
    simp only [clampSample, NumOps.clamp, num_lt, num_gt, h1, h2]
    exact hx
  | false =>
    right
    exact (clamp_spec hx (by decide)).2

end Machine

end Sys2Proof
end

