-- ==== Sys2Proof/Laws/Voices.lean ====
section
/-! SUPPORT. The voice file: what the loop over all slots and the first-fit scan answer, and each engine
operation slot by slot. -/

namespace Sys2Proof.Machine

variable {β γ : Type} {n : Nat}

@[simp] theorem getElem_mapSlots (f : β → γ) (v : Vector β n) (i : Fin n) : (mapSlots f v)[i] = f v[i] := by
  simp [mapSlots, Vector.getElem_mk, Fin.getElem_fin]

/-- The scan answers the first slot that passes. -/
theorem findSlot_eq_some (p : β → Bool) (v : Vector β n) (i : Fin n) :
    findSlot p v = some i ↔ p v[i] = true ∧ ∀ j : Fin n, j < i → p v[j] = false := by
  unfold findSlot
  rw [List.find?_eq_some_iff_getElem]
  constructor
  · rintro ⟨hp, k, hk, hget, hmin⟩
    refine ⟨hp, fun j hj => ?_⟩
    have hik : i.val = k := by have := congrArg Fin.val hget; simpa using this.symm
    have := hmin j.val (by omega)
    simpa using this
  · rintro ⟨hp, hmin⟩
    refine ⟨hp, i.val, by simp, by simp, fun j hj => ?_⟩
    have := hmin ⟨j, by omega⟩ hj
    simpa using this

/-- The scan fails when no slot passes. -/
theorem findSlot_eq_none (p : β → Bool) (v : Vector β n) :
    findSlot p v = none ↔ ∀ i : Fin n, p v[i] = false := by
  unfold findSlot
  simp [List.find?_eq_none]

theorem getElem_set_slot (v : Vector β n) (i j : Fin n) (x : β) :
    (v.set i x)[j] = if i = j then x else v[j] := by
  simp [Fin.getElem_fin, Vector.getElem_set, Fin.ext_iff]

namespace Engine

variable {α : Type}

/-- `NoteOn` on a carried note: the first carrier is retriggered, nothing else changes (R181). -/
theorem noteOn_of_carrier (N : NumOps α) (P : Params α) (k : Fin 255) (e : Engine α) (i : Fin 16)
    (h : findSlot (Voice.carries k) e.voices = some i) :
    e.noteOn N P k = { e with voices := e.voices.set i (retrigger N e e.voices[i]) } := by
  simp [noteOn, h]

/-- `NoteOn` on a note no slot carries: the first free slot is allocated (R182). -/
theorem noteOn_of_free (N : NumOps α) (P : Params α) (k : Fin 255) (e : Engine α) (i : Fin 16)
    (h : findSlot (Voice.carries k) e.voices = none) (hf : findSlot Voice.free e.voices = some i) :
    e.noteOn N P k = { e with voices := e.voices.set i (freshVoice N P e k) } := by
  simp [noteOn, h, hf]

/-- `NoteOn` with the pool exhausted: nothing changes (R183). -/
theorem noteOn_of_full (N : NumOps α) (P : Params α) (k : Fin 255) (e : Engine α)
    (h : findSlot (Voice.carries k) e.voices = none) (hf : findSlot Voice.free e.voices = none) :
    e.noteOn N P k = e := by
  simp [noteOn, h, hf]

/-- Everything `NoteOn` can do: one slot is rewritten, with the note carried and active, or nothing. -/
theorem noteOn_cases (N : NumOps α) (P : Params α) (k : Fin 255) (e : Engine α) :
    (∃ i, findSlot (Voice.carries k) e.voices = some i ∧
      e.noteOn N P k = { e with voices := e.voices.set i (retrigger N e e.voices[i]) }) ∨
    (∃ i, findSlot (Voice.carries k) e.voices = none ∧ findSlot Voice.free e.voices = some i ∧
      e.noteOn N P k = { e with voices := e.voices.set i (freshVoice N P e k) }) ∨
    (findSlot (Voice.carries k) e.voices = none ∧ findSlot Voice.free e.voices = none ∧ e.noteOn N P k = e) := by
  cases h : findSlot (Voice.carries k) e.voices with
  | some i => exact .inl ⟨i, rfl, noteOn_of_carrier N P k e i h⟩
  | none =>
    cases hf : findSlot Voice.free e.voices with
    | some i => exact .inr (.inl ⟨i, rfl, rfl, noteOn_of_free N P k e i h hf⟩)
    | none => exact .inr (.inr ⟨rfl, rfl, noteOn_of_full N P k e h hf⟩)

theorem noteOff_slot (N : NumOps α) (k : Fin 255) (e : Engine α) (i : Fin 16) :
    (e.noteOff N k).voices[i] = releaseVoice N k e.voices[i] := getElem_mapSlots _ _ i

theorem setWaveform_slot (N : NumOps α) (w : Waveform α) (e : Engine α) (i : Fin 16) :
    (e.setWaveform N w).voices[i] = waveVoice (w.clamped N) e.voices[i] := getElem_mapSlots _ _ i

theorem setAdsr_slot (N : NumOps α) (a d s r : α) (e : Engine α) (i : Fin 16) :
    (e.setAdsr N a d s r).voices[i] =
      adsrVoice N (N.max a N.zero) (N.max d N.zero) (N.clamp s N.zero N.one) (N.max r N.zero) e.voices[i] :=
  getElem_mapSlots _ _ i

theorem setFilter_slot (N : NumOps α) (P : Params α) (f : Option (FilterType α)) (e : Engine α) (i : Fin 16) :
    (e.setFilter N P f).voices[i] =
      filterVoice N P e.sampleRate (f.map (FilterType.clamped N P e.sampleRate)) e.voices[i] :=
  getElem_mapSlots _ _ i

/-- The engine after a sample at volume 0 (R185). -/
theorem nextSample_of_mute (N : NumOps α) (P : Params α) (e : Engine α) (h : N.eq e.masterVolume N.zero = true) :
    e.nextSample N P = (N.zero, e) := by
  simp [nextSample, h]

/-- A sample at another volume, slot by slot (R186). -/
theorem nextSample_slot (N : NumOps α) (P : Params α) (e : Engine α) (h : N.eq e.masterVolume N.zero = false)
    (i : Fin 16) : (e.nextSample N P).2.voices[i] = (tickVoice N P e.voices[i]).1 := by
  simp only [nextSample, h]
  exact (getElem_mapSlots _ _ i).trans (congrArg Prod.fst (getElem_mapSlots _ _ i))

/-- A sample writes the voices alone. -/
theorem nextSample_frame (N : NumOps α) (P : Params α) (e : Engine α) :
    (e.nextSample N P).2 = { e with voices := (e.nextSample N P).2.voices } := by
  unfold nextSample
  split <;> rfl

end Engine

end Sys2Proof.Machine
end

