-- ==== Sys2Proof/Laws/Exec.lean ====
section
/-! SUPPORT. What a message can do: it always completes, and writes the engine alone. -/

namespace Sys2Proof.Machine

@[simp] theorem applyEngine_eq (s : State) (f : NumOps F32 → Params F32 → Engine F32 → Engine F32) :
    s.applyEngine f = { s with engine := f num s.config s.engine } := rfl

@[simp] theorem absorb_eq (c : ErrorClass) (s : State) : absorb c s = s := rfl

@[simp] theorem onNote_none (f : Fin 255 → NumOps F32 → Params F32 → Engine F32 → Engine F32) (s : State) :
    onNote .none f s = s := rfl

@[simp] theorem onNote_id (n : Fin 255) (f : Fin 255 → NumOps F32 → Params F32 → Engine F32 → Engine F32)
    (s : State) : onNote (.id n) f s = { s with engine := f n num s.config s.engine } := rfl

theorem onPayloads_of_finite {ws : List Word} (h : ∀ w ∈ ws, F32.isFinite w = true)
    (f : NumOps F32 → Params F32 → Engine F32 → Engine F32) (s : State) :
    onPayloads ws f s = { s with engine := f num s.config s.engine } := by
  unfold onPayloads
  rw [if_pos (by simpa using h)]
  rfl

theorem onPayloads_of_not_finite {ws : List Word} {w : Word} (hw : w ∈ ws) (h : F32.isFinite w = false)
    (f : NumOps F32 → Params F32 → Engine F32 → Engine F32) (s : State) : onPayloads ws f s = s := by
  unfold onPayloads
  rw [if_neg]
  · rfl
  · simp only [payload_eq, List.all_eq_true, not_forall]
    exact ⟨w, hw, by simp [h]⟩

/-- The engine after a message form (43_engine R180). -/
def engineAfter (i : Instr) (s : State) : Engine F32 :=
  match exec i s with
  | .next t => t.engine
  | .fault _ => s.engine
  | .refused _ => s.engine

theorem onNote_frame (note : Note) (f : Fin 255 → NumOps F32 → Params F32 → Engine F32 → Engine F32) (s : State) :
    onNote note f s = { s with engine := (onNote note f s).engine } := by
  cases note <;> rfl

theorem onPayloads_frame (ws : List Word) (f : NumOps F32 → Params F32 → Engine F32 → Engine F32) (s : State) :
    onPayloads ws f s = { s with engine := (onPayloads ws f s).engine } := by
  unfold onPayloads
  split <;> rfl

/-- Every message completes, and everything but the engine is as before. -/
theorem exec_eq_next (i : Instr) (s : State) : exec i s = .next { s with engine := engineAfter i s } := by
  cases i
  case noteOn note => exact congrArg Host.Outcome.next (onNote_frame note _ s)
  case noteOff note => exact congrArg Host.Outcome.next (onNote_frame note _ s)
  case setMasterVolume v => exact congrArg Host.Outcome.next (onPayloads_frame _ _ s)
  case setAdsr a d u r => exact congrArg Host.Outcome.next (onPayloads_frame _ _ s)
  case setWaveformSquare pw => exact congrArg Host.Outcome.next (onPayloads_frame _ _ s)
  case setWaveformTriangle c => exact congrArg Host.Outcome.next (onPayloads_frame _ _ s)
  case setFilterOnePole fc => exact congrArg Host.Outcome.next (onPayloads_frame _ _ s)
  case setFilterTwoPole fc q => exact congrArg Host.Outcome.next (onPayloads_frame _ _ s)
  all_goals rfl

/-- What a message does to the engine depends on the parameters and the engine alone. -/
theorem engineAfter_congr (i : Instr) {s t : State} (hc : s.config = t.config) (he : s.engine = t.engine) :
    engineAfter i s = engineAfter i t := by
  cases i
  case noteOn note => cases note <;> simp [engineAfter, exec, execNoteOn, hc, he]
  case noteOff note => cases note <;> simp [engineAfter, exec, execNoteOff, hc, he]
  all_goals
    simp only [engineAfter, exec, execSetMasterVolume, execSetAdsr, execSetWaveformSine, execSetWaveformSquare,
      execSetWaveformSawtooth, execSetWaveformTriangle, execSetFilterNone, execSetFilterOnePole,
      execSetFilterTwoPole, execReservedOp6to7, execReservedOp8to15, execReservedWaveSub4to7,
      execReservedWaveSub8to15, execReservedFilterSub3, execReservedFilterSub4to7, execReservedFilterSub8to15,
      onPayloads, applyEngine_eq, absorb_eq, hc, he]
  all_goals first | rfl | (split <;> simp [he])

end Sys2Proof.Machine
end

