-- ==== Sys2Proof/Laws/Filters.lean ====
section
/-! SUPPORT. The parameter clamps of waveforms and filters, and that each filter operation keeps a voice's filter in
step with the filter type (10_state R46). -/

namespace Sys2Proof.Machine

theorem isNaN_of_num_isFinite {x : F32} (h : num.isFinite x = true) : x.isNaN = false :=
  F32.isNaN_eq_false_of_isFinite h

theorem lit_pulseMin : num.lit 5 100 = 0x3D4CCCCD#32 := by decide +kernel
theorem lit_pulseMax : num.lit 95 100 = 0x3F733333#32 := by decide +kernel

/-- The upper cutoff bound with its constant written out (42_filter R168). -/
theorem cutoffMax_eq (sr : F32) : cutoffMax num sr = F32.mul 0x3EFAE148#32 sr := by
  have h : num.lit 49 100 = 0x3EFAE148#32 := by decide +kernel
  rw [cutoffMax, h]
  rfl

/-- What the filters need of an admissible configuration (70_reset R262). -/
theorem admissible_filter {P : Params F32} {sr : F32} (h : admissible num P sr = true) :
    F32.le P.cutoffMin (cutoffMax num sr) = true ∧ P.qMin.isNaN = false := by
  simp only [admissible, Bool.and_eq_true, positive] at h
  exact ⟨h.2, isNaN_of_num_isFinite h.1.1.1.1.1.1.1.1.2.1⟩

/-- Clamping a clamped cutoff changes nothing. -/
theorem clampCutoff_idem {P : Params F32} {sr fc : F32} (h : admissible num P sr = true) (hf : fc.isNaN = false) :
    clampCutoff num P (clampCutoff num P fc sr) sr = clampCutoff num P fc sr :=
  have hs := clamp_spec hf (admissible_filter h).1
  clamp_eq_self hs.2.1 hs.2.2

/-- Clamping a clamped `q` changes nothing. -/
theorem clampQ_idem {P : Params F32} {q : F32} (hm : P.qMin.isNaN = false) (hq : q.isNaN = false) :
    clampQ num P (clampQ num P q) = clampQ num P q :=
  max_eq_self (max_spec hq hm).2

/-- A clamped waveform is in range (43_engine R193). -/
theorem Waveform.clamped_inRange {w : Waveform F32} (h : w.isFinite num = true) : (w.clamped num).InRange := by
  cases w with
  | sine => trivial
  | square pw => exact (clamp_spec (isNaN_of_num_isFinite h) (by decide +kernel)).2
  | sawtooth => trivial
  | triangle c => exact (max_spec (isNaN_of_num_isFinite h) (by decide)).2

/-- A clamped filter type is in range (42_filter R168, 43_engine R195). -/
theorem FilterType.clamped_inRange {P : Params F32} {sr : F32} {ft : FilterType F32}
    (hA : admissible num P sr = true) (h : ft.isFinite num = true) : (ft.clamped num P sr).InRange P sr := by
  have ⟨hle, hq⟩ := admissible_filter hA
  cases ft with
  | onePole fc => exact (clamp_spec (isNaN_of_num_isFinite h) hle).2
  | twoPole fc q =>
    rw [FilterType.isFinite, Bool.and_eq_true] at h
    have hc := (clamp_spec (isNaN_of_num_isFinite h.1) hle).2
    exact ⟨hc.1, hc.2, (max_spec (isNaN_of_num_isFinite h.2) hq).2⟩

/-- The sample rate a filter was built for. -/
def VoiceFilter.rate (F : VoiceFilter F32) : F32 :=
  match F with
  | .onePole f => f.sampleRate
  | .twoPole f => f.sampleRate

theorem VoiceFilter.Matches.rate_eq {P : Params F32} {sr : F32} {F : VoiceFilter F32} {ft : FilterType F32}
    (h : F.Matches P sr ft) : F.rate = sr := by
  cases F <;> cases ft <;> simp [VoiceFilter.Matches] at h <;> exact h.1

/-- A new filter matches a type in range (R160, R161, R164). -/
theorem VoiceFilter.new_matches {P : Params F32} {sr : F32} {ft : FilterType F32} (h : ft.InRange P sr) :
    (VoiceFilter.new num P ft sr).Matches P sr ft := by
  cases ft with
  | onePole fc =>
    have hc := clamp_eq_self h.1 h.2
    simp [VoiceFilter.new, VoiceFilter.Matches, OnePole.new, OnePole.setParams, clampCutoff, hc]
  | twoPole fc q =>
    have hc := clamp_eq_self h.1 h.2.1
    have hq := max_eq_self h.2.2
    simp [VoiceFilter.new, VoiceFilter.Matches, TwoPole.new, TwoPole.setParams, clampCutoff, clampQ, hc, hq]

/-- A filter updated to a type in range matches it, whatever its topology was (43_engine R195). -/
theorem VoiceFilter.setType_matches {P : Params F32} {sr : F32} {ft : FilterType F32} {F : VoiceFilter F32}
    (h : ft.InRange P sr) (hF : F.rate = sr) : (F.setType num P ft sr).Matches P sr ft := by
  unfold VoiceFilter.setType
  split
  · cases F with
    | onePole f =>
      cases ft with
      | onePole fc =>
        have hc := clamp_eq_self h.1 h.2
        have hs : f.sampleRate = sr := hF
        simp [VoiceFilter.setParams, VoiceFilter.Matches, OnePole.setParams, clampCutoff, hc, hs]
      | twoPole fc q => simp [VoiceFilter.sameTopology] at *
    | twoPole f =>
      cases ft with
      | onePole fc => simp [VoiceFilter.sameTopology] at *
      | twoPole fc q =>
        have hc := clamp_eq_self h.1 h.2.1
        have hq := max_eq_self h.2.2
        have hs : f.sampleRate = sr := hF
        simp [VoiceFilter.setParams, VoiceFilter.Matches, TwoPole.setParams, clampCutoff, clampQ, hc, hq, hs]
  · exact VoiceFilter.new_matches h

/-- A filter reset touches the histories alone (R163, R166). -/
theorem FilterTracks.reset {P : Params F32} {sr : F32} {F : Option (VoiceFilter F32)} {ft : Option (FilterType F32)}
    (h : FilterTracks P sr F ft) : FilterTracks P sr (F.map (VoiceFilter.reset num)) ft := by
  cases F <;> cases ft <;> try exact h
  rename_i F ft
  cases F <;> cases ft <;> exact h

/-- Processing a sample touches the histories alone (R162, R165). -/
theorem FilterTracks.process {P : Params F32} {sr x : F32} {F : Option (VoiceFilter F32)}
    {ft : Option (FilterType F32)} (h : FilterTracks P sr F ft) :
    FilterTracks P sr (F.map (VoiceFilter.process num x)) ft := by
  cases F <;> cases ft <;> try exact h
  rename_i F ft
  cases F <;> cases ft <;> exact h

end Sys2Proof.Machine
end

