-- ==== Sys2Proof/Laws/Float.lean ====
section
/-! SUPPORT. Rounding: the one operation behind `+ - * /` answers the nearest value, ties to even (00_scope R11). -/

namespace Sys2Proof.F32

/-! ### Magnitudes as a function of the low 31 bits -/

/-- The magnitude of the low 31 bits of a pattern, in units. -/
def codeMag (b : Nat) : Nat := if b / 2 ^ 23 = 0 then b else (2 ^ 23 + b % 2 ^ 23) * 2 ^ (b / 2 ^ 23 - 1)

/-- Exponent and significand laid out in bits: the carry into the next exponent is the same value. -/
theorem codeMag_code {e s : Nat} (hs : s ≤ 2 ^ 24) (h : e = 0 ∨ 2 ^ 23 ≤ s) :
    codeMag (e * 2 ^ 23 + s) = s * 2 ^ e := by
  unfold codeMag
  by_cases h1 : s < 2 ^ 23
  · have he : e = 0 := by omega
    subst he
    rw [if_pos (by omega)]
    simp
  · have hd : (e * 2 ^ 23 + s) / 2 ^ 23 = e + s / 2 ^ 23 := by
      rw [Nat.add_comm, Nat.add_mul_div_right _ _ (by positivity), Nat.add_comm]
    have hm : (e * 2 ^ 23 + s) % 2 ^ 23 = s % 2 ^ 23 := by rw [Nat.add_comm, Nat.add_mul_mod_self_right]
    rw [hd, hm, if_neg (by have := Nat.div_pos (show 2 ^ 23 ≤ s by omega) (by positivity); omega)]
    by_cases h2 : s = 2 ^ 24
    · subst h2
      norm_num [Nat.pow_succ]
      ring
    · rw [show s / 2 ^ 23 = 1 by omega, show 2 ^ 23 + s % 2 ^ 23 = s by omega, Nat.add_sub_cancel]

theorem codeMag_lt_succ (b : Nat) : codeMag b < codeMag (b + 1) := by
  obtain ⟨e, s, hb, hs, h⟩ : ∃ e s, b = e * 2 ^ 23 + s ∧ s < 2 ^ 24 ∧ (e = 0 ∨ 2 ^ 23 ≤ s) := by
    by_cases h : b < 2 ^ 23
    · exact ⟨0, b, by simp, by omega, .inl rfl⟩
    · exact ⟨b / 2 ^ 23 - 1, 2 ^ 23 + b % 2 ^ 23, by omega, by omega, .inr (by omega)⟩
  subst hb
  rw [codeMag_code (by omega) h, Nat.add_assoc, codeMag_code (by omega) (by omega)]
  exact Nat.mul_lt_mul_of_pos_right (by omega) (by positivity)

theorem codeMag_strictMono : StrictMono codeMag := strictMono_nat_of_lt_succ codeMag_lt_succ

theorem expo_eq (x : F32) : x.expo = x.toNat % 2 ^ 31 / 2 ^ 23 := by
  simp only [expo, BitVec.extractLsb'_toNat, Nat.shiftRight_eq_div_pow]
  omega

theorem frac_eq (x : F32) : x.frac = x.toNat % 2 ^ 31 % 2 ^ 23 := by
  simp only [frac, BitVec.extractLsb'_toNat, Nat.shiftRight_zero]
  omega

theorem mag_eq (x : F32) : x.mag = codeMag (x.toNat % 2 ^ 31) := by
  unfold mag codeMag
  rw [expo_eq, frac_eq]
  split
  · omega
  · rfl

theorem isFinite_iff (x : F32) : x.isFinite = true ↔ x.toNat % 2 ^ 31 < 0x7F800000 := by
  simp only [isFinite, expo_eq, bne_iff_ne]
  omega

theorem value_eq (x : F32) : x.value = (if x.sign then -1 else 1) * (x.mag : ℚ) / 2 ^ 149 := by
  unfold value units
  split <;> simp

/-! ### A sign bit before 31 bits -/

theorem sign_signed (neg : Bool) (b : Nat) : sign (BitVec.ofBool neg ++ BitVec.ofNat 31 b : F32) = neg := by
  unfold sign
  rw [BitVec.getLsbD_append]
  simp

theorem code_signed (neg : Bool) (b : Nat) (hb : b < 2 ^ 31) :
    (BitVec.ofBool neg ++ BitVec.ofNat 31 b : F32).toNat % 2 ^ 31 = b := by
  rw [BitVec.toNat_append, BitVec.toNat_ofBool, BitVec.toNat_ofNat,
    ← Nat.shiftLeft_add_eq_or_of_lt (Nat.mod_lt _ (by positivity)), Nat.shiftLeft_eq, Nat.mul_comm, Nat.mul_add_mod,
    Nat.mod_mod, Nat.mod_eq_of_lt hb]

/-! ### Rounding a magnitude -/

/-- The choice between the two neighbours `s * 2^e` and `(s + 1) * 2^e`: the nearer one, the even one on a tie. -/
def NearerCode (num den e s up : Nat) : Prop :=
  (up = 0 ∧ 2 * num ≤ (2 * s + 1) * 2 ^ e * den ∧ (2 * num = (2 * s + 1) * 2 ^ e * den → s % 2 = 0)) ∨
  (up = 1 ∧ (2 * s + 1) * 2 ^ e * den ≤ 2 * num ∧ (2 * num = (2 * s + 1) * 2 ^ e * den → s % 2 = 1))

/-- Everything `roundMag` answers: the two neighbours of the magnitude, and the code of the chosen one, at most that of
infinity. -/
theorem roundMag_spec (num den : Nat) (hd : 0 < den) : ∃ e s up, s < 2 ^ 24 ∧ (e = 0 ∨ 2 ^ 23 ≤ s) ∧
    s * 2 ^ e * den ≤ num ∧ num < (s + 1) * 2 ^ e * den ∧
    roundMag num den = min (e * 2 ^ 23 + (s + up)) 0x7F800000 ∧ NearerCode num den e s up := by
  let e := excess num den
  let d := den * 2 ^ e
  have hdp : 0 < d := by positivity
  let s := num / d
  let r := num % d
  have hdm : d * s + r = num := Nat.div_add_mod num d
  have hr : r < d := Nat.mod_lt _ hdp
  have hsd : s = num / den / 2 ^ e := (Nat.div_div_eq_div_mul num den (2 ^ e)).symm
  have hs : s < 2 ^ 24 := by
    rw [hsd, Nat.div_lt_iff_lt_mul (by positivity), ← Nat.pow_add]
    refine Nat.lt_of_lt_of_le Nat.lt_log2_self (Nat.pow_le_pow_right (by omega) ?_)
    show _ ≤ 24 + (Nat.log2 (num / den) - 23)
    omega
  have he : e = 0 ∨ 2 ^ 23 ≤ s := by
    by_cases h : Nat.log2 (num / den) ≤ 23
    · left
      show Nat.log2 (num / den) - 23 = 0
      omega
    · right
      rw [hsd, Nat.le_div_iff_mul_le (by positivity), ← Nat.pow_add]
      have hn : num / den ≠ 0 := by
        intro h0
        simp [h0] at h
      refine Nat.le_trans (Nat.pow_le_pow_right (by omega) ?_) (Nat.log2_self_le hn)
      show 23 + (Nat.log2 (num / den) - 23) ≤ _
      omega
  have e1 : ∀ k, k * 2 ^ e * den = d * k := fun k => by simp only [d]; ring
  refine ⟨e, s, if d < 2 * r ∨ (2 * r = d ∧ s % 2 = 1) then 1 else 0, hs, he, ?_, ?_, rfl, ?_⟩
  · rw [e1]
    omega
  · rw [e1, Nat.mul_add]
    omega
  · rw [NearerCode, e1, Nat.mul_add, Nat.mul_left_comm]
    split
    · rename_i hh
      exact .inr ⟨rfl, by omega, fun h => by rcases hh with hh | hh <;> omega⟩
    · rename_i hh
      rw [not_or, not_and] at hh
      exact .inl ⟨rfl, by omega, fun h => by have := hh.2 (by omega); omega⟩

theorem codeMag_inf : codeMag 0x7F800000 = 2 ^ 24 * 2 ^ 253 := by decide
theorem codeMag_max : codeMag 0x7F7FFFFF = (2 ^ 24 - 1) * 2 ^ 253 := by decide

/-- The chosen code is that of a finite value exactly below the overflow threshold, `2^128 - 2^103`. -/
theorem code_lt_inf_iff {num den e s up : Nat} (hs : s < 2 ^ 24) (he : e = 0 ∨ 2 ^ 23 ≤ s)
    (hlo : s * 2 ^ e * den ≤ num) (hhi : num < (s + 1) * 2 ^ e * den) (hup : NearerCode num den e s up) :
    e * 2 ^ 23 + (s + up) < 0x7F800000 ↔ num < (2 ^ 25 - 1) * 2 ^ 252 * den := by
  have cL := codeMag_code (Nat.le_of_lt hs) he
  have cH := codeMag_code (e := e) (s := s + 1) hs (by omega)
  unfold NearerCode at hup
  rcases Nat.lt_trichotomy (e * 2 ^ 23 + s) 0x7F7FFFFF with h | h | h
  · have h1 : (s + 1) * 2 ^ e ≤ (2 ^ 24 - 1) * 2 ^ 253 := by
      rw [← cH, ← codeMag_max]
      exact codeMag_strictMono.monotone (by omega)
    have h2 : (s + 1) * 2 ^ e * den ≤ (2 ^ 24 - 1) * 2 ^ 253 * den := Nat.mul_le_mul_right _ h1
    have h3 : ((2 ^ 24 - 1) * 2 ^ 253 : Nat) * den ≤ (2 ^ 25 - 1) * 2 ^ 252 * den :=
      Nat.mul_le_mul_right _ (by norm_num)
    constructor <;> intro <;> omega
  · obtain ⟨rfl, rfl⟩ : e = 253 ∧ s = 2 ^ 24 - 1 := by omega
    have h3 : (2 * (2 ^ 24 - 1) + 1) * 2 ^ 253 * den = 2 * ((2 ^ 25 - 1) * 2 ^ 252 * den) := by
      rw [show (2 * (2 ^ 24 - 1) + 1) * 2 ^ 253 = 2 * ((2 ^ 25 - 1) * 2 ^ 252) by norm_num, Nat.mul_assoc]
    rw [h3] at hup
    constructor <;> intro h4 <;> rcases hup with ⟨rfl, h5, h6⟩ | ⟨rfl, h5, h6⟩
    · rcases Nat.lt_or_eq_of_le h5 with h7 | h7
      · omega
      · have := h6 h7
        omega
    all_goals omega
  · have h1 : 2 ^ 24 * 2 ^ 253 ≤ s * 2 ^ e := by
      rw [← cL, ← codeMag_inf]
      exact codeMag_strictMono.monotone (by omega)
    have h2 : 2 ^ 24 * 2 ^ 253 * den ≤ s * 2 ^ e * den := Nat.mul_le_mul_right _ h1
    have h3 : (2 ^ 25 - 1) * 2 ^ 252 * den ≤ 2 ^ 24 * 2 ^ 253 * den := Nat.mul_le_mul_right _ (by norm_num)
    constructor <;> intro <;> omega

/-! ### Rounding a signed value -/

/-- The factor a sign stands for. -/
def signFactor (neg : Bool) : ℚ := if neg then -1 else 1

/-- A finite pattern's value, read with a sign, lies at or below the lower neighbour or at or above the upper one. -/
theorem no_value_between {e s : Nat} (hs : s < 2 ^ 24) (he : e = 0 ∨ 2 ^ 23 ≤ s) (neg : Bool) (z : F32) :
    ∃ w : ℚ, z.value = signFactor neg * w / 2 ^ 149 ∧
      (w ≤ (s : ℚ) * 2 ^ e ∨ ((s : ℚ) + 1) * 2 ^ e ≤ w) := by
  refine ⟨signFactor neg * (signFactor z.sign * (z.mag : ℚ)), ?_, ?_⟩
  · rw [value_eq]
    cases neg <;> cases z.sign <;> simp [signFactor]
  · have hz : (0 : ℚ) ≤ z.mag := by positivity
    have hm : signFactor neg * (signFactor z.sign * (z.mag : ℚ)) ≤ 0 ∨
        signFactor neg * (signFactor z.sign * (z.mag : ℚ)) = (z.mag : ℚ) := by
      cases neg <;> cases z.sign <;> simp [signFactor]
    rcases hm with h | h
    · exact .inl (h.trans (by positivity))
    · rw [h, mag_eq]
      rcases Nat.lt_or_ge (e * 2 ^ 23 + s) (z.toNat % 2 ^ 31) with h1 | h1
      · right
        have := codeMag_strictMono.monotone (show e * 2 ^ 23 + (s + 1) ≤ z.toNat % 2 ^ 31 by omega)
        rw [codeMag_code (by omega) (by omega)] at this
        exact_mod_cast this
      · left
        have := codeMag_strictMono.monotone h1
        rw [codeMag_code (by omega) (by omega)] at this
        exact_mod_cast this

/-- The distance of two values is that of their magnitudes in units. -/
theorem signed_dist (neg : Bool) (a u : ℚ) :
    |signFactor neg * a / 2 ^ 149 - signFactor neg * u / 2 ^ 149| = |a - u| / 2 ^ 149 := by
  rw [← sub_div, ← mul_sub, abs_div, abs_mul]
  cases neg <;> simp [signFactor]

/-- `round` answers the rounded value of `num / den` units with its sign. -/
theorem round_roundsTo (neg : Bool) (num den : Nat) (hd : 0 < den) :
    Machine.RoundsTo (signFactor neg * ((num : ℚ) / den) / 2 ^ 149) (round neg num den) := by
  obtain ⟨e, s, up, hs, he, hlo, hhi, hr, hup⟩ := roundMag_spec num den hd
  have hinf := code_lt_inf_iff hs he hlo hhi hup
  unfold NearerCode at hup
  set u : ℚ := (num : ℚ) / den with hu
  have hu0 : 0 ≤ u := by positivity
  have hdq : (0 : ℚ) < den := by exact_mod_cast hd
  have habs : |signFactor neg * u / 2 ^ 149| = u / 2 ^ 149 := by
    cases neg <;> simp [signFactor, abs_div, abs_of_nonneg hu0]
  have hb : |signFactor neg * u / 2 ^ 149| < 2 ^ 128 - 2 ^ 103 ↔ num < (2 ^ 25 - 1) * 2 ^ 252 * den := by
    rw [habs, div_lt_iff₀ (by positivity), hu, div_lt_iff₀ hdq, ← Nat.cast_lt (α := ℚ)]
    push_cast
    norm_num
  constructor
  · intro hq
    have hfin := hinf.2 (hb.1 hq)
    have hcode : roundMag num den = e * 2 ^ 23 + (s + up) := by
      rw [hr]
      omega
    have hcd := code_signed neg (roundMag num den) (by omega)
    refine ⟨(isFinite_iff _).2 (by unfold round; rw [hcd]; omega), fun z _ => ?_⟩
    have hrv : (round neg num den).value = signFactor neg * (((s + up : ℕ) : ℚ) * 2 ^ e) / 2 ^ 149 := by
      rw [value_eq, mag_eq]
      unfold round
      rw [hcd, sign_signed, hcode, codeMag_code (by omega) (by omega)]
      push_cast
      rfl
    have hfrac : (round neg num den).frac % 2 = (s + up) % 2 := by
      rw [frac_eq]
      unfold round
      rw [hcd, hcode]
      omega
    obtain ⟨w, hzv, hw⟩ := no_value_between hs he neg z
    have hL : (s : ℚ) * 2 ^ e ≤ u := by
      rw [hu, le_div_iff₀ hdq]
      exact_mod_cast hlo
    have hH : u < ((s : ℚ) + 1) * 2 ^ e := by
      rw [hu, div_lt_iff₀ hdq]
      exact_mod_cast hhi
    have htie : 2 * u = (2 * (s : ℚ) + 1) * 2 ^ e → 2 * num = (2 * s + 1) * 2 ^ e * den := by
      intro h
      rw [hu, ← mul_div_assoc, div_eq_iff hdq.ne'] at h
      exact_mod_cast h
    have heq : w = ((s + up : ℕ) : ℚ) * 2 ^ e →
        signFactor neg * w / 2 ^ 149 = signFactor neg * (((s + up : ℕ) : ℚ) * 2 ^ e) / 2 ^ 149 := fun h => by rw [h]
    rw [hrv, hzv, signed_dist, signed_dist, div_le_div_iff_of_pos_right (by positivity),
      div_left_inj' (by positivity)]
    rcases hup with ⟨rfl, h1, h2⟩ | ⟨rfl, h1, h2⟩
    · have hm : 2 * u ≤ (2 * (s : ℚ) + 1) * 2 ^ e := by
        rw [hu, ← mul_div_assoc, div_le_iff₀ hdq]
        exact_mod_cast h1
      simp only [Nat.add_zero] at *
      rw [abs_sub_comm, abs_of_nonneg (by linarith : 0 ≤ u - (s : ℚ) * 2 ^ e)]
      rcases hw with hw | hw
      · rw [abs_sub_comm, abs_of_nonneg (by linarith : 0 ≤ u - w)]
        exact ⟨by linarith, fun h => .inl (heq (by linarith))⟩
      · rw [abs_of_nonneg (by linarith : 0 ≤ w - u)]
        exact ⟨by linarith, fun h => .inr (by rw [hfrac]; exact h2 (htie (by linarith)))⟩
    · have hm : (2 * (s : ℚ) + 1) * 2 ^ e ≤ 2 * u := by
        rw [hu, ← mul_div_assoc, le_div_iff₀ hdq]
        exact_mod_cast h1
      push_cast at *
      rw [abs_of_nonneg (by linarith : 0 ≤ ((s : ℚ) + 1) * 2 ^ e - u)]
      rcases hw with hw | hw
      · rw [abs_sub_comm, abs_of_nonneg (by linarith : 0 ≤ u - w)]
        refine ⟨by linarith, fun h => .inr ?_⟩
        have := h2 (htie (by linarith))
        omega
      · rw [abs_of_nonneg (by linarith : 0 ≤ w - u)]
        exact ⟨by linarith, fun h => .inl (heq (by linarith))⟩
  · intro hq
    have hcode : roundMag num den = 0x7F800000 := by
      have := mt (fun h => hb.2 (hinf.1 h)) (not_lt.2 hq)
      rw [hr]
      omega
    have hpos : 0 < u / 2 ^ 149 := by
      rw [habs] at hq
      exact lt_of_lt_of_le (by norm_num) hq
    have hsign : decide (signFactor neg * u / 2 ^ 149 < 0) = neg := by
      cases neg
      · exact decide_eq_false (by rw [signFactor, if_neg Bool.false_ne_true, one_mul]; linarith)
      · exact decide_eq_true (by rw [signFactor, if_pos rfl, neg_one_mul, neg_div]; linarith)
    rw [hsign, round, hcode]
    rfl

end Sys2Proof.F32
end

