-- ==== Sys2Proof/Laws/PerInstr.lean ====
section
/-! SUPPORT. Statements made per message form: the header a form is encoded with selects the form's row of the
opcode table. -/

namespace Sys2Proof.Laws.HeaderRow

/-- An encoded form's header is selected by a row of the table with the form's mnemonic. -/
def Statement (i : Instr) : Prop :=
  ∀ m, encode i = some m → ∃ r ∈ opcodeTable, r.mnemonic = i.mnemonic ∧ r.selects m.header = true

/-- A header with given `OP` and `SUB` and any note is selected by a row that looks at those fields alone. -/
theorem selects_append (r : OpcodeRow) (note : BitVec 8) (sub op : BitVec 4)
    (hm : r.mask &&& 0xFFFFFF00#32 = 0#32)
    (h : (0#16 ++ 0#8 ++ sub ++ op) &&& r.mask = r.pattern) :
    r.selects (0#16 ++ note ++ sub ++ op) = true := by
  rw [OpcodeRow.selects, beq_iff_eq, ← h]
  apply BitVec.eq_of_getLsbD_eq
  intro i hi
  by_cases h8 : i < 8
  · simp only [BitVec.getLsbD_and, BitVec.getLsbD_append]
    by_cases h4 : i < 4
    · simp [h4]
    · simp [h4, show i - 4 < 4 by omega]
  · have := congrArg (fun v => v.getLsbD i) hm
    have hc : (0xFFFFFF00#32).getLsbD i = true := by
      have : ∀ k : Fin 32, ¬ k.val < 8 → (0xFFFFFF00#32).getLsbD k.val = true := by decide
      exact this ⟨i, hi⟩ h8
    simp only [BitVec.getLsbD_and, hc, Bool.and_true] at this
    rw [BitVec.getLsbD_and, BitVec.getLsbD_and, this]
    simp

theorem noteOn (n : Note) : Statement (.noteOn n) := by
  intro m h
  cases h
  exact ⟨⟨"NoteOn", 0x0, 0xF⟩, by decide, rfl,
    by rw [Message.header_ofFields]; exact selects_append _ _ _ _ (by decide) (by decide)⟩

theorem noteOff (n : Note) : Statement (.noteOff n) := by
  intro m h
  cases h
  exact ⟨⟨"NoteOff", 0x1, 0xF⟩, by decide, rfl,
    by rw [Message.header_ofFields]; exact selects_append _ _ _ _ (by decide) (by decide)⟩

theorem setMasterVolume (v : Word) : Statement (.setMasterVolume v) := by
  intro m h
  cases h
  exact ⟨⟨"SetMasterVolume", 0x2, 0xF⟩, by decide, rfl,
    by rw [Message.header_ofFields]; exact selects_append _ _ _ _ (by decide) (by decide)⟩

theorem setAdsr (a d s r : Word) : Statement (.setAdsr a d s r) := by
  intro m h
  cases h
  exact ⟨⟨"SetAdsr", 0x3, 0xF⟩, by decide, rfl,
    by rw [Message.header_ofFields]; exact selects_append _ _ _ _ (by decide) (by decide)⟩

theorem setWaveformSine : Statement .setWaveformSine := by
  intro m h
  cases h
  exact ⟨⟨"SetWaveform.Sine", 0x4, 0xFF⟩, by decide, rfl, by rw [Message.header_ofFields]; decide⟩

theorem setWaveformSquare (pw : Word) : Statement (.setWaveformSquare pw) := by
  intro m h
  cases h
  exact ⟨⟨"SetWaveform.Square", 0x14, 0xFF⟩, by decide, rfl, by rw [Message.header_ofFields]; decide⟩

theorem setWaveformSawtooth : Statement .setWaveformSawtooth := by
  intro m h
  cases h
  exact ⟨⟨"SetWaveform.Sawtooth", 0x24, 0xFF⟩, by decide, rfl, by rw [Message.header_ofFields]; decide⟩

theorem setWaveformTriangle (c : Word) : Statement (.setWaveformTriangle c) := by
  intro m h
  cases h
  exact ⟨⟨"SetWaveform.Triangle", 0x34, 0xFF⟩, by decide, rfl, by rw [Message.header_ofFields]; decide⟩

theorem setFilterNone : Statement .setFilterNone := by
  intro m h
  cases h
  exact ⟨⟨"SetFilter.none", 0x5, 0xFF⟩, by decide, rfl, by rw [Message.header_ofFields]; decide⟩

theorem setFilterOnePole (fc : Word) : Statement (.setFilterOnePole fc) := by
  intro m h
  cases h
  exact ⟨⟨"SetFilter.OnePoleLpf", 0x15, 0xFF⟩, by decide, rfl, by rw [Message.header_ofFields]; decide⟩

theorem setFilterTwoPole (fc q : Word) : Statement (.setFilterTwoPole fc q) := by
  intro m h
  cases h
  exact ⟨⟨"SetFilter.TwoPoleLpf", 0x25, 0xFF⟩, by decide, rfl, by rw [Message.header_ofFields]; decide⟩

theorem reservedOp6to7 : Statement .reservedOp6to7 := by
  intro m h
  cases h

theorem reservedOp8to15 : Statement .reservedOp8to15 := by
  intro m h
  cases h

theorem reservedWaveSub4to7 : Statement .reservedWaveSub4to7 := by
  intro m h
  cases h

theorem reservedWaveSub8to15 : Statement .reservedWaveSub8to15 := by
  intro m h
  cases h

theorem reservedFilterSub3 : Statement .reservedFilterSub3 := by
  intro m h
  cases h

theorem reservedFilterSub4to7 : Statement .reservedFilterSub4to7 := by
  intro m h
  cases h

theorem reservedFilterSub8to15 : Statement .reservedFilterSub8to15 := by
  intro m h
  cases h

end Sys2Proof.Laws.HeaderRow
end

