-- ==== Sys2Proof/Laws/Step.lean ====
section
/-! SUPPORT. What one step can do, said once. -/

namespace Sys2Proof.Machine

@[simp] theorem Bus.pop_nil : Bus.pop [] = none := rfl
@[simp] theorem Bus.pop_cons (m : Message) (q : List Message) : Bus.pop (m :: q) = some (m, q) := rfl

/-- `BUS.push` on a bus that is not full (R210). -/
theorem Bus.push_of_room {q : List Message} (h : q.length ≠ busCapacity) (m : Message) :
    Bus.push q m = (q ++ [m], true) := by
  simp [Bus.push, busFull, h]

/-- `BUS.push` on a full bus (R210, R230). -/
theorem Bus.push_of_full {q : List Message} (h : q.length = busCapacity) (m : Message) :
    Bus.push q m = (q, false) := by
  simp [Bus.push, busFull, h]

/-- The sequencer after the last sample is gone; before it, it stays (10_state R50). -/
theorem Sequencer.settled_cases (q : Sequencer) :
    (q.len ≤ q.i ∧ q.settled = none) ∨ (q.i < q.len ∧ q.settled = some q) := by
  unfold Sequencer.settled
  split
  · exact .inl ⟨by assumption, rfl⟩
  · exact .inr ⟨by omega, rfl⟩

/-- What `L_MAX` allows (00_scope R9). -/
theorem blockAllowed_iff (P : Params F32) (len : Nat) :
    blockAllowed P len = true ↔ ∀ bound, P.maxBlock = some bound → len ≤ bound := by
  cases h : P.maxBlock <;> simp [blockAllowed, h]

/-- Everything the renderer's step can do: idle, a message applied, the end of the drain, a sample, or the end of
a block with nothing left. -/
theorem rendererStep_cases (s : State) :
    (s.seq = none ∧ rendererStep s = .next s) ∨
    (∃ q m rest, s.seq = some q ∧ q.phase = .drain ∧ s.bus = m :: rest ∧
      rendererStep s = .next { s with bus := rest, engine := engineAfter (decode m) s }) ∨
    (∃ q, s.seq = some q ∧ q.phase = .drain ∧ s.bus = [] ∧ rendererStep s = .next (endDrain q s)) ∨
    (∃ q, s.seq = some q ∧ q.phase = .gen ∧ q.i < q.len ∧ rendererStep s = .next (generateSample q s)) ∨
    (∃ q, s.seq = some q ∧ q.phase = .gen ∧ q.len ≤ q.i ∧ rendererStep s = .next (s.setSeq none)) := by
  unfold rendererStep
  cases hs : s.seq with
  | none => exact .inl ⟨rfl, rfl⟩
  | some q =>
    right
    cases hp : q.phase with
    | drain =>
      cases hb : s.bus with
      | nil => exact .inr (.inl ⟨q, rfl, hp, rfl, by simp [hp]⟩)
      | cons m rest =>
        refine .inl ⟨q, m, rest, rfl, hp, rfl, ?_⟩
        simp only [hp, Bus.pop_cons, applyMessage, exec_eq_next]
        rw [engineAfter_congr (decode m) (s := s.setBus rest) (t := s) rfl rfl]
        simp [State.setBus, hs]
    | gen =>
      right; right
      by_cases hi : q.i < q.len
      · exact .inl ⟨q, rfl, hp, hi, by simp [hp, hi]⟩
      · exact .inr ⟨q, rfl, hp, by omega, by simp [hp, hi]⟩

/-- Everything an act of the schedule can do when it answers a next state. -/
theorem takeTurn_cases {t : Turn} {s s' : State} (h : takeTurn t s = .next s') :
    (∃ m, t = .push m ∧ s' = pushTurn m s) ∨
    (∃ len, t = .renderBlock len ∧ s.seq = none ∧ blockAllowed s.config len = true ∧ s' = s.beginBlock len) ∨
    (∃ sr w f, t = .newEngine sr w f ∧ s.seq = none ∧ admissibleNew num s.config sr w f = true ∧
      s' = s.setEngine (Engine.new num s.config sr w f)) ∨
    (t = .newBus ∧ s.seq = none ∧ s' = s.setBus Bus.new) ∨
    (t = .renderer ∧ rendererStep s = .next s') := by
  cases t with
  | push m => exact .inl ⟨m, rfl, by simpa [takeTurn] using h.symm⟩
  | renderBlock len =>
    simp only [takeTurn, renderBlockTurn] at h
    split at h
    · cases h
    · split at h
      · exact .inr (.inl ⟨len, rfl, by assumption, by assumption, by simpa using h.symm⟩)
      · cases h
  | newEngine sr w f =>
    simp only [takeTurn, newEngineTurn] at h
    split at h
    · cases h
    · split at h
      · exact .inr (.inr (.inl ⟨sr, w, f, rfl, by assumption, by assumption, by simpa using h.symm⟩))
      · cases h
  | newBus =>
    simp only [takeTurn, newBusTurn] at h
    split at h
    · cases h
    · exact .inr (.inr (.inr (.inl ⟨rfl, by assumption, by simpa using h.symm⟩)))
  | renderer => exact .inr (.inr (.inr (.inr ⟨rfl, h⟩)))

/-- One step: with no act scheduled the renderer's, else the schedule's next act. -/
theorem step_of_nil {s : State} (h : s.turns = []) : step s = rendererStep s := by simp [step, h]

theorem step_of_cons {s : State} {t : Turn} {ts : List Turn} (h : s.turns = t :: ts) :
    step s = takeTurn t (s.setTurns ts) := by simp [step, h]

/-- When the renderer moves next, a step is the renderer's, whoever granted it. -/
theorem step_of_rendererMoves {s : State} {ts : List Turn} (h : RendererMoves s ts) :
    step s = rendererStep (s.setTurns ts) := by
  rcases h with h | ⟨h, rfl⟩
  · rw [step_of_cons h, takeTurn]
  · rw [step_of_nil h, State.setTurns, ← h]

@[simp] theorem steps_zero (s : State) : steps 0 s = .next s := rfl

/-- A run after a step that answers a next state. -/
theorem steps_succ (k : Nat) {s s' : State} (h : step s = .next s') : steps (k + 1) s = steps k s' := by
  rw [steps, h]

theorem run_of_next (M : Host.Core) (k : Nat) {s s' : M.State} (h : M.step s = .next s') :
    M.run (k + 1) s = M.run k s' := by rw [Host.Core.run, h]

theorem run_of_fault (M : Host.Core) (k : Nat) {s : M.State} {r : M.Fault} (h : M.step s = .fault r) :
    M.run (k + 1) s = .fault r := by rw [Host.Core.run, h]

theorem run_of_refused (M : Host.Core) (k : Nat) {s : M.State} {r : M.Refusal} (h : M.step s = .refused r) :
    M.run (k + 1) s = .refused r := by rw [Host.Core.run, h]

/-- The runs are the host's runs of the machine. -/
theorem steps_eq_run (k : Nat) (s : State) : steps k s = Host.Core.run Sys2Proof.core k s := by
  induction k generalizing s with
  | zero => rfl
  | succ k ih =>
    cases h : step s with
    | next s' => exact (steps_succ k h).trans ((ih s').trans (run_of_next Sys2Proof.core k h).symm)
    | fault r => exact (by rw [steps, h] : steps (k + 1) s = .fault r).trans (run_of_fault Sys2Proof.core k h).symm
    | refused r =>
      exact (by rw [steps, h] : steps (k + 1) s = .refused r).trans (run_of_refused Sys2Proof.core k h).symm

/-- A drain of a queue completes and writes the engine alone, by what configuration and engine were before. -/
theorem drainAll_congr (q : List Message) {s t : State} (hc : s.config = t.config) (he : s.engine = t.engine) :
    ∃ e, drainAll q s = .next { s with engine := e } ∧ drainAll q t = .next { t with engine := e } := by
  induction q generalizing s t with
  | nil => exact ⟨s.engine, rfl, by rw [he]; rfl⟩
  | cons m q ih =>
    rw [drainAll, drainAll, exec_eq_next, exec_eq_next]
    exact ih (s := { s with engine := engineAfter (decode m) s }) (t := { t with engine := engineAfter (decode m) t })
      hc (engineAfter_congr (decode m) hc he)

end Sys2Proof.Machine
end

