-- ==== Sys2Proof/Tests/Slice0.lean ====
section
/-! SUPPORT. Tests on fixed values, taken from the spec's worked encodings and vectors (30_encoding R93, 95), and a
witness for the hypotheses of every statement that has some. -/

namespace Sys2Proof.Tests

open Sys2Proof Sys2Proof.Machine

-- One declaration at a time: kernel evaluations that wait for each other would hold a thread each.
set_option Elab.async false

/-! ### Helpers -/

/-- A message word written as in 95: `H P0 P1 P2 P3`. -/
def word (h p0 p1 p2 p3 : Word) : Message := p3 ++ p2 ++ p1 ++ p0 ++ h

/-- The state after `new(sr, w, f)`, before any message. -/
def start (sr : F32) (w : Waveform F32) (f : Option (FilterType F32)) : State :=
  State.reset.setEngine (Engine.new num State.reset.config sr w f)

/-- The state after `new(8, Sawtooth, none)`, of the vectors MV1 to MV12. -/
def start8 : State := start 0x41000000#32 .sawtooth none

/-- The state a message leaves. -/
def after (i : Instr) (s : State) : State := s.setEngine (engineAfter i s)

/-- `start8` with note 0 sounding in slot 0. -/
def sounding : State := after (.noteOn (.id 0)) start8

/-- `start8` with every slot active, slot `k` carrying note `k`. -/
def full : State :=
  start8.setEngine { start8.engine with
    voices := ⟨⟨(List.range 16).map (fun k =>
      { Voice.unused num with active := true, note := .id (Fin.ofNat 255 k) })⟩, (List.length_map _).trans List.length_range⟩ }

/-- State, level, gate, target and step of an envelope, as 95 writes them. -/
def shape (E : Envelope F32) : EnvState × F32 × Bool × F32 × F32 := (E.state, E.level, E.gate, E.target, E.step)

/-- A fresh envelope at sample rate 8. -/
def env8 (a d s r : F32) : Envelope F32 := Envelope.new num a d s r 0x41000000#32

/-- Exact arithmetic on the rationals, the transcendental functions left as the identity. -/
def exactQ : NumOps ℚ := NumOps.exact ℚ id id (fun x _ => x)

/-- A state in phase GEN at index `i` of a block of length `len`. -/
def genAt (i len : Nat) (s : State) : State := s.setSeq (some { phase := .gen, i := i, len := len })

/-- A state in the drain of a block of length `len`. -/
def drainAt (len : Nat) (s : State) : State := s.setSeq (some { phase := .drain, i := 0, len := len })

/-- The state after reset with `L_MAX` 4. -/
def bounded : State := { State.reset with config := { State.reset.config with maxBlock := some 4 } }

/-! ### WellFormed: each check refuses a term -/

theorem test_wellFormed_accepts : (Instr.setMasterVolume 0xC0400000#32).wellFormed = true := by decide
theorem test_wellFormed_refuses_nan : (Instr.setMasterVolume 0x7FC00000#32).wellFormed = false := by decide
theorem test_wellFormed_refuses_infinity :
    (Instr.setFilterTwoPole 0x3F800000#32 0xFF800000#32).wellFormed = false := by decide
theorem test_wellFormed_refuses_reserved : Instr.reservedOp6to7.wellFormed = false := by decide
/-- A note identity above 254 is no term: 255 is the sentinel (R84). -/
theorem test_note_255_is_none : Note.ofBits 255 = .none ∧ Note.ofBits 254 = .id 254 := by decide

/-! ### Decoding: words written out from R81 to R89 and 95 section 2.1 -/

theorem test_decode_noteOn : decode (word 0x00003C00 0 0 0 0) = .noteOn (.id 60) := by decide
theorem test_decode_noteOn_ignores_rsv : decode (word 0xABCD3C00 0 0 0 0) = .noteOn (.id 60) := by decide
theorem test_decode_noteOn_ignores_sub_and_slots :
    decode (word 0x00003CF0 0x7FC00000 0x7FC00000 0x7FC00000 0x7FC00000) = .noteOn (.id 60) := by decide
theorem test_decode_noteOn_none : decode (word 0x0000FF00 0 0 0 0) = .noteOn .none := by decide
theorem test_decode_noteOff : decode (word 0x0000FE01 0 0 0 0) = .noteOff (.id 254) := by decide
theorem test_decode_setMasterVolume :
    decode (word 0x00000002 0xC0400000 0 0 0) = .setMasterVolume 0xC0400000 := by decide
theorem test_decode_setMasterVolume_ignores_sub :
    decode (word 0x00000012 0x3F000000 0 0 0) = .setMasterVolume 0x3F000000 := by decide
theorem test_decode_setAdsr : decode (word 0x00000003 0xBF800000 0x3E800000 0x3FC00000 0x3E800000) =
    .setAdsr 0xBF800000 0x3E800000 0x3FC00000 0x3E800000 := by decide
theorem test_decode_setWaveformSine : decode (word 0x00000004 0 0 0 0) = .setWaveformSine := by decide
theorem test_decode_setWaveformSquare :
    decode (word 0x00000014 0x3F000000 0 0 0) = .setWaveformSquare 0x3F000000 := by decide
theorem test_decode_setWaveformSawtooth : decode (word 0x00000024 0 0 0 0) = .setWaveformSawtooth := by decide
theorem test_decode_setWaveformTriangle :
    decode (word 0x00000034 0 0x3F800000 0 0) = .setWaveformTriangle 0 := by decide
theorem test_decode_setFilterNone : decode (word 0x00000005 0 0 0 0) = .setFilterNone := by decide
theorem test_decode_setFilterOnePole :
    decode (word 0x00000015 0x447A0000 0 0 0) = .setFilterOnePole 0x447A0000 := by decide
theorem test_decode_setFilterTwoPole : decode (word 0x00000025 0x463B8000 0x3F000000 0 0) =
    .setFilterTwoPole 0x463B8000 0x3F000000 := by decide
theorem test_decode_reservedOp6to7 : decode (word 0x00000006 0 0 0 0) = .reservedOp6to7 ∧
    decode (word 0x00000007 0 0 0 0) = .reservedOp6to7 := by decide
theorem test_decode_reservedOp8to15 : decode (word 0x00000008 0 0 0 0) = .reservedOp8to15 ∧
    decode (word 0xFFFFFFFF 0xFFFFFFFF 0xFFFFFFFF 0xFFFFFFFF 0xFFFFFFFF) = .reservedOp8to15 := by decide
theorem test_decode_reservedWaveSub4to7 : decode (word 0x00000044 0 0 0 0) = .reservedWaveSub4to7 ∧
    decode (word 0x00000074 0 0 0 0) = .reservedWaveSub4to7 := by decide
theorem test_decode_reservedWaveSub8to15 : decode (word 0x00000084 0 0 0 0) = .reservedWaveSub8to15 ∧
    decode (word 0x000000F4 0 0 0 0) = .reservedWaveSub8to15 := by decide
theorem test_decode_reservedFilterSub3 : decode (word 0x00000035 0 0 0 0) = .reservedFilterSub3 := by decide
theorem test_decode_reservedFilterSub4to7 : decode (word 0x00000045 0 0 0 0) = .reservedFilterSub4to7 ∧
    decode (word 0x00000075 0 0 0 0) = .reservedFilterSub4to7 := by decide
theorem test_decode_reservedFilterSub8to15 : decode (word 0x00000085 0 0 0 0) = .reservedFilterSub8to15 ∧
    decode (word 0x000000F5 0 0 0 0) = .reservedFilterSub8to15 := by decide

/-- 95 section 2.1: XV2 decodes to the message whose canonical encoding is XV1. -/
theorem test_encode_is_canonical :
    encode (decode (word 0xABCD3C00 0 0 0 0)) = some (word 0x00003C00 0 0 0 0) := by decide

/-- R65: the lowest byte first. -/
theorem test_decodeBytes_little_endian :
    decodeBytes ([0x01, 0x3C] ++ List.replicate 18 0) = .ok (.noteOff (.id 60), []) := by decide
/-- R65: the sample 1 is the pattern 3F800000, its lowest byte first. -/
theorem test_sampleBytes : sampleBytes 0x3F800000#32 = [0x00, 0x00, 0x80, 0x3F] ∧
    sampleOfBytes [0x00, 0x00, 0x80, 0xBF] = 0xBF800000#32 := by decide
theorem test_decodeBytes_truncated : decodeBytes (List.replicate 19 0) = .error .truncated := by decide
theorem test_decodeTableWord : decodeTableWord 160 0x3F00000000000014 = some (.setWaveformSquare 0x3F000000) ∧
    decodeTableWord 32 0x25 = some (.setFilterTwoPole 0 0) := by decide

/-! ### Numbers (R11, R86): patterns of 95 section 2.1, G1 -/

theorem test_lit_tenth : num.lit 3 10 = 0x3E99999A#32 ∧ num.lit 1 10 = 0x3DCCCCCD#32 := by decide +kernel
theorem test_lit_44100 : num.lit 44100 1 = 0x472C4400#32 := by decide +kernel
/-- `3/4 + 1/4 = 1`, `1/2 - 1 = -1/2`, `3/2 * 2 = 3` and `1 / 8`. -/
theorem test_arithmetic_exact :
    num.add 0x3F400000#32 0x3E800000#32 = 0x3F800000#32 ∧ num.sub 0x3F000000#32 0x3F800000#32 = 0xBF000000#32 ∧
    num.mul 0x3FC00000#32 0x40000000#32 = 0x40400000#32 ∧
    num.div 0x3F800000#32 0x41000000#32 = 0x3E000000#32 := by decide +kernel
/-- `1 + 2^-24` is a tie and goes to the even `1`; `1 + 3 * 2^-24` goes up to the even `1 + 2^-22`. -/
theorem test_arithmetic_ties_to_even :
    num.add 0x3F800000#32 0x33800000#32 = 0x3F800000#32 ∧
    num.add 0x3F800001#32 0x33800000#32 = 0x3F800002#32 := by decide +kernel

/-! ### Messages (43_engine; vectors MV and programs P of 95) -/

/-- P1: slot 0 takes the note, envelope `(Sustain, 1, 1, 1, 0)` with the registers `(0, 0, 1, 0)`. -/
theorem test_noteOn_allocates :
    sounding.engine.voices[0].active = true ∧ sounding.engine.voices[0].note = .id 0 ∧
    shape sounding.engine.voices[0].envelope =
      (.sustain, 0x3F800000#32, true, 0x3F800000#32, 0x00000000#32) ∧
    sounding.engine.voices[1].active = false := by decide +kernel
/-- P2: with sixteen voices active another note is dropped. -/
theorem test_noteOn_drops : (after (.noteOn (.id 16)) full).engine = full.engine := by decide +kernel
/-- P2: with `release = 0` a `NoteOff` ends the envelope at once, and the slot stays active (R188). -/
theorem test_noteOff_release_zero :
    (after (.noteOff (.id 0)) sounding).engine.voices[0].active = true ∧
    shape (after (.noteOff (.id 0)) sounding).engine.voices[0].envelope =
      (.idle, 0x00000000#32, false, 0x00000000#32, 0x00000000#32) := by decide +kernel
/-- MV12. -/
theorem test_noteOff_no_carrier : (after (.noteOff (.id 5)) sounding).engine = sounding.engine := by decide +kernel
/-- MV2, MV3. -/
theorem test_setMasterVolume_clamps :
    (after (.setMasterVolume 0xC0400000) start8).engine.masterVolume = 0x00000000#32 ∧
    (after (.setMasterVolume 0x40600000) start8).engine.masterVolume = 0x3F800000#32 := by decide +kernel
/-- MV1. -/
theorem test_setMasterVolume_stores :
    (after (.setMasterVolume 0x3F000000) start8).engine.masterVolume = 0x3F000000#32 := by decide +kernel
/-- MV4: `(a, d, s, r) = (-1, 1/4, 3/2, 1/4)` is stored as `(0, 1/4, 1, 1/4)`. -/
theorem test_setAdsr_clamps :
    let e := (after (.setAdsr 0xBF800000 0x3E800000 0x3FC00000 0x3E800000) start8).engine
    (e.attack, e.decay, e.sustain, e.release) =
      (0x00000000#32, 0x3E800000#32, 0x3F800000#32, 0x3E800000#32) := by decide +kernel
/-- R191: a sounding voice is re-triggered from its level: attack 0 is done at once, decay to 1/2 over 1/4 s at 8 Hz. -/
theorem test_setAdsr_retriggers :
    shape (after (.setAdsr 0 0x3E800000 0x3F000000 0) sounding).engine.voices[0].envelope =
      (.decay, 0x3F800000#32, true, 0x3F000000#32, 0xBE800000#32) := by decide +kernel
/-- MV8. -/
theorem test_setWaveformSine :
    (after .setWaveformSine sounding).engine.waveform = .sine ∧
    (after .setWaveformSine sounding).engine.voices[0].oscillator.waveform = .sine := by decide +kernel
/-- MV5, MV6. -/
theorem test_setWaveformSquare_clamps :
    (after (.setWaveformSquare 0) start8).engine.waveform = .square 0x3D4CCCCD#32 ∧
    (after (.setWaveformSquare 0x3F800000) start8).engine.waveform = .square 0x3F733333#32 := by decide +kernel
theorem test_setWaveformSawtooth :
    (after .setWaveformSawtooth State.reset).engine.waveform = .sawtooth := by decide +kernel
/-- MV7: -2 is clamped to 0, 7 is kept. -/
theorem test_setWaveformTriangle_clamps :
    (after (.setWaveformTriangle 0xC0000000) start8).engine.waveform = .triangle 0x00000000#32 ∧
    (after (.setWaveformTriangle 0x40E00000) start8).engine.waveform = .triangle 0x40E00000#32 := by decide +kernel
/-- MV9: 100 at sample rate 8 is stored as 3.92. -/
theorem test_setFilterOnePole_clamps :
    (after (.setFilterOnePole 0x42C80000) start8).engine.filterType = some (.onePole 0x407AE148#32) := by
  decide +kernel
/-- MV13: a voice without a filter gets one with `y = 0`. -/
theorem test_setFilterOnePole_installs :
    ((after (.setFilterOnePole 0x40000000) sounding).engine.voices[0].filter.map fun F => match F with
      | .onePole f => (f.cutoff, f.y)
      | .twoPole f => (f.cutoff, f.y1)) = some (0x40000000#32, 0x00000000#32) := by decide +kernel
/-- MV10: `(-5, 0)` is stored as `(1, 1/10)`. -/
theorem test_setFilterTwoPole_clamps :
    (after (.setFilterTwoPole 0xC0A00000 0) start8).engine.filterType =
      some (.twoPole 0x3F800000#32 0x3DCCCCCD#32) := by decide +kernel
/-- MV13, second message: the filter is gone from register and voice. -/
theorem test_setFilterNone :
    let s := after .setFilterNone (after (.setFilterOnePole 0x40000000) sounding)
    s.engine.filterType = none ∧ s.engine.voices[0].filter = none := by decide +kernel
/-- MV11. -/
theorem test_reserved_does_nothing : ∀ i ∈ [Instr.reservedOp6to7, .reservedOp8to15, .reservedWaveSub4to7,
    .reservedWaveSub8to15, .reservedFilterSub3, .reservedFilterSub4to7, .reservedFilterSub8to15],
    (after i sounding).engine = sounding.engine := by decide +kernel

/-! ### Envelope (EV1, EV5), residual (PB1), oscillator (OV1, OV5), filters (FV1) -/

/-- EV1: `note_on` with attack 1/2 at rate 8. -/
theorem test_envelope_noteOn :
    shape ((env8 0x3F000000#32 0x3F000000#32 0x3F000000#32 0x3E800000#32).noteOn num) =
      (.attack, 0x00000000#32, true, 0x3F800000#32, 0x3E800000#32) := by decide +kernel
/-- EV1, ticks 1 and 4: the hit enters Decay without advancing in it. -/
theorem test_envelope_attack :
    let E := (env8 0x3F000000#32 0x3F000000#32 0x3F000000#32 0x3E800000#32).noteOn num
    (E.ticks num State.reset.config 1).level = 0x3E800000#32 ∧
    shape (E.ticks num State.reset.config 4) =
      (.decay, 0x3F800000#32, true, 0x3F000000#32, 0xBE000000#32) := by decide +kernel
/-- EV5: `note_off` in mid-attack. -/
theorem test_envelope_noteOff :
    let E := ((env8 0x3F000000#32 0x3F000000#32 0x3F000000#32 0x3F000000#32).noteOn num).ticks num State.reset.config 2
    shape (E.noteOff num) = (.release, 0x3F000000#32, false, 0x00000000#32, 0xBE000000#32) := by decide +kernel
/-- PB1 at `dt = 1/8`: `t = 0, 1/16, 1/8, 15/16`. -/
theorem test_polyblep :
    [0x00000000#32, 0x3D800000#32, 0x3E000000#32, 0x3F700000#32].map (fun t => polyblep num t 0x3E000000#32) =
      [0xBF800000#32, 0xBE800000#32, 0x00000000#32, 0x3E800000#32] := by decide +kernel
/-- OV1 at `dt = 1/8`: sawtooth at `t = 1/8`, square at `t = 1/2` and `t = 5/8`. -/
theorem test_waveforms :
    sawtoothAt num 0x3E000000#32 0x3E000000#32 = 0xBF400000#32 ∧
    squareAt num 0x3F000000#32 0x3F000000#32 0x3E000000#32 = 0x00000000#32 ∧
    squareAt num 0x3F000000#32 0x3F200000#32 0x3E000000#32 = 0xBF800000#32 := by decide +kernel
/-- OV3, sixth sample, in exact arithmetic. -/
theorem test_sawtooth_exact : sawtoothAt exactQ (15 / 16) (3 / 16) = 31 / 72 := by
  norm_num [exactQ, NumOps.exact, sawtoothAt, polyblep, NumOps.two, NumOps.one, NumOps.gt]
/-- FV1: the one-pole coefficient at 44100 Hz and 1000 Hz under binary32. -/
theorem test_onePole_coefficient :
    OnePole.coefficient num State.reset.config 0x447A0000#32 0x472C4400#32 = 0x3DFF66E6#32 := by decide +kernel

/-! ### Bus, render, step -/

/-- QV3, with words 1, 2, 3. -/
theorem test_bus_fifo :
    Bus.pop (Bus.push (Bus.push [] 1).1 2).1 = some (1, [2]) ∧ Bus.pop [] = none := by decide
/-- QV2: at 2047 entries a push is accepted, at 2048 it is refused. -/
theorem test_bus_boundary :
    (Bus.push (List.replicate 2047 0) 1).2 = true ∧
    Bus.push (List.replicate 2048 0) 1 = (List.replicate 2048 0, false) :=
  ⟨congrArg Prod.snd (Bus.push_of_room (by rw [List.length_replicate]; decide) 1),
    Bus.push_of_full (List.length_replicate ..) 1⟩
/-- RV3. -/
theorem test_output_clamp :
    clampSample num 0x40000000#32 = 0x3F800000#32 ∧ clampSample num 0xC12E0000#32 = 0xBF800000#32 ∧
    clampSample num 0x3F800000#32 = 0x3F800000#32 := by decide +kernel
/-- MV14. -/
theorem test_mute :
    Engine.nextSample num State.reset.config (after (.setMasterVolume 0) sounding).engine =
      (0x00000000#32, (after (.setMasterVolume 0) sounding).engine) := by decide +kernel
/-- P2, second block: a slot in Idle is freed by the next sample. -/
theorem test_sample_frees_idle_slot :
    (Engine.nextSample num State.reset.config (after (.noteOff (.id 0)) sounding).engine).2.voices[0].active = false := by
  decide +kernel
/-- RV1: a block of length 0 with an empty bus ends at once. -/
theorem test_render_zero : ∃ t, step ((State.reset.setTurns [.renderBlock 0])) = .next t ∧
    step t = .next State.reset := ⟨_, rfl, rfl⟩
/-- R9: with `L_MAX` 4 a block of 4 begins and one of 5 is refused. -/
theorem test_block_length :
    (∃ t, step (bounded.setTurns [.renderBlock 4]) = .next t) ∧
    step (bounded.setTurns [.renderBlock 5]) = .refused .blockTooLong := ⟨⟨_, rfl⟩, rfl⟩
/-- The placed word is the one the next step applies. -/
theorem test_withFetchWord :
    step (State.reset.withFetchWord 32 0x3C00) =
      exec (.noteOn (.id 60)) (State.reset.setSeq (some { phase := .drain, i := 0, len := 0 })) := rfl

/-! ### Witnesses: for each statement with hypotheses, values that meet them together -/

theorem witness_EncodedMessagesDecodeBack :
    (Instr.noteOn (.id 254)).wellFormed = true ∧
    (Instr.setAdsr 0x7F7FFFFF 0xFF7FFFFF 0x80000000 0x00000001).wellFormed = true ∧
    (word 0x00003C00 0 0 0 0).canonical = true ∧ (decode (word 0x00003C00 0 0 0 0)).reserved = false ∧
    (word 0xABCD3C00 0 0 0 0).canonical = false ∧ (decode (word 0x00000044 0 0 0 0)).reserved = true := by
  decide +kernel

theorem witness_UnusedFieldsAreIgnored :
    (word 0x00003C00 0 0 0 0 ^^^ word 0xABCD3CF0 1 2 3 4) &&& (decode (word 0x00003C00 0 0 0 0)).usedBits = 0 ∧
    encode (.setFilterTwoPole 0xFFFFFFFF 0xFFFFFFFF) = some (word 0x00000025 0xFFFFFFFF 0xFFFFFFFF 0 0) := by
  decide +kernel

/-- Every clause, at the ends of the reserved ranges and with a bus one short of full. -/
theorem witness_ReservedWordsAreConsumed :
    (∀ m ∈ [word 0x6 0 0 0 0, word 0xF 0 0 0 0, word 0x44 0 0 0 0, word 0xF4 0 0 0 0, word 0x35 0 0 0 0,
      word 0xF5 0 0 0 0], (decode m).reserved = true) ∧
    Instr.reservedFilterSub3.reserved = true ∧
    (∃ (s : State) (ts : List Turn), s.turns = .push (word 0x6 0 0 0 0) :: ts ∧ s.bus.length < 2048 ∧
      s.bus.length = 2047) ∧
    ∃ (s : State) (q : Sequencer) (rest : List Message), RendererMoves s [] ∧ RendererMoves (s.setTurns [.renderer]) [] ∧
      s.seq = some q ∧ q.phase = .drain ∧ s.bus = word 0x35 0 0 0 0 :: rest := by
  refine ⟨?_, rfl,
    ⟨(State.reset.setBus (List.replicate 2047 0)).setTurns [.push (word 0x6 0 0 0 0)], [], rfl, ?_, ?_⟩,
    ⟨drainAt 1 (State.reset.setBus [word 0x35 0 0 0 0]), _, [], .inr ⟨rfl, rfl⟩, .inl rfl, rfl, rfl, rfl⟩⟩
  · simp only [List.forall_mem_cons, List.not_mem_nil]
    exact ⟨by decide, by decide, by decide, by decide, by decide, by decide, fun _ h => h.elim⟩
  · show (List.replicate 2047 (0 : Message)).length < 2048
    rw [List.length_replicate]
    decide
  · exact List.length_replicate ..

theorem witness_SerialisedMessagesDecodeBack :
    ([] : List Byte).length < 20 ∧ (List.replicate 19 (0 : Byte)).length < 20 := by decide

/-- A written entry, its first and its last byte. -/
theorem witness_SerialisedSamplesReadBack :
    (State.reset.setOut [0x3F800000#32]).out[0]? = some 0x3F800000#32 ∧ 0 < 4 ∧ 3 < 4 := ⟨rfl, by decide, by decide⟩

/-- Each case: a carrier in the first and in the last slot, no carrier with a free slot, a full pool. -/
theorem witness_NoteOnRetriggersAllocatesOrDrops :
    IsFirstSlot full.engine (fun v => v.active && v.note == .id 0) 0 ∧
    IsFirstSlot full.engine (fun v => v.active && v.note == .id 15) 15 ∧
    (∀ i : Fin 16, ¬ (sounding.engine.voices[i].active = true ∧ sounding.engine.voices[i].note = .id 254)) ∧
    IsFirstSlot sounding.engine (fun v => !v.active) 1 ∧
    (∀ i : Fin 16, ¬ (full.engine.voices[i].active = true ∧ full.engine.voices[i].note = .id 254)) ∧
    (∀ i : Fin 16, full.engine.voices[i].active = true) := by
  unfold IsFirstSlot
  decide +kernel

/-- Both branches: a carrier, and a slot that is not one. -/
theorem witness_NoteOffReleasesEveryCarrier :
    (full.engine.voices[15].active = true ∧ full.engine.voices[15].note = .id 15) ∧
    full.engine.voices[14].note ≠ .id 15 := by decide +kernel

theorem witness_SetMasterVolumeStoresTheClampedValue :
    F32.isFinite 0x80000000#32 = true ∧ F32.isFinite 0x3F800000#32 = true ∧ F32.isFinite 0x7F7FFFFF#32 = true := by
  decide

/-- Finite operands; a sounding voice, one at level 0, and an inactive slot. -/
theorem witness_SetAdsrRetunesAndRetriggers :
    (∀ w ∈ [0xBF800000#32, 0x3E800000#32, 0x3FC00000#32, 0x3E800000#32], F32.isFinite w = true) ∧
    F32.lt 0x00000000#32 sounding.engine.voices[0].envelope.level = true ∧
    F32.lt 0x00000000#32 full.engine.voices[0].envelope.level = false ∧
    sounding.engine.voices[1].active = false := by
  refine ⟨?_, by decide +kernel⟩
  simp only [List.forall_mem_cons, List.not_mem_nil]
  exact ⟨by decide, by decide, by decide, by decide, fun _ h => h.elim⟩

theorem witness_SetWaveformReachesEveryActiveVoice :
    F32.isFinite 0x3D4CCCCD#32 = true ∧ F32.isFinite 0x80000000#32 = true ∧
    sounding.engine.voices[0].active = true ∧ sounding.engine.voices[1].active = false := by decide +kernel

/-- The invariants hold after reset and with a voice that carries a one-pole filter. -/
theorem witness_SetFilterUpdatesEveryActiveVoice :
    let s := after (.noteOn (.id 0)) (start 0x472C4400#32 .sine (some (.onePole 0x447A0000#32)))
    ConfigAdmissible s ∧ VoicesTrackGlobals s.config s.engine ∧
    s.engine.voices[0].active = true ∧ s.engine.voices[0].filter.isSome = true ∧
    F32.isFinite 0x447A0000#32 = true ∧ F32.isFinite 0x3F000000#32 = true := by
  refine ⟨?_, ?_, by decide +kernel, by decide +kernel, by decide, by decide⟩
  · show admissible num _ _ = true
    decide +kernel
  · intro i h
    have hi : ∀ i : Fin 16, i ≠ 0 →
        (after (.noteOn (.id 0)) (start 0x472C4400#32 .sine (some (.onePole 0x447A0000#32)))).engine.voices[i].active
          = false := by decide +kernel
    by_cases h0 : i = 0
    · subst h0
      refine ⟨by decide +kernel, ?_, by decide +kernel, by decide +kernel, by decide +kernel, by decide +kernel,
        by decide +kernel⟩
      exact VoiceFilter.new_matches (ft := .onePole 0x447A0000#32) ⟨by decide +kernel, by decide +kernel⟩
    · rw [hi i h0] at h
      cases h

theorem witness_NonFinitePayloadsAreIgnored :
    (Instr.setMasterVolume 0x7F800000#32).payloadsFinite = false ∧
    (Instr.setAdsr 0 0 0 0xFFC00000#32).payloadsFinite = false := by decide

theorem witness_OnlyNoteOnChangesActivity :
    (∀ n, Instr.noteOff (.id 0) ≠ .noteOn n) ∧ sounding.engine.voices[0].active = true :=
  ⟨fun _ => Instr.noConfusion, by decide +kernel⟩

/-- Seventeen distinct notes into a free pool. -/
theorem witness_DistinctNotesFillTheSlotsInOrder :
    (∀ k : Fin 16, State.reset.engine.voices[k].active = false) ∧
    ((List.range 17).map (fun n => Fin.ofNat 255 n)).Nodup := by decide +kernel

theorem witness_ZeroAttackAndDecaySustainAtOnce :
    let E := env8 0x00000000#32 0x80000000#32 0x3F400000#32 0x3F800000#32
    num.le E.attack num.zero = true ∧ num.le E.decay num.zero = true := by decide +kernel

theorem witness_NoteOffIsIdempotent :
    ((env8 0x00000000#32 0x00000000#32 0x3F000000#32 0x3F800000#32).noteOn num |>.noteOff num).state = .release := by
  decide +kernel

/-- Attack with the gate held, and Release. -/
theorem witness_StagesFollowTheTransitionGraph :
    let E := (env8 0x3F000000#32 0x3F000000#32 0x3F000000#32 0x3F000000#32).noteOn num
    E.gate = true ∧ E.state = .attack ∧ ((E.nextSample num State.reset.config).noteOff num).state = .release := by
  decide +kernel

/-- The target reached exactly from below, and not reached from above. -/
theorem witness_HitMeansTargetCrossed :
    let E := (env8 0x3F000000#32 0x3F000000#32 0x3F000000#32 0x3F000000#32).noteOn num
    E.step.isNaN = false ∧ E.level.isNaN = false ∧ E.target.isNaN = false ∧
    Envelope.hit num { E with level := E.target } = true ∧ Envelope.hit num { E with step := num.neg E.step } = true ∧
    Envelope.hit num E = false := by decide +kernel

/-- EV4: attack 3/10 at 8 Hz, with a Decay and without one, to 1/2, to 1 and to 0. -/
theorem witness_AttackLastsCeilTicks :
    let P := standardParams (NumOps.exact ℝ Real.sin Real.cos (fun x y => x ^ y)) Real.pi
    (0 : ℝ) < 3 / 10 ∧ (0 : ℝ) < 8 ∧ 0 < P.envEps ∧ P.envEps ≤ 1 ∧ P.envEps ≤ 1 / (3 / 10 * 8) ∧
    (0 : ℝ) < 1 / 2 ∧ (0 : ℝ) ≤ 0 ∧ (1 / 2 : ℝ) ≠ 1 ∧ P.envEps ≤ |1 / 2| ∧ |0| < P.envEps := by
  norm_num [standardParams, NumOps.exact, abs_of_pos]

/-- EV1: Decay from 1 to 1/2 over 1/2 s at 8 Hz, and to 0; Sustain at 1/2 and at 0. -/
theorem witness_DecayIsLinearThenSustainHolds :
    let P := standardParams (NumOps.exact ℝ Real.sin Real.cos (fun x y => x ^ y)) Real.pi
    let E (u : ℝ) : Envelope ℝ :=
      { Envelope.new (NumOps.exact ℝ Real.sin Real.cos (fun x y => x ^ y)) (1 / 2) (1 / 2) u (1 / 2) 8 with
        state := .sustain, level := 1, gate := true }
    ∀ u : ℝ, u = 1 / 2 ∨ u = 0 → (E u).gate = true ∧ 0 < (E u).decay ∧ 0 < (E u).sampleRate ∧ (E u).level ≠ (E u).sustain ∧
      (∀ k < ⌈(E u).decay * (E u).sampleRate⌉₊, 0 < k →
        P.envEps ≤ |(E u).level + k * (((E u).sustain - (E u).level) / ((E u).decay * (E u).sampleRate))|) ∧
      (E u).state = .sustain ∧ (u = 1 / 2 → P.envEps ≤ |(E u).sustain|) ∧ (u = 0 → |(E u).sustain| < P.envEps) := by
  intro P E u hu
  have hn : ⌈(E u).decay * (E u).sampleRate⌉₊ = 4 := by norm_num [E, Envelope.new]
  have he : P.envEps = 1 / 2 ^ 40 := by norm_num [P, standardParams, NumOps.exact]
  rw [hn, he]
  refine ⟨rfl, by norm_num [E, Envelope.new], by norm_num [E, Envelope.new], ?_, ?_, rfl, ?_, ?_⟩
  · rcases hu with rfl | rfl <;> norm_num [E, Envelope.new]
  · intro k hk _
    rcases hu with rfl | rfl <;> interval_cases k <;> norm_num [E, Envelope.new, abs_of_pos]
  · rintro rfl
    norm_num [E, Envelope.new, abs_of_pos]
  · rintro rfl
    norm_num [E, Envelope.new]

/-- EV5: Release from level 1/2 over 1/2 s at 8 Hz, at its start and one tick before its end. -/
theorem witness_ReleaseIsLinear :
    let P := standardParams (NumOps.exact ℝ Real.sin Real.cos (fun x y => x ^ y)) Real.pi
    let E : Envelope ℝ :=
      { Envelope.new (NumOps.exact ℝ Real.sin Real.cos (fun x y => x ^ y)) (1 / 2) (1 / 2) (1 / 2) (1 / 2) 8 with
        state := .attack, level := 1 / 2 }
    E.state = .attack ∧ 0 < E.level ∧ 0 < E.release ∧ 0 < E.sampleRate ∧ 0 < P.envEps ∧
    P.envEps ≤ E.level * (1 - (0 : ℕ) / (E.release * E.sampleRate)) ∧
    P.envEps ≤ E.level * (1 - (3 : ℕ) / (E.release * E.sampleRate)) := by
  norm_num [standardParams, NumOps.exact, Envelope.new]

theorem witness_ExactLevelsStayInUnit :
    (Envelope.new (NumOps.exact ℝ Real.sin Real.cos (fun x y => x ^ y)) 1 1 (1 / 2) 1 8).LevelSound := by
  norm_num [Envelope.LevelSound, Envelope.new, NumOps.exact, NumOps.zero]

theorem witness_WrapLandsInRange :
    let P := standardParams (NumOps.exact ℝ Real.sin Real.cos (fun x y => x ^ y)) Real.pi
    0 < P.pi ∧ (0 : ℝ) ≤ 0 ∧ 0 < 2 * P.pi := by
  simp [standardParams, Real.pi_pos]

/-- PB1: each clause at `dt = 1/8`, and the widest correction. -/
theorem witness_PolyblepIsTheStepResidual :
    ((0 : ℝ) ≤ 0 ∧ (0 : ℝ) < 1 ∧ (0 : ℝ) < 1 / 8 ∧ (1 / 8 : ℝ) ≤ 1 / 2) ∧
    ((1 : ℝ) - 1 / 8 < 15 / 16 ∧ (15 / 16 : ℝ) < 1) ∧ ((1 / 8 : ℝ) ≤ 1 / 8 ∧ (1 / 8 : ℝ) ≤ 1 - 1 / 8) ∧
    ((1 / 2 : ℝ) ≤ 1 / 2 ∧ (1 / 2 : ℝ) ≤ 1 - 1 / 2) := by norm_num

/-- OV1: `dt = 1/8`, pulse width 1/4 at the bound and 1/2; and the widest increment. -/
theorem witness_WaveformsStayInUnit :
    let P := standardParams (NumOps.exact ℝ Real.sin Real.cos (fun x y => x ^ y)) Real.pi
    0 < P.pi ∧ (0 : ℝ) ≤ 0 ∧ 0 < 2 * P.pi ∧ 0 < P.pi / 4 ∧ P.pi / 4 ≤ P.pi ∧ (0 : ℝ) ≤ 0 ∧
    2 * (P.pi / 4 / (2 * P.pi)) ≤ 1 / 4 ∧ (1 / 4 : ℝ) ≤ 1 - 2 * (P.pi / 4 / (2 * P.pi)) := by
  have h := Real.pi_pos
  have h' : Real.pi / 4 / (2 * Real.pi) = 1 / 8 := by field_simp; norm_num
  simp only [standardParams, h']
  norm_num
  exact ⟨h, by linarith⟩

/-- OV1 at `dt = 1/8`: a phase in each region of the square of width 1/2, on both edges, and of the sawtooth; the triangle
below, at and above 0. -/
theorem witness_WaveformsTakeTheirValues :
    let P := standardParams (NumOps.exact ℝ Real.sin Real.cos (fun x y => x ^ y)) Real.pi
    (0 < P.pi ∧ 0 < P.pi / 4 ∧ P.pi / 4 ≤ P.pi ∧ P.pi / 4 / (2 * P.pi) = 1 / 8) ∧
    (∀ t : ℝ, 0 ≤ t → t < 1 → 0 ≤ t * (2 * P.pi) ∧ t * (2 * P.pi) < 2 * P.pi ∧ t * (2 * P.pi) / (2 * P.pi) = t) ∧
    ((1 / 8 : ℝ) ≤ 3 / 8 ∧ (3 / 8 : ℝ) ≤ 1 / 2 - 1 / 8 ∧ (1 / 2 : ℝ) ≤ 1) ∧
    ((1 / 2 : ℝ) + 1 / 8 ≤ 7 / 8 ∧ (7 / 8 : ℝ) ≤ 1 - 1 / 8 ∧ (0 : ℝ) ≤ 1 / 2) ∧
    ((1 / 8 : ℝ) ≤ 1 / 8 ∧ (1 / 8 : ℝ) ≤ 1 - 1 / 8) ∧ (2 * (1 / 8 : ℝ) ≤ 1 / 4 ∧ (3 / 4 : ℝ) ≤ 1 - 2 * (1 / 8)) ∧
    ((0 : ℝ) < 1 / 8 ∧ (1 / 2 - 1 / 8 : ℝ) < 7 / 16 ∧ (7 / 16 : ℝ) < 1 / 2 ∧ (1 / 2 : ℝ) ≤ 1 / 2 ∧
      (1 / 2 : ℝ) < 1 / 2 + 1 / 8 ∧ (1 : ℝ) - 1 / 8 < 15 / 16) ∧
    (1 - 4 * |(1 / 4 : ℝ) - 1 / 2| = 0 ∧ 0 < 1 - 4 * |(1 / 2 : ℝ) - 1 / 2| ∧ 1 - 4 * |(0 : ℝ) - 1 / 2| < 0) := by
  intro P
  have hp : 0 < P.pi := Real.pi_pos
  refine ⟨⟨hp, by positivity, by linarith, by field_simp; norm_num⟩, ?_, by norm_num, by norm_num, by norm_num,
    by norm_num, by norm_num, ?_⟩
  · intro t h0 h1
    exact ⟨by positivity, by nlinarith, by field_simp⟩
  · norm_num [abs_of_neg, abs_of_nonpos]

theorem witness_OscillatorsRunAtTheNoteFrequency :
    0 < (standardParams (NumOps.exact ℝ Real.sin Real.cos (fun x y => x ^ y)) Real.pi).pi := Real.pi_pos

theorem witness_CoefficientsHaveTheirClosedForms :
    let N := NumOps.exact ℝ Real.sin Real.cos (fun x y => x ^ y)
    let P := standardParams N Real.pi
    0 < P.pi ∧ (0 : ℝ) < 44100 ∧ 0 < P.cutoffMin ∧ P.cutoffMin ≤ 49 / 100 * 44100 ∧
    (OnePole.new N P 1000 44100).sampleRate = 44100 ∧ (TwoPole.new N P 1000 1 44100).sampleRate = 44100 := by
  refine ⟨Real.pi_pos, by norm_num, ?_, ?_, rfl, rfl⟩ <;> norm_num [standardParams, NumOps.exact, NumOps.one]

theorem witness_ClampedFiltersAreStable :
    let P := standardParams (NumOps.exact ℝ Real.sin Real.cos (fun x y => x ^ y)) Real.pi
    P.pi = Real.pi ∧ (0 : ℝ) < 8 ∧ 0 < P.cutoffMin ∧ P.cutoffMin ≤ 49 / 100 * 8 ∧ 0 < P.qMin := by
  norm_num [standardParams, NumOps.exact, NumOps.one]

theorem witness_OnePoleImpulseDecaysGeometrically :
    let F : OnePole ℝ := { sampleRate := 8, cutoff := 1, a := 1 / 2, y := 0 }
    F.y = 0 ∧ 0 < F.a ∧ F.a < 1 := by norm_num

/-- A muted engine at the last index of a block and before it. -/
theorem witness_MutedSamplesFreezeTheEngine :
    let s := after (.setMasterVolume 0) sounding
    RendererMoves (genAt 0 1 s) [] ∧ RendererMoves ((genAt 0 2 s).setTurns [.renderer, .newBus]) [.newBus] ∧
    (genAt 0 1 s).seq = some { phase := .gen, i := 0, len := 1 } ∧ 0 < 1 ∧ 0 + 1 = 1 ∧
    0 + 1 < 2 ∧ F32.eq (genAt 0 2 s).engine.masterVolume 0x00000000#32 = true := by
  refine ⟨.inr ⟨rfl, rfl⟩, .inl rfl, rfl, by decide, rfl, by decide, by decide +kernel⟩

theorem witness_SamplesTickEveryActiveVoice :
    F32.eq sounding.engine.masterVolume 0x00000000#32 = false ∧ sounding.engine.voices[0].active = true ∧
    sounding.engine.voices[1].active = false ∧
    F32.le (sounding.engine.voices[0].envelope.nextSample num sounding.config).level 0x00000000#32 = false ∧
    F32.le (full.engine.voices[0].envelope.nextSample num full.config).level 0x00000000#32 = true := by decide +kernel

/-- A muted engine gives a sample that is a number; index 0 of a block of 1 and of 2. -/
theorem witness_SamplesAreClampedAndStored :
    let s := after (.setMasterVolume 0) sounding
    RendererMoves (genAt 0 2 s) [] ∧ RendererMoves ((genAt 0 2 s).setTurns [.renderer, .newBus]) [.newBus] ∧
    (genAt 0 2 s).seq = some { phase := .gen, i := 0, len := 2 } ∧ 0 < 2 ∧ 0 + 1 < 2 ∧
    0 + 1 = 1 ∧ (Engine.nextSample num (genAt 0 2 s).config (genAt 0 2 s).engine).1.isNaN = false := by
  refine ⟨.inr ⟨rfl, rfl⟩, .inl rfl, rfl, by decide, by decide, rfl, by decide +kernel⟩

theorem witness_StepAppliesTheDecodedMessage :
    let s := drainAt 1 (State.reset.setBus [word 0x00003C00 0 0 0 0])
    s.seq = some { phase := .drain, i := 0, len := 1 } ∧ s.bus = [word 0x00003C00 0 0 0 0] ∧ s.turns = [] ∧
    (s.setTurns [.renderer]).turns = [.renderer] := ⟨rfl, rfl, rfl, rfl⟩

theorem witness_EmptyBusEndsTheDrain :
    RendererMoves (drainAt 0 State.reset) [] ∧
    RendererMoves ((drainAt 0 State.reset).setTurns [.renderer, .newBus]) [.newBus] ∧
    (drainAt 0 State.reset).seq = some { phase := .drain, i := 0, len := 0 } ∧
    (drainAt 0 State.reset).bus = [] := ⟨.inr ⟨rfl, rfl⟩, .inl rfl, rfl, rfl⟩

/-- A full bus, and one entry less. -/
theorem witness_PushIsTestAndAppend :
    let s (n : Nat) := (State.reset.setBus (List.replicate n 0)).setTurns [.push (word 0x00003C00 0 0 0 0)]
    (s 0).turns = [.push (word 0x00003C00 0 0 0 0)] ∧ (s 2048).bus.length = 2048 ∧ (s 2047).bus.length ≠ 2048 := by
  refine ⟨rfl, List.length_replicate .., ?_⟩
  show (List.replicate 2047 (0 : Message)).length ≠ 2048
  rw [List.length_replicate]
  decide

/-- A bus one short of full and two pushes: the second is refused. -/
theorem witness_PushesQueueInOrderUpToCapacity :
    ∃ s : State, s.bus.length ≤ 2048 ∧ s.bus.length = 2047 ∧
      s.turns = ([word 0x00000002 0 0 0 0] ++ [word 0x00000004 0 0 0 0]).map Turn.push := by
  refine ⟨(State.reset.setBus (List.replicate 2047 0)).setTurns
    [.push (word 0x00000002 0 0 0 0), .push (word 0x00000004 0 0 0 0)], ?_, List.length_replicate .., rfl⟩
  show (List.replicate 2047 (0 : Message)).length ≤ 2048
  rw [List.length_replicate]
  decide

/-- A block as long as the bound, and any length where there is none. -/
theorem witness_RenderBlockDrainsThenGenerates :
    let s := (bounded.setBus [word 0x00003C00 0 0 0 0]).setTurns [.renderBlock 4]
    s.seq = none ∧ s.turns = [.renderBlock 4] ∧ (∀ bound, s.config.maxBlock = some bound → 4 ≤ bound) ∧
    ∀ bound, State.reset.config.maxBlock = some bound → 1000000 ≤ bound := by
  refine ⟨rfl, rfl, ?_, ?_⟩
  · rintro bound ⟨⟩
    exact Nat.le_refl 4
  · rintro bound ⟨⟩

/-- Two schedules of two renderer steps with different pushes. -/
theorem witness_PushesDuringGenerationChangeNoSample :
    let s₁ := (genAt 0 4 sounding).setTurns [.renderer, .push (word 0x00000002 0 0 0 0), .renderer]
    let s₂ := (genAt 0 4 sounding).setTurns [.push (word 0x00000004 0 0 0 0), .renderer, .renderer]
    s₁.config = s₂.config ∧ s₁.engine = s₂.engine ∧ s₁.seq = s₂.seq ∧ s₁.out = s₂.out ∧
    (∀ q, s₁.seq = some q → q.phase = .gen) ∧ (∀ t ∈ s₁.turns, t.isLocal = true) ∧
    (∀ t ∈ s₂.turns, t.isLocal = true) ∧ rendererTurns s₁.turns = rendererTurns s₂.turns := by
  refine ⟨rfl, rfl, rfl, rfl, ?_, by decide, by decide, by decide⟩
  rintro q ⟨⟩
  rfl

/-- Admissible arguments of each waveform and filter type with a number. -/
theorem witness_NewBuildsAnIdleEngine :
    let s := State.reset.setTurns [.newEngine 0x41000000#32 (.square 0x00000000#32) (some (.twoPole 0xC0A00000#32 0x00000000#32))]
    s.turns = [.newEngine 0x41000000#32 (.square 0x00000000#32) (some (.twoPole 0xC0A00000#32 0x00000000#32))] ∧
    s.seq = none ∧
    admissibleNew num s.config 0x41000000#32 (.square 0x00000000#32) (some (.twoPole 0xC0A00000#32 0x00000000#32)) = true ∧
    admissibleNew num s.config 0x41000000#32 (.triangle 0xC0000000#32) (some (.onePole 0x42C80000#32)) = true := by
  refine ⟨rfl, rfl, by decide +kernel, by decide +kernel⟩

theorem witness_NewBusIsEmpty :
    (State.reset.setTurns [.newBus]).turns = [.newBus] ∧ (State.reset.setTurns [.newBus]).seq = none := ⟨rfl, rfl⟩

/-- Each of the four refusals happens. -/
theorem witness_OnlyActsOutsideTheContractAreRefused :
    step ((drainAt 1 State.reset).setTurns [.renderBlock 1]) = .refused .overlappingBlock ∧
    step (bounded.setTurns [.renderBlock 5]) = .refused .blockTooLong ∧
    step ((drainAt 1 State.reset).setTurns [.newBus]) = .refused .constructionDuringBlock ∧
    admissibleNew num State.reset.config 0x40000000#32 .sine none = false := by
  refine ⟨rfl, rfl, rfl, by decide +kernel⟩

/-- A step that answers a next state, with no construction next. -/
theorem witness_StepsKeepConfigurationAndSampleRate :
    let s := State.reset.setTurns [.renderBlock 0]
    step s = .next (drainAt 0 State.reset) ∧ ∀ sr w f ts, s.turns ≠ .newEngine sr w f :: ts := by
  refine ⟨rfl, ?_⟩
  intro sr w f ts h
  cases h

/-- The invariant holds with every slot active, and a step from there answers a next state. -/
theorem witness_StepsKeepNotesDistinct :
    NotesDistinct full.engine ∧ step full = .next full := by
  refine ⟨⟨?_, by decide +kernel⟩, rfl⟩
  have h : ∀ i : Fin 16, full.engine.voices[i].note ≠ .none := by decide +kernel
  intro i _
  cases hn : full.engine.voices[i].note with
  | none => exact absurd hn (h i)
  | id n => exact ⟨n, rfl⟩

theorem reset_inactive : ∀ i : Fin 16, State.reset.engine.voices[i].active = false := by decide +kernel

theorem witness_StepsKeepParametersSound :
    ParametersSound State.reset ∧ step State.reset = .next State.reset := by
  refine ⟨⟨?_, ⟨?_, ?_, ?_, ?_, ?_, trivial, ?_⟩, ?_⟩, rfl⟩
  · show admissible num _ _ = true
    decide +kernel
  · decide +kernel
  · decide +kernel
  · decide +kernel
  · decide +kernel
  · decide +kernel
  · rintro ft ⟨⟩
  · intro i h
    rw [reset_inactive] at h
    cases h

/-- A released voice in an engine whose other slots are free. -/
theorem witness_StepsKeepGatesSound :
    GatesSound (after (.noteOff (.id 0)) sounding).engine ∧
    step (after (.noteOff (.id 0)) sounding) = .next (after (.noteOff (.id 0)) sounding) := by
  refine ⟨?_, rfl⟩
  intro i
  unfold Envelope.GateSound
  revert i
  decide +kernel

/-- Phase GEN, one entry written of two. -/
theorem witness_StepsKeepRenderSound :
    let s := (genAt 1 2 (after (.setMasterVolume 0) sounding)).setOut [0x00000000#32]
    RenderSound s ∧ ∃ t, step s = .next t := by
  refine ⟨⟨Nat.zero_le _, ⟨by rintro bound ⟨⟩, by decide, rfl⟩, ?_⟩, ⟨_, rfl⟩⟩
  intro x hx
  cases List.mem_singleton.1 hx
  decide +kernel

theorem witness_ArithmeticRoundsToNearestEven :
    F32.isFinite 0x7F7FFFFF#32 = true ∧ F32.isFinite 0x00000001#32 = true ∧ F32.value 0x00000001#32 ≠ 0 := by
  refine ⟨by decide, by decide, ?_⟩
  have h : F32.units 0x00000001#32 = 1 := by decide
  rw [F32.value, h]
  norm_num

end Sys2Proof.Tests
end

section
/-! PROOFS. The statements of 00_scope about the step: the message applied in the drain, the acts refused, and the
invariant of bus, sequencer and output buffer. -/

namespace Sys2Proof.Machine

/-! ### The drain -/

/-- The renderer's step in the drain with a message waiting (R6 b). -/
theorem rendererStep_of_drain {s : State} {q : Sequencer} {m : Message} {rest : List Message}
    (hq : s.seq = some q) (hp : q.phase = .drain) (hb : s.bus = m :: rest) :
    rendererStep s = exec (decode m) (s.setBus rest) := by
  simp [rendererStep, hq, hp, hb, applyMessage]

/-- Settles O35: both ways to grant the step lead to the renderer's step in the drain. -/
theorem stepAppliesTheDecodedMessage : Obligations.StepAppliesTheDecodedMessage := by
  intro s q m rest hq hp hb
  refine ⟨fun ht => ?_, fun ts ht => ?_⟩
  · rw [step_of_nil ht]
    exact rendererStep_of_drain hq hp hb
  · rw [step_of_cons ht]
    exact rendererStep_of_drain (s := s.setTurns ts) hq hp hb

/-! ### Refusals -/

/-- The renderer is never refused: every message has a meaning. -/
theorem rendererStep_ne_refused (s : State) (r : Refusal) : rendererStep s ≠ .refused r := by
  rcases rendererStep_cases s with ⟨-, h⟩ | ⟨_, _, _, -, -, -, h⟩ | ⟨_, -, -, -, h⟩ | ⟨_, -, -, -, h⟩ | ⟨_, -, -, -, h⟩ <;>
    simp [h]

/-- A length is refused when it is above `L_MAX` (00_scope R9). -/
theorem blockAllowed_eq_false_iff (P : Params F32) (len : Nat) :
    blockAllowed P len = false ↔ ∃ bound, P.maxBlock = some bound ∧ bound < len := by
  cases h : P.maxBlock <;> simp [blockAllowed, h]

theorem renderBlockTurn_refused_iff (len : Nat) (s : State) (r : Refusal) :
    renderBlockTurn len s = .refused r ↔
      (r = .overlappingBlock ∧ s.seq ≠ none) ∨
      (r = .blockTooLong ∧ s.seq = none ∧ ∃ bound, s.config.maxBlock = some bound ∧ bound < len) := by
  rw [← blockAllowed_eq_false_iff]
  cases hs : s.seq <;> cases ha : blockAllowed s.config len <;> simp [renderBlockTurn, hs, ha, eq_comm]

theorem newEngineTurn_refused_iff (sr : F32) (w : Waveform F32) (f : Option (FilterType F32)) (s : State)
    (r : Refusal) :
    newEngineTurn sr w f s = .refused r ↔
      (r = .constructionDuringBlock ∧ s.seq ≠ none) ∨
      (r = .inadmissibleConfiguration ∧ s.seq = none ∧ admissibleNew num s.config sr w f = false) := by
  cases hs : s.seq <;> cases ha : admissibleNew num s.config sr w f <;> simp [newEngineTurn, hs, ha, eq_comm]

theorem newBusTurn_refused_iff (s : State) (r : Refusal) :
    newBusTurn s = .refused r ↔ r = .constructionDuringBlock ∧ s.seq ≠ none := by
  cases hs : s.seq <;> simp [newBusTurn, hs, eq_comm]

/-- The act `t` in the state `s` is outside the contract for the reason `r` (log 13). -/
def OutsideContract (s : State) (t : Turn) (r : Refusal) : Prop :=
  (r = .overlappingBlock ∧ s.seq ≠ none ∧ ∃ len, t = .renderBlock len) ∨
  (r = .blockTooLong ∧ s.seq = none ∧
    ∃ len bound, t = .renderBlock len ∧ s.config.maxBlock = some bound ∧ bound < len) ∨
  (r = .constructionDuringBlock ∧ s.seq ≠ none ∧ (t = .newBus ∨ ∃ sr w f, t = .newEngine sr w f)) ∨
  (r = .inadmissibleConfiguration ∧ s.seq = none ∧
    ∃ sr w f, t = .newEngine sr w f ∧ admissibleNew num s.config sr w f = false)

/-- An act is refused exactly when it is outside the contract. -/
theorem takeTurn_refused_iff (t : Turn) (s : State) (r : Refusal) :
    takeTurn t s = .refused r ↔ OutsideContract s t r := by
  cases t with
  | push m => simp [takeTurn, OutsideContract]
  | renderBlock len => simp [takeTurn, OutsideContract, renderBlockTurn_refused_iff]
  | newEngine sr w f => simp [takeTurn, OutsideContract, newEngineTurn_refused_iff]
  | newBus => simp [takeTurn, OutsideContract, newBusTurn_refused_iff]
  | renderer => simp [takeTurn, OutsideContract, rendererStep_ne_refused]

/-- Settles O43: with an empty schedule the renderer moves and is not refused; else the act at the head decides. -/
theorem onlyActsOutsideTheContractAreRefused : Obligations.OnlyActsOutsideTheContractAreRefused := by
  intro s r
  change _ ↔ ∃ t ts, s.turns = t :: ts ∧ OutsideContract s t r
  cases ht : s.turns with
  | nil => simp [step_of_nil ht, rendererStep_ne_refused]
  | cons t ts =>
    rw [step_of_cons ht, takeTurn_refused_iff]
    constructor
    · exact fun h => ⟨t, ts, rfl, h⟩
    · rintro ⟨_, _, ⟨⟩, h⟩
      exact h

/-! ### The invariant of bus, sequencer and output buffer -/

/-- `RenderSound` reads the bus, the sequencer, the output buffer and `L_MAX` alone. -/
theorem RenderSound.congr {s t : State} (h : RenderSound s) (hc : t.config = s.config) (hb : t.bus = s.bus)
    (hq : t.seq = s.seq) (ho : t.out = s.out) : RenderSound t := by
  simpa only [RenderSound, BusBounded, SequencerSound, OutputInRange, hc, hb, hq, ho] using h

/-- A bus within capacity may take the place of the bus: the other two parts do not read it. -/
theorem RenderSound.setBus {s : State} (h : RenderSound s) {q : List Message} (hq : q.length ≤ busCapacity) :
    RenderSound (s.setBus q) := ⟨hq, h.2⟩

/-- Between blocks nothing is asked of the sequencer. -/
theorem RenderSound.setSeq_none {s : State} (h : RenderSound s) : RenderSound (s.setSeq none) :=
  ⟨h.1, trivial, h.2.2⟩

/-- A push leaves the bus within its capacity (R48, R210). -/
theorem Bus.length_push_le {q : List Message} (h : q.length ≤ busCapacity) (m : Message) :
    (Bus.push q m).1.length ≤ busCapacity := by
  by_cases hf : q.length = busCapacity
  · rwa [Bus.push_of_full hf]
  · rw [Bus.push_of_room hf]
    simp only [List.length_append, List.length_singleton]
    omega

theorem RenderSound.pushTurn {s : State} (h : RenderSound s) (m : Message) : RenderSound (pushTurn m s) :=
  (h.setBus (Bus.length_push_le h.1 m)).congr rfl rfl rfl rfl

/-- A block begins within `L_MAX`, in the drain, with nothing written. -/
theorem RenderSound.beginBlock {s : State} (h : RenderSound s) {len : Nat}
    (hl : blockAllowed s.config len = true) : RenderSound (s.beginBlock len) :=
  ⟨h.1, ⟨(blockAllowed_iff s.config len).1 hl, rfl, rfl⟩, fun _ hx => nomatch hx⟩

/-- The drain ends with index 0 and nothing written; a block of length 0 ends with it. -/
theorem RenderSound.endDrain {s : State} (h : RenderSound s) {q : Sequencer} (hq : s.seq = some q)
    (hp : q.phase = .drain) : RenderSound (endDrain q s) := by
  obtain ⟨hbus, hseq, hout⟩ := h
  simp only [SequencerSound, hq, hp] at hseq
  obtain ⟨hmax, -, hnil⟩ := hseq
  refine ⟨hbus, ?_, hout⟩
  rcases Sequencer.settled_cases { phase := .gen, i := 0, len := q.len } with ⟨-, hs⟩ | ⟨hi, hs⟩
  · simp [SequencerSound, Machine.endDrain, hs]
  · simpa [SequencerSound, Machine.endDrain, hs, hnil] using ⟨hmax, hi⟩

/-- A sample is stored at the next index, clamped; after the last one the block ends. -/
theorem RenderSound.generateSample {s : State} (h : RenderSound s) {q : Sequencer} (hq : s.seq = some q)
    (hp : q.phase = .gen) : RenderSound (generateSample q s) := by
  obtain ⟨hbus, hseq, hout⟩ := h
  simp only [SequencerSound, hq, hp] at hseq
  obtain ⟨hmax, -, hlen⟩ := hseq
  refine ⟨hbus, ?_, ?_⟩
  · rcases Sequencer.settled_cases { q with i := q.i + 1 } with ⟨-, hs⟩ | ⟨hi, hs⟩
    · simp [SequencerSound, Machine.generateSample, hs]
    · rw [hp] at hs
      simpa [SequencerSound, Machine.generateSample, hs, hp, hlen] using ⟨hmax, hi⟩
  · intro x hx
    rcases List.mem_append.1 hx with hx | hx
    · exact hout x hx
    · rw [List.mem_singleton.1 hx]
      exact clampSample_inRange _

theorem RenderSound.rendererStep {s s' : State} (h : RenderSound s) (hs : rendererStep s = .next s') :
    RenderSound s' := by
  rcases rendererStep_cases s with ⟨-, e⟩ | ⟨q, m, rest, -, -, hb, e⟩ | ⟨q, hq, hp, -, e⟩ | ⟨q, hq, hp, -, e⟩ |
    ⟨q, -, -, -, e⟩ <;> obtain rfl := Host.Outcome.next.inj (e.symm.trans hs)
  case inl => exact h
  case inr.inl =>
    have hrest : rest.length ≤ busCapacity := by
      have hlen : s.bus.length ≤ busCapacity := h.1
      rw [hb, List.length_cons] at hlen
      omega
    exact (h.setBus hrest).congr rfl rfl rfl rfl
  case inr.inr.inl => exact h.endDrain hq hp
  case inr.inr.inr.inl => exact h.generateSample hq hp
  case inr.inr.inr.inr => exact h.setSeq_none

theorem RenderSound.takeTurn {t : Turn} {s s' : State} (h : RenderSound s) (hs : takeTurn t s = .next s') :
    RenderSound s' := by
  rcases takeTurn_cases hs with ⟨m, -, rfl⟩ | ⟨len, -, -, hl, rfl⟩ | ⟨sr, w, f, -, -, -, rfl⟩ | ⟨-, -, rfl⟩ | ⟨-, hr⟩
  case inl => exact h.pushTurn m
  case inr.inl => exact h.beginBlock hl
  case inr.inr.inl => exact h.congr rfl rfl rfl rfl
  case inr.inr.inr.inl => exact h.setBus (Nat.zero_le _)
  case inr.inr.inr.inr => exact h.rendererStep hr

/-- Settles O48: the renderer's step and every act of the schedule keep the invariant. -/
theorem stepsKeepRenderSound : Obligations.StepsKeepRenderSound := by
  intro s s' h hs
  cases ht : s.turns with
  | nil => exact h.rendererStep (step_of_nil ht ▸ hs)
  | cons t ts => exact (h.congr (t := s.setTurns ts) rfl rfl rfl rfl).takeTurn (step_of_cons ht ▸ hs)

end Sys2Proof.Machine
end

section
/-! PROOFS. The four operations of binary32 (00_scope R11, 92 D1): each hands an exact result to `round`. -/

namespace Sys2Proof.F32

open Machine (RoundsTo)

/-! ### Signs and magnitudes of finite values -/

theorem isInf_eq_false_of_isFinite {x : F32} (h : x.isFinite = true) : x.isInf = false := by
  simp_all [isFinite, isInf]

/-- A value is its sign and its magnitude, in units of `2^-149`. -/
theorem value_eq_signFactor (x : F32) : x.value = signFactor x.sign * (x.mag : ℚ) / 2 ^ 149 := value_eq x

theorem signFactor_bne (a b : Bool) : signFactor (a != b) = signFactor a * signFactor b := by
  cases a <;> cases b <;> simp [signFactor]

/-- Dividing by a sign is multiplying by it. -/
theorem div_signFactor (q : ℚ) (neg : Bool) : q / signFactor neg = q * signFactor neg := by
  cases neg <;> simp [signFactor, div_neg]

theorem signFactor_decide_mul_natAbs (k : ℤ) : signFactor (decide (k < 0)) * (k.natAbs : ℚ) = k := by
  rw [Nat.cast_natAbs, Int.cast_abs]
  rcases lt_or_ge k 0 with h | h
  · have hq : (k : ℚ) < 0 := by exact_mod_cast h
    simp [signFactor, h, abs_of_neg hq]
  · have hq : (0 : ℚ) ≤ k := by exact_mod_cast h
    simp [signFactor, not_lt.2 h, abs_of_nonneg hq]

theorem mag_ne_zero_of_value_ne_zero {x : F32} (h : x.value ≠ 0) : x.mag ≠ 0 := by
  intro h0
  simp [value_eq, h0] at h

/-! ### The exact negation -/

theorem neg_toNat_mod (x : F32) : x.neg.toNat % 2 ^ 31 = x.toNat % 2 ^ 31 := by
  rw [neg, BitVec.toNat_xor, Nat.xor_mod_two_pow]
  simp

theorem sign_neg (x : F32) : x.neg.sign = !x.sign := by
  simp [neg, sign]

theorem isFinite_neg {x : F32} (h : x.isFinite = true) : x.neg.isFinite = true := by
  rwa [isFinite_iff, neg_toNat_mod, ← isFinite_iff]

theorem value_neg (x : F32) : x.neg.value = -x.value := by
  rw [value_eq, value_eq, mag_eq, mag_eq, neg_toNat_mod, sign_neg]
  cases x.sign <;> simp [neg_div]

/-! ### The operations -/

/-- A zero of either sign is the rounded value 0. -/
theorem zero_roundsTo (neg : Bool) : RoundsTo 0 (zero neg) := by
  have hz : round neg 0 1 = zero neg := by rw [round, show roundMag 0 1 = 0 by decide, zero]
  simpa [hz] using round_roundsTo neg 0 1 Nat.one_pos

/-- A whole number of units is rounded with its own sign. -/
theorem round_int_roundsTo (k : ℤ) : RoundsTo ((k : ℚ) / 2 ^ 149) (round (decide (k < 0)) k.natAbs 1) := by
  have h := round_roundsTo (decide (k < 0)) k.natAbs 1 Nat.one_pos
  rwa [Nat.cast_one, div_one, signFactor_decide_mul_natAbs] at h

theorem addAs_roundsTo (p : Prim) {x y : F32} (hx : x.isFinite = true) (hy : y.isFinite = true) :
    RoundsTo (x.value + y.value) (addAs p x y) := by
  have hsum : x.value + y.value = ((x.units + y.units : ℤ) : ℚ) / 2 ^ 149 := by
    rw [value, value, ← add_div, Int.cast_add]
  simp only [addAs, isNaN_eq_false_of_isFinite hx, isNaN_eq_false_of_isFinite hy, isInf_eq_false_of_isFinite hx,
    isInf_eq_false_of_isFinite hy, Bool.or_self, Bool.false_eq_true, if_false, hsum]
  by_cases hk : x.units + y.units = 0
  · rw [if_pos hk, hk, Int.cast_zero, zero_div]
    exact zero_roundsTo _
  · rw [if_neg hk]
    exact round_int_roundsTo _

theorem sub_roundsTo {x y : F32} (hx : x.isFinite = true) (hy : y.isFinite = true) :
    RoundsTo (x.value - y.value) (sub x y) := by
  rw [sub_eq_add_neg, ← value_neg]
  exact addAs_roundsTo .sub hx (isFinite_neg hy)

theorem mul_roundsTo {x y : F32} (hx : x.isFinite = true) (hy : y.isFinite = true) :
    RoundsTo (x.value * y.value) (mul x y) := by
  have hmul : mul x y = round (x.sign != y.sign) (x.mag * y.mag) (2 ^ 149) := by
    simp [mul, isNaN_eq_false_of_isFinite, isInf_eq_false_of_isFinite, hx, hy]
  have hval : x.value * y.value =
      signFactor (x.sign != y.sign) * (((x.mag * y.mag : ℕ) : ℚ) / ((2 ^ 149 : ℕ) : ℚ)) / 2 ^ 149 := by
    rw [value_eq_signFactor, value_eq_signFactor, signFactor_bne]
    push_cast
    ring
  rw [hmul, hval]
  exact round_roundsTo _ _ _ (by positivity)

theorem div_roundsTo {x y : F32} (hx : x.isFinite = true) (hy : y.isFinite = true) (h0 : y.value ≠ 0) :
    RoundsTo (x.value / y.value) (div x y) := by
  have hm := mag_ne_zero_of_value_ne_zero h0
  have hdiv : div x y = round (x.sign != y.sign) (x.mag * 2 ^ 149) y.mag := by
    simp [div, isNaN_eq_false_of_isFinite, isInf_eq_false_of_isFinite, hx, hy, hm]
  have hval : x.value / y.value =
      signFactor (x.sign != y.sign) * (((x.mag * 2 ^ 149 : ℕ) : ℚ) / (y.mag : ℚ)) / 2 ^ 149 := by
    rw [value_eq_signFactor, value_eq_signFactor, signFactor_bne, div_div_div_cancel_right₀ (by positivity),
      mul_comm (signFactor y.sign), ← div_div, div_signFactor]
    push_cast
    ring
  rw [hdiv, hval]
  exact round_roundsTo _ _ _ (Nat.pos_of_ne_zero hm)

/-- Settles O51: sum and difference round a whole number of units, product and quotient a fraction of them. -/
theorem arithmeticRoundsToNearestEven : Obligations.ArithmeticRoundsToNearestEven := by
  intro x y hx hy
  exact ⟨addAs_roundsTo .add hx hy, sub_roundsTo hx hy, mul_roundsTo hx hy, div_roundsTo hx hy⟩

end Sys2Proof.F32
end

section
/-! PROOFS. What one step can do to the engine, said once: the operations a step applies, and what each does to the
voice slots. The step invariants of 10_state are derived from it. -/

namespace Sys2Proof.Machine

/-! ### What a step can do to the engine -/

/-- Everything one step can do to the engine under the parameters `P`: nothing, one operation of `ENGINE.apply` with
operands that are numbers (43_engine R180), one sample (R186), or the construction of another engine (70_reset R260). -/
inductive EngineStep (P : Params F32) (e : Engine F32) : Engine F32 → Prop where
  | same : EngineStep P e e
  | noteOn (n : Fin 255) : EngineStep P e (e.noteOn num P n)
  | noteOff (n : Fin 255) : EngineStep P e (e.noteOff num n)
  | setMasterVolume (v : F32) (hv : F32.isFinite v = true) : EngineStep P e (e.setMasterVolume num v)
  | setAdsr (a d u r : F32) (h : ∀ x ∈ [a, d, u, r], F32.isFinite x = true) : EngineStep P e (e.setAdsr num a d u r)
  | setWaveform (w : Waveform F32) (hw : w.isFinite num = true) : EngineStep P e (e.setWaveform num w)
  | setFilter (f : Option (FilterType F32)) (hf : f.all (FilterType.isFinite num) = true) :
    EngineStep P e (e.setFilter num P f)
  | sample : EngineStep P e (e.nextSample num P).2
  | new (sr : F32) (w : Waveform F32) (f : Option (FilterType F32)) (h : admissibleNew num P sr w f = true) :
    EngineStep P e (Engine.new num P sr w f)

/-- A message form with payloads leaves the engine, or applies its operation to payloads that are numbers. -/
theorem onPayloads_engine_of {Q : Engine F32 → Prop} {ws : List Word}
    {f : NumOps F32 → Params F32 → Engine F32 → Engine F32} {s : State} (hs : Q s.engine)
    (hf : (∀ w ∈ ws, F32.isFinite w = true) → Q (f num s.config s.engine)) : Q (onPayloads ws f s).engine := by
  by_cases h : ∀ w ∈ ws, F32.isFinite w = true
  · rw [onPayloads_of_finite h]
    exact hf h
  · push Not at h
    obtain ⟨w, hw, hn⟩ := h
    rwa [onPayloads_of_not_finite hw (eq_false_of_ne_true hn)]

/-- Every message is one operation of the engine, or none. -/
theorem engineStep_message (i : Instr) (s : State) : EngineStep s.config s.engine (engineAfter i s) := by
  cases i
  case noteOn note =>
    cases note with
    | none => exact .same
    | id n => exact .noteOn n
  case noteOff note =>
    cases note with
    | none => exact .same
    | id n => exact .noteOff n
  case setMasterVolume v => exact onPayloads_engine_of .same fun h => .setMasterVolume v (h v (by simp))
  case setAdsr a d u r => exact onPayloads_engine_of .same fun h => .setAdsr a d u r h
  case setWaveformSine => exact .setWaveform .sine rfl
  case setWaveformSquare pw => exact onPayloads_engine_of .same fun h => .setWaveform (.square pw) (h pw (by simp))
  case setWaveformSawtooth => exact .setWaveform .sawtooth rfl
  case setWaveformTriangle c => exact onPayloads_engine_of .same fun h => .setWaveform (.triangle c) (h c (by simp))
  case setFilterNone => exact .setFilter none rfl
  case setFilterOnePole fc => exact onPayloads_engine_of .same fun h => .setFilter (some (.onePole fc)) (h fc (by simp))
  case setFilterTwoPole fc q =>
    refine onPayloads_engine_of .same fun h => .setFilter (some (.twoPole fc q)) ?_
    simpa [FilterType.isFinite, num_isFinite] using h
  all_goals exact .same

theorem engineStep_of_rendererStep {s s' : State} (h : rendererStep s = .next s') :
    s'.config = s.config ∧ EngineStep s.config s.engine s'.engine := by
  rcases rendererStep_cases s with ⟨-, e⟩ | ⟨_, m, _, -, -, -, e⟩ | ⟨_, -, -, -, e⟩ | ⟨_, -, -, -, e⟩ |
    ⟨_, -, -, -, e⟩ <;> obtain rfl := Host.Outcome.next.inj (e.symm.trans h) <;> refine ⟨rfl, ?_⟩
  case inr.inl => exact engineStep_message (decode m) s
  case inr.inr.inr.inl => exact .sample
  all_goals exact .same

theorem engineStep_of_takeTurn {t : Turn} {s s' : State} (h : takeTurn t s = .next s') :
    s'.config = s.config ∧ EngineStep s.config s.engine s'.engine := by
  rcases takeTurn_cases h with ⟨m, -, rfl⟩ | ⟨len, -, -, -, rfl⟩ | ⟨sr, w, f, -, -, ha, rfl⟩ | ⟨-, -, rfl⟩ | ⟨-, hr⟩
  case inr.inr.inl => exact ⟨rfl, .new sr w f ha⟩
  case inr.inr.inr.inr => exact engineStep_of_rendererStep hr
  all_goals exact ⟨rfl, .same⟩

/-- Every step keeps the configuration and does to the engine one of the things listed. -/
theorem engineStep_of_step {s s' : State} (h : step s = .next s') :
    s'.config = s.config ∧ EngineStep s.config s.engine s'.engine := by
  cases ht : s.turns with
  | nil => exact engineStep_of_rendererStep (step_of_nil ht ▸ h)
  | cons t ts => exact engineStep_of_takeTurn (s := s.setTurns ts) (step_of_cons ht ▸ h)

/-! ### The operations slot by slot -/

/-- An operation on a slot that neither activates it nor changes its note. -/
def KeepsSlot (f : Voice F32 → Voice F32) : Prop :=
  ∀ v, (f v).active = true → v.active = true ∧ (f v).note = v.note

/-- The slot after its part of a sample (43_engine R186). -/
def tickedVoice (P : Params F32) (v : Voice F32) : Voice F32 := (Engine.tickVoice num P v).1

theorem Engine.nextSample_voices {P : Params F32} {e : Engine F32} (h : num.eq e.masterVolume num.zero = false) :
    (e.nextSample num P).2.voices = mapSlots (tickedVoice P) e.voices := by
  ext1 i hi
  exact (Engine.nextSample_slot num P e h ⟨i, hi⟩).trans (getElem_mapSlots (tickedVoice P) e.voices ⟨i, hi⟩).symm

/-- A sample mutes, or ticks every slot; the other registers stay (R185, R186). -/
theorem Engine.nextSample_cases (P : Params F32) (e : Engine F32) :
    (e.nextSample num P).2 = e ∨ (e.nextSample num P).2 = { e with voices := mapSlots (tickedVoice P) e.voices } := by
  cases h : num.eq e.masterVolume num.zero with
  | true => exact .inl (congrArg Prod.snd (Engine.nextSample_of_mute num P e h))
  | false => exact .inr (Engine.nextSample_voices (P := P) h ▸ Engine.nextSample_frame num P e)

/-- Everything the tick of an active slot can do: the voice falls silent and is freed, or it sounds on (R186). -/
theorem tickedVoice_cases (P : Params F32) {v : Voice F32} (hv : v.active = true) :
    tickedVoice P v = { v with envelope := v.envelope.nextSample num P, active := false } ∨
    tickedVoice P v =
      { v with
        envelope := v.envelope.nextSample num P
        oscillator := v.oscillator.advance num P
        filter := v.filter.map (VoiceFilter.process num (v.oscillator.output num P)) } := by
  unfold tickedVoice Engine.tickVoice
  rw [if_pos hv]
  dsimp only
  split
  · exact .inl rfl
  · exact .inr rfl

/-- An inactive slot is not ticked. -/
theorem tickedVoice_of_inactive (P : Params F32) {v : Voice F32} (hv : v.active = false) : tickedVoice P v = v := by
  simp [tickedVoice, Engine.tickVoice, hv]

/-- An operation on the slots that pass a test keeps every slot when it keeps those. -/
theorem keepsSlot_ite {c : Voice F32 → Bool} {f : Voice F32 → Voice F32} (hf : KeepsSlot f) :
    KeepsSlot (fun v => if c v then f v else v) := by
  intro v
  dsimp only
  split
  · exact hf v
  · exact fun h => ⟨h, rfl⟩

theorem keepsSlot_releaseVoice (n : Fin 255) : KeepsSlot (Engine.releaseVoice num n) :=
  keepsSlot_ite fun _ h => ⟨h, rfl⟩

theorem keepsSlot_adsrVoice (a d u r : F32) : KeepsSlot (Engine.adsrVoice num a d u r) :=
  keepsSlot_ite fun _ h => ⟨h, rfl⟩

theorem keepsSlot_waveVoice (w : Waveform F32) : KeepsSlot (Engine.waveVoice w) :=
  keepsSlot_ite fun _ h => ⟨h, rfl⟩

theorem keepsSlot_filterVoice (P : Params F32) (sr : F32) (f : Option (FilterType F32)) :
    KeepsSlot (Engine.filterVoice num P sr f) :=
  keepsSlot_ite fun _ h => ⟨h, rfl⟩

theorem keepsSlot_tickedVoice (P : Params F32) : KeepsSlot (tickedVoice P) := by
  intro v h
  cases hv : v.active with
  | false => rw [tickedVoice_of_inactive P hv, hv] at h; cases h
  | true =>
    rcases tickedVoice_cases P hv with e | e
    · rw [e] at h; cases h
    · exact ⟨rfl, by rw [e]⟩

/-- A slot that carries a note is active (R181). -/
theorem active_of_carrier {n : Fin 255} {vs : Vector (Voice F32) 16} {i : Fin 16}
    (h : findSlot (Voice.carries n) vs = some i) : vs[i].active = true := by
  have hc := ((findSlot_eq_some _ _ _).1 h).1
  rw [Voice.carries, Bool.and_eq_true] at hc
  exact hc.1

/-- `NoteOn` writes the voices alone (R181 to R183). -/
theorem Engine.noteOn_frame (P : Params F32) (n : Fin 255) (e : Engine F32) :
    ∃ vs, e.noteOn num P n = { e with voices := vs } := by
  rcases Engine.noteOn_cases num P n e with ⟨i, -, he⟩ | ⟨i, -, -, he⟩ | ⟨-, -, he⟩
  · exact ⟨_, he⟩
  · exact ⟨_, he⟩
  · exact ⟨e.voices, he⟩

theorem Engine.new_slot (P : Params F32) (sr : F32) (w : Waveform F32) (f : Option (FilterType F32)) (i : Fin 16) :
    (Engine.new num P sr w f).voices[i] = Voice.unused num := by
  simp [Engine.new]

theorem Engine.new_inactive (P : Params F32) (sr : F32) (w : Waveform F32) (f : Option (FilterType F32)) (i : Fin 16) :
    (Engine.new num P sr w f).voices[i].active = false := by
  rw [Engine.new_slot]; rfl

/-- Every active slot has a property. -/
def ActiveSlots (Q : Voice F32 → Prop) (vs : Vector (Voice F32) 16) : Prop :=
  ∀ i : Fin 16, vs[i].active = true → Q vs[i]

theorem ActiveSlots.mapSlots {Q R : Voice F32 → Prop} {vs : Vector (Voice F32) 16} {f : Voice F32 → Voice F32}
    (h : ActiveSlots Q vs) (hf : KeepsSlot f) (hQ : ∀ v, v.active = true → Q v → R (f v)) :
    ActiveSlots R (mapSlots f vs) := by
  intro i hi
  rw [getElem_mapSlots] at hi ⊢
  have hv := (hf _ hi).1
  exact hQ _ hv (h i hv)

theorem ActiveSlots.set {Q : Voice F32 → Prop} {vs : Vector (Voice F32) 16} (h : ActiveSlots Q vs) (i : Fin 16)
    {v : Voice F32} (hv : Q v) : ActiveSlots Q (vs.set i v) := by
  intro j hj
  rw [getElem_set_slot] at hj ⊢
  by_cases hij : i = j
  · rwa [if_pos hij]
  · rw [if_neg hij] at hj ⊢
    exact h j hj

theorem activeSlots_new (Q : Voice F32 → Prop) (P : Params F32) (sr : F32) (w : Waveform F32)
    (f : Option (FilterType F32)) : ActiveSlots Q (Engine.new num P sr w f).voices := by
  intro i hi
  rw [Engine.new_inactive] at hi
  cases hi

end Sys2Proof.Machine
end

section
/-! PROOFS. Every step keeps the notes of active slots distinct (10_state R23, 43_engine R196 a to c). -/

namespace Sys2Proof.Machine

/-- Slots that are active with their old notes, and active before, keep the notes distinct. -/
theorem NotesDistinct.of_slots {e e' : Engine F32} (h : NotesDistinct e)
    (hs : ∀ i : Fin 16, e'.voices[i].active = true → e.voices[i].active = true ∧ e'.voices[i].note = e.voices[i].note) :
    NotesDistinct e' := by
  obtain ⟨hid, hinj⟩ := h
  refine ⟨fun i hi => ?_, fun i j hi hj hij => ?_⟩
  · obtain ⟨ha, hn⟩ := hs i hi
    exact hn ▸ hid i ha
  · obtain ⟨hai, hni⟩ := hs i hi
    obtain ⟨haj, hnj⟩ := hs j hj
    exact hinj i j hai haj (hni ▸ hnj ▸ hij)

theorem NotesDistinct.mapSlots {e e' : Engine F32} {f : Voice F32 → Voice F32} (h : NotesDistinct e)
    (hf : KeepsSlot f) (he : e'.voices = mapSlots f e.voices) : NotesDistinct e' :=
  h.of_slots fun i hi => by
    rw [he, getElem_mapSlots] at hi ⊢
    exact hf _ hi

/-- A retrigger changes neither activity nor note (R181). -/
theorem NotesDistinct.retrigger {e : Engine F32} (h : NotesDistinct e) (i : Fin 16) :
    NotesDistinct { e with voices := e.voices.set i (Engine.retrigger num e e.voices[i]) } :=
  h.of_slots fun j hj => by
    simp only [getElem_set_slot] at hj ⊢
    by_cases hij : i = j
    · subst hij
      rw [if_pos rfl] at hj ⊢
      exact ⟨hj, rfl⟩
    · rw [if_neg hij] at hj ⊢
      exact ⟨hj, rfl⟩

/-- An allocation brings in a note that no active slot carries (R182). -/
theorem NotesDistinct.allocate {P : Params F32} {e : Engine F32} {n : Fin 255} (h : NotesDistinct e) (i : Fin 16)
    (hn : findSlot (Voice.carries n) e.voices = none) :
    NotesDistinct { e with voices := e.voices.set i (Engine.freshVoice num P e n) } := by
  obtain ⟨hid, hinj⟩ := h
  have hnew : ∀ j : Fin 16, e.voices[j].active = true → e.voices[j].note ≠ .id n := by
    intro j ha hj
    have hc := (findSlot_eq_none _ _).1 hn j
    rw [Voice.carries, ha, hj, beq_self_eq_true] at hc
    cases hc
  have hid : ActiveSlots (fun v => ∃ k, v.note = .id k) e.voices := hid
  refine ⟨hid.set i ⟨n, rfl⟩, fun j k hj hk hjk => ?_⟩
  simp only [getElem_set_slot] at hj hk hjk
  split_ifs at hj hk hjk with hij hik hik
  · exact hij.symm.trans hik
  · exact absurd hjk.symm (hnew k hk)
  · exact absurd hjk (hnew j hj)
  · exact hinj j k hj hk hjk

theorem notesDistinct_new (P : Params F32) (sr : F32) (w : Waveform F32) (f : Option (FilterType F32)) :
    NotesDistinct (Engine.new num P sr w f) :=
  ⟨activeSlots_new (fun v => ∃ n, v.note = .id n) P sr w f,
    fun i _ hi => by rw [Engine.new_inactive] at hi; cases hi⟩

theorem NotesDistinct.engineStep {P : Params F32} {e e' : Engine F32} (h : NotesDistinct e)
    (hs : EngineStep P e e') : NotesDistinct e' := by
  cases hs with
  | same => exact h
  | noteOn n =>
    rcases Engine.noteOn_cases num P n e with ⟨i, -, he⟩ | ⟨i, hn, -, he⟩ | ⟨-, -, he⟩ <;> rw [he]
    · exact h.retrigger i
    · exact h.allocate i hn
    · exact h
  | noteOff n => exact h.mapSlots (keepsSlot_releaseVoice n) rfl
  | setMasterVolume v => exact h
  | setAdsr a d u r => exact h.mapSlots (keepsSlot_adsrVoice _ _ _ _) rfl
  | setWaveform w => exact h.mapSlots (keepsSlot_waveVoice _) rfl
  | setFilter f => exact h.mapSlots (keepsSlot_filterVoice _ _ _) rfl
  | sample =>
    rcases Engine.nextSample_cases P e with he | he <;> rw [he]
    · exact h
    · exact h.mapSlots (keepsSlot_tickedVoice P) rfl
  | new sr w f => exact notesDistinct_new P sr w f

/-- Settles O45: only an allocation brings in a note, and no active slot carries that one. -/
theorem stepsKeepNotesDistinct : Obligations.StepsKeepNotesDistinct :=
  fun _ _ h hs => h.engineStep (engineStep_of_step hs).2

end Sys2Proof.Machine
end

section
/-! PROOFS. Every step keeps gate, stage and level of an active voice in agreement (10_state R32 b, c). -/

namespace Sys2Proof.Machine

namespace Envelope

variable {E : Envelope F32}

/-- An envelope whose gate is up and which is not Idle is sound. -/
theorem gateSound_of_gate (hg : E.gate = true) (hs : E.state ≠ .idle) : E.GateSound :=
  ⟨fun h => Bool.noConfusion (hg.symm.trans h), fun h => absurd h hs⟩

/-- An envelope in Release, or in Idle at level 0, is sound. -/
theorem gateSound_of_released (h : E.state = .release ∨ (E.state = .idle ∧ E.level = num.zero)) : E.GateSound := by
  rcases h with h | ⟨h, hl⟩
  · exact ⟨fun _ => .inl h, fun h' => EnvState.noConfusion (h.symm.trans h')⟩
  · exact ⟨fun _ => .inr h, fun _ => hl⟩

theorem gateSound_noteOn (E : Envelope F32) : (E.noteOn num).GateSound := by
  refine gateSound_of_gate (noteOn_gate num E) ?_
  rcases noteOn_state num E with h | h | h <;> simp [h]

theorem gateSound_enterRelease (E : Envelope F32) : (enterRelease num E).GateSound :=
  gateSound_of_released (enterRelease_cases num E)

theorem GateSound.noteOff (h : E.GateSound) : (E.noteOff num).GateSound := by
  unfold Envelope.noteOff
  split
  case h_1 hs => exact gateSound_of_released (.inl hs)
  case h_2 hs => exact gateSound_of_released (.inr ⟨hs, h.2 hs⟩)
  all_goals exact gateSound_enterRelease _

theorem gateSound_completeDecay (E : Envelope F32) : (completeDecay num E).GateSound := by
  unfold completeDecay
  split
  case isTrue hg => exact gateSound_of_gate hg (by simp)
  case isFalse => exact gateSound_enterRelease E

theorem gateSound_completeAttack (E : Envelope F32) : (completeAttack num E).GateSound := by
  unfold completeAttack
  split
  case isTrue hg =>
    obtain ⟨-, -, -, -, -, hgate⟩ := constants_fields (enterDecay_constants num E)
    refine gateSound_of_gate (hgate.trans hg) ?_
    rcases enterDecay_gate num E hg with h | h <;> simp [h]
  case isFalse => exact gateSound_enterRelease E

theorem GateSound.complete (h : E.GateSound) : (complete num E).GateSound := by
  unfold Envelope.complete
  split
  · exact gateSound_completeAttack E
  · exact gateSound_completeDecay E
  · exact gateSound_of_released (.inr ⟨rfl, rfl⟩)
  · exact h
  · exact h

/-- Outside Idle the level is free. -/
theorem GateSound.setLevel (h : E.GateSound) (hs : E.state ≠ .idle) (x : F32) :
    ({ E with level := x } : Envelope F32).GateSound :=
  ⟨h.1, fun h' => absurd h' hs⟩

theorem GateSound.advance (h : E.GateSound) (hs : E.state ≠ .idle) : (advance num E).GateSound := by
  unfold Envelope.advance
  dsimp only
  split
  · exact (h.setLevel hs _).complete
  · exact h.setLevel hs _

theorem GateSound.tick (h : E.GateSound) : (tick num E).GateSound := by
  unfold Envelope.tick
  split
  case h_1 => exact ⟨h.1, fun _ => rfl⟩
  case h_2 hs =>
    split
    · exact h.setLevel (by simp [hs]) _
    · exact gateSound_enterRelease E
  all_goals exact h.advance (by simp [*])

/-- A tick keeps gate and level sound: the flush writes level 0 (R118). -/
theorem GateSound.nextSample (h : E.GateSound) (P : Params F32) : (E.nextSample num P).GateSound := by
  unfold Envelope.nextSample flush
  split
  · exact ⟨h.tick.1, fun _ => rfl⟩
  · exact h.tick

end Envelope

theorem gatesSound_iff (e : Engine F32) :
    GatesSound e ↔ ActiveSlots (fun v => v.envelope.GateSound) e.voices := Iff.rfl

theorem GatesSound.engineStep {P : Params F32} {e e' : Engine F32} (h : GatesSound e) (hs : EngineStep P e e') :
    GatesSound e' := by
  rw [gatesSound_iff] at h ⊢
  cases hs with
  | same => exact h
  | noteOn n =>
    rcases Engine.noteOn_cases num P n e with ⟨i, -, he⟩ | ⟨i, -, -, he⟩ | ⟨-, -, he⟩ <;> rw [he]
    · exact h.set i (Envelope.gateSound_noteOn _)
    · exact h.set i (Envelope.gateSound_noteOn _)
    · exact h
  | noteOff n =>
    refine h.mapSlots (keepsSlot_releaseVoice n) fun v _ hv => ?_
    unfold Engine.releaseVoice
    split
    · exact hv.noteOff
    · exact hv
  | setMasterVolume v => exact h
  | setAdsr a d u r =>
    refine h.mapSlots (keepsSlot_adsrVoice _ _ _ _) fun v ha hv => ?_
    rw [Engine.adsrVoice, if_pos ha]
    dsimp only
    split
    · exact Envelope.gateSound_noteOn _
    · exact hv
  | setWaveform w =>
    refine h.mapSlots (keepsSlot_waveVoice _) fun v ha hv => ?_
    rwa [Engine.waveVoice, if_pos ha]
  | setFilter f =>
    refine h.mapSlots (keepsSlot_filterVoice _ _ _) fun v ha hv => ?_
    rwa [Engine.filterVoice, if_pos ha]
  | sample =>
    rcases Engine.nextSample_cases P e with he | he <;> rw [he]
    · exact h
    · refine h.mapSlots (keepsSlot_tickedVoice P) fun v ha hv => ?_
      rcases tickedVoice_cases P ha with hv' | hv' <;> rw [hv'] <;> exact hv.nextSample P
  | new sr w f => exact activeSlots_new _ P sr w f

/-- Settles O47: a stage entry with the gate down ends in Release or Idle, and Idle is entered at level 0. -/
theorem stepsKeepGatesSound : Obligations.StepsKeepGatesSound :=
  fun _ _ h hs => h.engineStep (engineStep_of_step hs).2

end Sys2Proof.Machine
end

section
/-! PROOFS. Every step keeps the global registers in range and the active voices in step with them (10_state R44 to
R46, 43_engine R196 d, e). -/

namespace Sys2Proof.Machine

/-- The constants of an envelope are the global ones (R46). -/
def EnvelopeTracks (e : Engine F32) (E : Envelope F32) : Prop :=
  E.attack = e.attack ∧ E.decay = e.decay ∧ E.sustain = e.sustain ∧ E.release = e.release ∧ E.sampleRate = e.sampleRate

/-- A voice tracks the globals: what `VoicesTrackGlobals` asks of each active slot (R46). -/
def VoiceTracks (P : Params F32) (e : Engine F32) (v : Voice F32) : Prop :=
  v.oscillator.waveform = e.waveform ∧ FilterTracks P e.sampleRate v.filter e.filterType ∧ EnvelopeTracks e v.envelope

theorem voicesTrackGlobals_iff (P : Params F32) (e : Engine F32) :
    VoicesTrackGlobals P e ↔ ActiveSlots (VoiceTracks P e) e.voices := Iff.rfl

/-- An operation of the envelope that writes no constant but the gate keeps it in step. -/
theorem EnvelopeTracks.of_constants {e : Engine F32} {E F : Envelope F32} {g : Bool} (h : EnvelopeTracks e E)
    (hF : F.constants = { E with gate := g }.constants) : EnvelopeTracks e F := by
  obtain ⟨ha, hd, hs, hr, hsr, -⟩ := Envelope.constants_fields hF
  obtain ⟨ha', hd', hs', hr', hsr'⟩ := h
  exact ⟨ha.trans ha', hd.trans hd', hs.trans hs', hr.trans hr', hsr.trans hsr'⟩

theorem envelopeTracks_startEnvelope (e : Engine F32) : EnvelopeTracks e (Engine.startEnvelope num e) :=
  EnvelopeTracks.of_constants ⟨rfl, rfl, rfl, rfl, rfl⟩ (Envelope.noteOn_constants num _)

theorem EnvelopeTracks.nextSample {e : Engine F32} {E : Envelope F32} (h : EnvelopeTracks e E) (P : Params F32) :
    EnvelopeTracks e (E.nextSample num P) :=
  h.of_constants (g := E.gate) (Envelope.nextSample_constants num P E)

/-- A filter made under the global type matches it (R182). -/
theorem filterTracks_new {P : Params F32} {sr : F32} {ft : Option (FilterType F32)}
    (h : ∀ t, ft = some t → t.InRange P sr) :
    FilterTracks P sr (ft.map (fun t => VoiceFilter.new num P t sr)) ft := by
  cases ft with
  | none => trivial
  | some t => exact VoiceFilter.new_matches (h t rfl)

/-- After `ENGINE.set_filter` the filter matches the new type, whether it was there before or not (R195). -/
theorem FilterTracks.filterAfter {P : Params F32} {sr : F32} {F : Option (VoiceFilter F32)}
    {old ft : Option (FilterType F32)} (h : FilterTracks P sr F old) (hr : ∀ t, ft = some t → t.InRange P sr) :
    FilterTracks P sr (Engine.filterAfter num P sr ft F) ft := by
  cases ft with
  | none => trivial
  | some t =>
    cases F with
    | none => exact VoiceFilter.new_matches (hr t rfl)
    | some F =>
      cases old with
      | none => cases h
      | some old => exact VoiceFilter.setType_matches (hr t rfl) (VoiceFilter.Matches.rate_eq h)

/-- A global filter type with finite parameters is stored in range (R195). -/
theorem clampedFilter_inRange {P : Params F32} {sr : F32} {f : Option (FilterType F32)}
    (hA : admissible num P sr = true) (hf : f.all (FilterType.isFinite num) = true) :
    ∀ t, f.map (FilterType.clamped num P sr) = some t → t.InRange P sr := by
  cases f with
  | none => intro t ht; cases ht
  | some ft =>
    rintro t ⟨⟩
    exact FilterType.clamped_inRange hA hf

/-- The parts of the constraints on `new` (70_reset R262). -/
theorem admissibleNew_iff (P : Params F32) (sr : F32) (w : Waveform F32) (f : Option (FilterType F32)) :
    admissibleNew num P sr w f = true ↔
      admissible num P sr = true ∧ w.isFinite num = true ∧ f.all (FilterType.isFinite num) = true := by
  simp [admissibleNew, and_assoc]

theorem GlobalsInRange.filter_inRange {P : Params F32} {e : Engine F32} (h : GlobalsInRange P e) :
    ∀ t, e.filterType = some t → t.InRange P e.sampleRate := by
  obtain ⟨-, -, -, -, -, -, hf⟩ := h
  exact hf

/-- No step but the construction of an engine changes the sample rate, and that one is admissible (R262). -/
theorem admissible_engineStep {P : Params F32} {e e' : Engine F32} (h : admissible num P e.sampleRate = true)
    (hs : EngineStep P e e') : admissible num P e'.sampleRate = true := by
  cases hs with
  | noteOn n =>
    obtain ⟨vs, he⟩ := Engine.noteOn_frame P n e
    rwa [he]
  | sample =>
    rw [Engine.nextSample_frame]
    exact h
  | new sr w f hA => exact ((admissibleNew_iff P sr w f).1 hA).1
  | _ => exact h

/-- A new engine has its registers in range (70_reset R260). -/
theorem globalsInRange_new {P : Params F32} {sr : F32} {w : Waveform F32} {f : Option (FilterType F32)}
    (h : admissibleNew num P sr w f = true) : GlobalsInRange P (Engine.new num P sr w f) := by
  obtain ⟨hA, hw, hf⟩ := (admissibleNew_iff P sr w f).1 h
  have hI := hA
  simp only [admissible, inUnit, nonneg, Bool.and_eq_true] at hI
  obtain ⟨⟨⟨⟨⟨⟨-, hv⟩, -, ha⟩, -, hd⟩, hs⟩, -, hr⟩, -⟩ := hI
  exact ⟨hv, ha, hd, hr, hs, Waveform.clamped_inRange hw, clampedFilter_inRange hA hf⟩

/-- What a setter stores is a clamp, or was clamped before (R44, R45). -/
theorem GlobalsInRange.engineStep {P : Params F32} {e e' : Engine F32} (h : GlobalsInRange P e)
    (hA : admissible num P e.sampleRate = true) (hs : EngineStep P e e') : GlobalsInRange P e' := by
  have ⟨hv, ha, hd, hr, hu, hw, hf⟩ := h
  cases hs with
  | same => exact h
  | noteOn n =>
    obtain ⟨vs, he⟩ := Engine.noteOn_frame P n e
    rw [he]
    exact h
  | noteOff n => exact h
  | setMasterVolume v hv =>
    exact ⟨(clamp_spec (F32.isNaN_eq_false_of_isFinite hv) (by decide)).2, ha, hd, hr, hu, hw, hf⟩
  | setAdsr a d u r hfin =>
    have hn : ∀ x ∈ [a, d, u, r], F32.isNaN x = false := fun x hx => F32.isNaN_eq_false_of_isFinite (hfin x hx)
    have hmax : ∀ x ∈ [a, d, u, r], F32.le num.zero (num.max x num.zero) = true := fun x hx =>
      (max_spec (hn x hx) (by decide)).2
    have hclamp := (clamp_spec (hn u (by simp)) (hi := num.one) (lo := num.zero) (by decide)).2
    exact ⟨hv, hmax a (by simp), hmax d (by simp), hmax r (by simp), hclamp, hw, hf⟩
  | setWaveform w hfin => exact ⟨hv, ha, hd, hr, hu, Waveform.clamped_inRange hfin, hf⟩
  | setFilter f hfin => exact ⟨hv, ha, hd, hr, hu, hw, clampedFilter_inRange hA hfin⟩
  | sample =>
    rw [Engine.nextSample_frame]
    exact h
  | new sr w f hA => exact globalsInRange_new hA

/-- A setter writes every active voice, and a retrigger or an allocation copies the globals (R46). -/
theorem VoicesTrackGlobals.engineStep {P : Params F32} {e e' : Engine F32} (h : VoicesTrackGlobals P e)
    (hA : admissible num P e.sampleRate = true) (hG : GlobalsInRange P e) (hs : EngineStep P e e') :
    VoicesTrackGlobals P e' := by
  rw [voicesTrackGlobals_iff] at h ⊢
  cases hs with
  | same => exact h
  | noteOn n =>
    rcases Engine.noteOn_cases num P n e with ⟨i, hi, he⟩ | ⟨i, -, -, he⟩ | ⟨-, -, he⟩ <;> rw [he]
    · obtain ⟨hw, hf, -⟩ := h i (active_of_carrier hi)
      exact h.set i ⟨hw, hf.reset, envelopeTracks_startEnvelope e⟩
    · exact h.set i ⟨rfl, filterTracks_new hG.filter_inRange, envelopeTracks_startEnvelope e⟩
    · exact h
  | noteOff n =>
    refine h.mapSlots (keepsSlot_releaseVoice n) fun v _ ⟨hw, hf, hE⟩ => ?_
    unfold Engine.releaseVoice
    split
    · exact ⟨hw, hf, hE.of_constants (Envelope.noteOff_constants num _)⟩
    · exact ⟨hw, hf, hE⟩
  | setMasterVolume v => exact h
  | setAdsr a d u r =>
    refine h.mapSlots (keepsSlot_adsrVoice _ _ _ _) fun v ha ⟨hw, hf, _, _, _, _, hsr⟩ => ?_
    rw [Engine.adsrVoice, if_pos ha]
    refine ⟨hw, hf, ?_⟩
    dsimp only
    split
    · exact EnvelopeTracks.of_constants (E := v.envelope.retune _ _ _ _) ⟨rfl, rfl, rfl, rfl, hsr⟩
        (Envelope.noteOn_constants num _)
    · exact ⟨rfl, rfl, rfl, rfl, hsr⟩
  | setWaveform w =>
    refine h.mapSlots (keepsSlot_waveVoice _) fun v ha ⟨_, hf, hE⟩ => ?_
    rw [Engine.waveVoice, if_pos ha]
    exact ⟨rfl, hf, hE⟩
  | setFilter f hfin =>
    refine h.mapSlots (keepsSlot_filterVoice _ _ _) fun v ha ⟨hw, hf, hE⟩ => ?_
    rw [Engine.filterVoice, if_pos ha]
    exact ⟨hw, hf.filterAfter (clampedFilter_inRange hA hfin), hE⟩
  | sample =>
    rcases Engine.nextSample_cases P e with he | he <;> rw [he]
    · exact h
    · refine h.mapSlots (keepsSlot_tickedVoice P) fun v ha ⟨hw, hf, hE⟩ => ?_
      rcases tickedVoice_cases P ha with hv | hv <;> rw [hv]
      · exact ⟨hw, hf, hE.nextSample P⟩
      · exact ⟨hw, hf.process, hE.nextSample P⟩
  | new sr w f => exact activeSlots_new _ P sr w f

/-- Settles O46: every operation stores clamped values and writes the same values to each active voice. -/
theorem stepsKeepParametersSound : Obligations.StepsKeepParametersSound := by
  intro s s' ⟨hA, hG, hV⟩ hs
  obtain ⟨hc, hstep⟩ := engineStep_of_step hs
  unfold ParametersSound ConfigAdmissible
  rw [hc]
  exact ⟨admissible_engineStep hA hstep, hG.engineStep hA hstep, hV.engineStep hA hG hstep⟩

end Sys2Proof.Machine
end

section
/-! PROOFS. Level, target and sustain of an envelope stay in [0, 1] under exact reals (10_state R32 a). -/

namespace Sys2Proof.NumOps

variable {K : Type} [Field K] [LinearOrder K] [FloorRing K] {sin cos : K → K} {pow : K → K → K}

@[simp] theorem exact_zero : (exact K sin cos pow).zero = 0 := by simp [exact, zero]

@[simp] theorem exact_one : (exact K sin cos pow).one = 1 := by simp [exact, one]

end Sys2Proof.NumOps

namespace Sys2Proof.Machine

namespace Envelope

section
variable {sin cos : ℝ → ℝ} {pow : ℝ → ℝ → ℝ} {E : Envelope ℝ}

theorem LevelSound.sustain_mem (h : E.LevelSound) : 0 ≤ E.sustain ∧ E.sustain ≤ 1 := h.2.2

/-- The level may be set to any value in [0, 1]. -/
theorem LevelSound.setLevel (h : E.LevelSound) {x : ℝ} (hx : 0 ≤ x ∧ x ≤ 1) :
    ({ E with level := x } : Envelope ℝ).LevelSound := ⟨hx, h.2⟩

/-- Level and target may be set to one value in [0, 1]. -/
theorem LevelSound.settle (h : E.LevelSound) {x step : ℝ} {st : EnvState} (hx : 0 ≤ x ∧ x ≤ 1) :
    ({ E with state := st, level := x, target := x, step := step } : Envelope ℝ).LevelSound :=
  ⟨hx, hx, h.sustain_mem⟩

/-- A stage entry towards a target in [0, 1] stays in [0, 1] when the completion behind it does. -/
theorem LevelSound.enterWith (h : E.LevelSound) {st : EnvState} {tgt time : ℝ} {done : Envelope ℝ → Envelope ℝ}
    (ht : 0 ≤ tgt ∧ tgt ≤ 1) (hd : ∀ F : Envelope ℝ, F.LevelSound → (done F).LevelSound) :
    (enterWith (NumOps.exact ℝ sin cos pow) st tgt time done E).LevelSound := by
  rcases enterWith_cases (NumOps.exact ℝ sin cos pow) st tgt time done E with ⟨-, h'⟩ | ⟨-, h'⟩ <;> rw [h']
  · exact hd _ (h.settle ht)
  · exact ⟨h.1, ht, h.sustain_mem⟩

theorem LevelSound.completeRelease (h : E.LevelSound) :
    (completeRelease (NumOps.exact ℝ sin cos pow) E).LevelSound :=
  h.settle (by simp)

theorem LevelSound.enterRelease (h : E.LevelSound) : (enterRelease (NumOps.exact ℝ sin cos pow) E).LevelSound :=
  h.enterWith (by simp) fun _ hF => hF.completeRelease

theorem LevelSound.completeDecay (h : E.LevelSound) : (completeDecay (NumOps.exact ℝ sin cos pow) E).LevelSound := by
  unfold Envelope.completeDecay
  split
  · exact h.settle h.sustain_mem
  · exact h.enterRelease

theorem LevelSound.enterDecay (h : E.LevelSound) : (enterDecay (NumOps.exact ℝ sin cos pow) E).LevelSound :=
  h.enterWith h.sustain_mem fun _ hF => hF.completeDecay

theorem LevelSound.completeAttack (h : E.LevelSound) :
    (completeAttack (NumOps.exact ℝ sin cos pow) E).LevelSound := by
  unfold Envelope.completeAttack
  split
  · exact h.enterDecay
  · exact h.enterRelease

theorem LevelSound.enterAttack (h : E.LevelSound) : (enterAttack (NumOps.exact ℝ sin cos pow) E).LevelSound :=
  h.enterWith (by simp) fun _ hF => hF.completeAttack

theorem LevelSound.complete (h : E.LevelSound) : (complete (NumOps.exact ℝ sin cos pow) E).LevelSound := by
  unfold Envelope.complete
  split
  · exact h.completeAttack
  · exact h.completeDecay
  · exact h.completeRelease
  · exact h
  · exact h

theorem LevelSound.noteOn (h : E.LevelSound) : (E.noteOn (NumOps.exact ℝ sin cos pow)).LevelSound :=
  LevelSound.enterAttack (E := { E with gate := true }) h

theorem LevelSound.noteOff (h : E.LevelSound) : (E.noteOff (NumOps.exact ℝ sin cos pow)).LevelSound := by
  unfold Envelope.noteOff
  split
  · exact h
  · exact h
  all_goals exact LevelSound.enterRelease (E := { E with gate := false }) h

/-- A step that does not reach the target, up or down, stays between level and target (R116, R117). -/
theorem LevelSound.advance (h : E.LevelSound) : (advance (NumOps.exact ℝ sin cos pow) E).LevelSound := by
  have ⟨⟨hl0, hl1⟩, ⟨ht0, ht1⟩, _⟩ := h
  rw [advance_exact]
  split_ifs with hhit
  · exact (h.setLevel ⟨ht0, ht1⟩).complete
  · push Not at hhit
    obtain ⟨hup, hdown⟩ := hhit
    refine h.setLevel ?_
    rcases lt_trichotomy E.step 0 with hneg | hzero | hpos
    · have := hdown hneg
      constructor <;> linarith
    · rw [hzero, add_zero]
      exact ⟨hl0, hl1⟩
    · have := hup hpos
      constructor <;> linarith

theorem LevelSound.tick (h : E.LevelSound) : (tick (NumOps.exact ℝ sin cos pow) E).LevelSound := by
  unfold Envelope.tick
  split
  · exact h.setLevel (by simp)
  · split
    · exact h.setLevel h.sustain_mem
    · exact h.enterRelease
  all_goals exact h.advance

theorem LevelSound.nextSample (h : E.LevelSound) (P : Params ℝ) :
    (E.nextSample (NumOps.exact ℝ sin cos pow) P).LevelSound := by
  rw [Envelope.nextSample, flush_exact]
  split
  · exact h.tick.setLevel (by simp)
  · exact h.tick

end

end Envelope

/-- Settles O25: a stage entry sets level and target to 0, 1 or sustain, and a step stops at the target. -/
theorem exactLevelsStayInUnit : Obligations.ExactLevelsStayInUnit := by
  intro sin cos pow P E h
  refine ⟨h.nextSample P, h.noteOn, h.noteOff, fun a d u r hu0 hu1 => ⟨?_, ?_⟩⟩
  · exact ⟨h.1, h.2.1, hu0, hu1⟩
  · exact ⟨by simp [Envelope.new], by simp [Envelope.new], hu0, hu1⟩

end Sys2Proof.Machine
end

section
/-! PROOFS. The reset state: its values, and that it satisfies the invariants (10_state R55, 43_engine R196). -/

namespace Sys2Proof.Machine

/-- The reset state is a new engine with admissible arguments. -/
theorem reset_admissibleNew : admissibleNew num State.reset.config resetSampleRate .sine none = true := by
  decide +kernel

theorem reset_engine : State.reset.engine = Engine.new num State.reset.config resetSampleRate .sine none := rfl

theorem parametersSound_reset : ParametersSound State.reset :=
  ⟨((admissibleNew_iff _ _ _ _).1 reset_admissibleNew).1, globalsInRange_new reset_admissibleNew,
    (voicesTrackGlobals_iff _ _).2 (activeSlots_new _ _ _ _ _)⟩

theorem renderSound_reset : RenderSound State.reset :=
  ⟨Nat.zero_le _, trivial, fun _ hx => nomatch hx⟩

/-- Settles O49: reset constructs an engine, and a new engine has no active voice and its registers in range. -/
theorem resetSatisfiesEveryInvariant : Obligations.ResetSatisfiesEveryInvariant :=
  ⟨notesDistinct_new _ _ _ _, parametersSound_reset, (gatesSound_iff _).2 (activeSlots_new _ _ _ _ _),
    renderSound_reset⟩

/-- Settles O50: every slot holds the unused voice, and each register its constant. -/
theorem resetLeavesTheStatedValues : Obligations.ResetLeavesTheStatedValues := by
  refine ⟨fun i => ?_, ?_⟩
  · rw [reset_engine, Engine.new_slot]
    exact ⟨rfl, rfl, rfl⟩
  · decide +kernel

end Sys2Proof.Machine
end

section
/-! PROOFS. The byte forms of messages and samples, and that they read back (20_memory R65, 30_encoding R92). -/

namespace Sys2Proof

/-- Reading undoes writing: 20 bytes are all bits of a message. -/
@[simp] theorem Message.ofBytes_toBytes (m : Message) : Message.ofBytes m.toBytes = m :=
  ofLittleEndian_toLittleEndian m (by norm_num)

@[simp] theorem Message.length_toBytes (m : Message) : m.toBytes.length = 20 := length_toLittleEndian 20 m

theorem decodeBytes_of_short {bs : List Byte} (h : bs.length < 20) : decodeBytes bs = .error .truncated := if_pos h

/-- A stream that begins with the bytes of a message: they are consumed, and nothing else is. -/
theorem decodeBytes_toBytes_append (m : Message) (rest : List Byte) :
    decodeBytes (m.toBytes ++ rest) = .ok (decode m, rest) := by
  have hlen : ¬ (m.toBytes ++ rest).length < 20 := by simp
  rw [decodeBytes, if_neg hlen, List.take_left' m.length_toBytes, List.drop_left' m.length_toBytes,
    Message.ofBytes_toBytes]

/-- Settles O7: the 20 bytes of a word split off a stream and assemble to the word again. -/
theorem serialisedMessagesDecodeBack : Obligations.SerialisedMessagesDecodeBack :=
  ⟨fun m rest => ⟨m.length_toBytes, fun _ hk => getElem?_toLittleEndian m hk, decodeBytes_toBytes_append m rest⟩,
    fun _ h => decodeBytes_of_short h⟩

end Sys2Proof

namespace Sys2Proof.Machine

@[simp] theorem length_sampleBytes (x : F32) : (sampleBytes x).length = 4 := length_toLittleEndian 4 (F32.enc x)

theorem getElem?_sampleBytes (x : F32) {k : ℕ} (h : k < 4) :
    (sampleBytes x)[k]? = some (BitVec.extractLsb' (8 * k) 8 x) :=
  getElem?_toLittleEndian (F32.enc x) h

theorem sampleOfBytes_sampleBytes (x : F32) : sampleOfBytes (sampleBytes x) = x :=
  ofLittleEndian_toLittleEndian (F32.enc x) (by norm_num)

/-- The bytes of a list of samples stand in blocks of 4. -/
theorem length_flatMap_sampleBytes (xs : List F32) : (xs.flatMap sampleBytes).length = 4 * xs.length := by
  simp [List.length_flatMap, mul_comm]

/-- Byte `k` of block `i` is byte `k` of sample `i`. -/
theorem getElem?_flatMap_sampleBytes {xs : List F32} {i k : ℕ} {x : F32} (hx : xs[i]? = some x) (hk : k < 4) :
    (xs.flatMap sampleBytes)[4 * i + k]? = (sampleBytes x)[k]? := by
  induction xs generalizing i with
  | nil => simp at hx
  | cons y ys ih =>
    rw [List.flatMap_cons]
    cases i with
    | zero =>
      obtain rfl : y = x := by simpa using hx
      rw [List.getElem?_append_left (by simpa using hk), mul_zero, zero_add]
    | succ i =>
      rw [List.getElem?_append_right (by rw [length_sampleBytes]; omega), length_sampleBytes,
        show 4 * (i + 1) + k - 4 = 4 * i + k by omega]
      exact ih (by simpa using hx)

/-- Settles O52: each sample is its 4 bytes, and the output buffer is their concatenation. -/
theorem serialisedSamplesReadBack : Obligations.SerialisedSamplesReadBack :=
  ⟨fun x => ⟨length_sampleBytes x, fun _ hk => getElem?_sampleBytes x hk, sampleOfBytes_sampleBytes x⟩,
    fun s _ _ x hx hk => ⟨length_flatMap_sampleBytes s.out,
      (getElem?_flatMap_sampleBytes hx hk).trans (getElem?_sampleBytes x hk)⟩⟩

end Sys2Proof.Machine
end

section
/-! PROOFS. A block in generation does not depend on the producers (20_memory R72, 45_render R224). -/

namespace Sys2Proof.Machine

/-- The state with all that producers write taken away: the bus, the latest push result and the schedule. -/
def State.alone (s : State) : State := { s with bus := [], pushResult := none, turns := [] }

/-- The drain has ended: samples are generated, or no block is in progress. -/
def State.PastDrain (s : State) : Prop := ∀ q, s.seq = some q → q.phase = .gen

/-- States that agree in configuration, engine, sequencer and output are the same without their producers. -/
theorem State.alone_eq_iff (s t : State) :
    s.alone = t.alone ↔ s.config = t.config ∧ s.engine = t.engine ∧ s.seq = t.seq ∧ s.out = t.out := by
  simp [State.alone]

@[simp] theorem pushTurn_alone (m : Message) (s : State) : (pushTurn m s).alone = s.alone := rfl

@[simp] theorem setTurns_alone (s : State) (ts : List Turn) : (s.setTurns ts).alone = s.alone := rfl

/-- A sequencer that stays keeps its phase. -/
theorem Sequencer.phase_of_settled {q r : Sequencer} (h : q.settled = some r) : r.phase = q.phase := by
  rcases q.settled_cases with ⟨-, hs⟩ | ⟨-, hs⟩ <;> rw [hs] at h <;> cases h
  rfl

/-- The renderer's step between blocks (10_state R50). -/
theorem rendererStep_of_idle {s : State} (hs : s.seq = none) : rendererStep s = .next s := by
  simp [rendererStep, hs]

/-- The renderer's step with a sample to generate (R6 d). -/
theorem rendererStep_of_sample {s : State} {q : Sequencer} (hs : s.seq = some q) (hp : q.phase = .gen)
    (hi : q.i < q.len) : rendererStep s = .next (generateSample q s) := by
  simp [rendererStep, hs, hp, hi]

/-- The renderer's step with every sample generated. -/
theorem rendererStep_of_complete {s : State} {q : Sequencer} (hs : s.seq = some q) (hp : q.phase = .gen)
    (hi : ¬ q.i < q.len) : rendererStep s = .next (s.setSeq none) := by
  simp [rendererStep, hs, hp, hi]

/-- Past the drain the renderer's step reads and writes nothing of the producers': it commutes with taking them away
(R224), and the schedule stays. -/
theorem rendererStep_alone {s : State} (h : s.PastDrain) :
    ∃ s', rendererStep s = .next s' ∧ rendererStep s.alone = .next s'.alone ∧ s'.PastDrain ∧ s'.turns = s.turns := by
  cases hs : s.seq with
  | none => exact ⟨s, rendererStep_of_idle hs, rendererStep_of_idle (s := s.alone) hs, h, rfl⟩
  | some q =>
    have hp : q.phase = .gen := h q hs
    by_cases hi : q.i < q.len
    · exact ⟨generateSample q s, rendererStep_of_sample hs hp hi, rendererStep_of_sample (s := s.alone) hs hp hi,
        fun _ hr => (Sequencer.phase_of_settled hr).trans hp, rfl⟩
    · exact ⟨s.setSeq none, rendererStep_of_complete hs hp hi, rendererStep_of_complete (s := s.alone) hs hp hi,
        by simp [State.PastDrain], rfl⟩

/-- A schedule of pushes and renderer turns runs to its end, and leaves of the block what as many steps of the
renderer alone leave. -/
theorem steps_alone {s : State} {ts : List Turn} (ht : s.turns = ts) (h : s.PastDrain)
    (hl : ∀ t ∈ ts, t.isLocal = true) :
    ∃ s', steps ts.length s = .next s' ∧ steps (rendererTurns ts) s.alone = .next s'.alone := by
  induction ts generalizing s with
  | nil => exact ⟨s, rfl, rfl⟩
  | cons t ts ih =>
    obtain ⟨hlocal, hl'⟩ := List.forall_mem_cons.1 hl
    have hstep := step_of_cons ht
    cases t with
    | push m =>
      obtain ⟨s', hrun, halone⟩ := ih (s := pushTurn m (s.setTurns ts)) rfl h hl'
      have hcount : rendererTurns (.push m :: ts) = rendererTurns ts := by simp [rendererTurns]
      exact ⟨s', (steps_succ _ hstep).trans hrun, by rwa [hcount]⟩
    | renderer =>
      obtain ⟨u, hu, hua, hpast, hturns⟩ := rendererStep_alone (s := s.setTurns ts) h
      obtain ⟨s', hrun, halone⟩ := ih hturns hpast hl'
      have hcount : rendererTurns (.renderer :: ts) = rendererTurns ts + 1 := by simp [rendererTurns]
      rw [setTurns_alone] at hua
      exact ⟨s', (steps_succ _ (hstep.trans hu)).trans hrun,
        by rwa [hcount, steps_succ _ ((step_of_nil rfl).trans hua)]⟩
    | renderBlock _ => cases hlocal
    | newEngine _ _ _ => cases hlocal
    | newBus => cases hlocal

/-- Settles O40: both runs are the renderer's own run from the state they share without the producers. -/
theorem pushesDuringGenerationChangeNoSample : Obligations.PushesDuringGenerationChangeNoSample := by
  intro s₁ s₂ hc he hq ho hpast hl₁ hl₂ hn
  have hsame : s₁.alone = s₂.alone := (State.alone_eq_iff s₁ s₂).2 ⟨hc, he, hq, ho⟩
  obtain ⟨t₁, hrun₁, halone₁⟩ := steps_alone rfl hpast hl₁
  obtain ⟨t₂, hrun₂, halone₂⟩ := steps_alone rfl (fun q hs => hpast q (hq.trans hs)) hl₂
  rw [hsame, hn, halone₂] at halone₁
  exact ⟨t₁, t₂, hrun₁, hrun₂, (State.alone_eq_iff t₁ t₂).1 (Host.Outcome.next.inj halone₁).symm⟩

end Sys2Proof.Machine
end

section
/-! PROOFS. Decoding and encoding (30_encoding R84, R88, R91): what decoding reads of a word, and that encoding writes
the same fields and nothing else. -/

namespace Sys2Proof

/-! ### The note field -/

theorem Note.ofBits_of_lt {b : BitVec 8} (h : b.toNat < 255) : Note.ofBits b = .id ⟨b.toNat, h⟩ := dif_pos h

/-- The note a field reads as is stored as that field (30_encoding R84). -/
theorem Note.toBits_ofBits (b : BitVec 8) : (Note.ofBits b).toBits = b := by
  by_cases h : b.toNat < 255
  · simp [Note.ofBits_of_lt h, Note.toBits]
  · obtain rfl : b = 255 := BitVec.eq_of_toNat_eq (show b.toNat = 255 by omega)
    rfl

/-- Settles O6: an identity is stored as its number, and reading and storing undo each other. -/
theorem noteFieldIsTheIdentity : Obligations.NoteFieldIsTheIdentity :=
  ⟨rfl, fun n => Note.ofBits_toBits (.id n), Note.toBits_ofBits⟩

/-! ### Masks -/

/-- Nothing stands outside a mask exactly when the mask keeps everything. -/
theorem and_not_eq_zero_iff {w : Nat} (x u : BitVec w) : x &&& ~~~u = 0 ↔ x &&& u = x := by
  rw [BitVec.eq_of_getElem_eq_iff, BitVec.eq_of_getElem_eq_iff]
  refine forall₂_congr fun i hi => ?_
  cases hx : x[i] <;> cases hu : u[i] <;> simp [hx, hu]

/-- Words that agree under a mask are the same when masked. -/
theorem and_eq_and_of_xor_and_eq_zero {w : Nat} {x y u : BitVec w} (h : (x ^^^ y) &&& u = 0) :
    y &&& u = x &&& u := by
  rw [BitVec.eq_of_getElem_eq_iff] at h ⊢
  intro i hi
  have hbit := h i hi
  cases hu : u[i] <;> simp_all

namespace Message

/-- A word is its fields (30_encoding R80, R81). -/
theorem eq_append_fields (m : Message) :
    m = m.p3 ++ m.p2 ++ m.p1 ++ m.p0 ++ (m.rsv ++ m.note ++ m.sub ++ m.op) := by
  simp only [p3, p2, p1, p0, rsv, note, sub, op, BitVec.extractLsb'_append_extractLsb'_eq_extractLsb',
    BitVec.extractLsb'_eq_self]

theorem and_append_fields (m : Message) (op sub : BitVec 4) (note : BitVec 8) (rsv : BitVec 16)
    (p0 p1 p2 p3 : Word) :
    m &&& (p3 ++ p2 ++ p1 ++ p0 ++ (rsv ++ note ++ sub ++ op)) =
      (m.p3 &&& p3) ++ (m.p2 &&& p2) ++ (m.p1 &&& p1) ++ (m.p0 &&& p0) ++
        ((m.rsv &&& rsv) ++ (m.note &&& note) ++ (m.sub &&& sub) ++ (m.op &&& op)) := by
  simp only [← BitVec.and_append]
  rw [← m.eq_append_fields]

/-- Masking a word masks each field; `RSV` is in no mask. -/
theorem and_ofFields (m : Message) (op sub : BitVec 4) (note : BitVec 8) (p0 p1 p2 p3 : Word) :
    m &&& ofFields op sub note p0 p1 p2 p3 =
      ofFields (m.op &&& op) (m.sub &&& sub) (m.note &&& note) (m.p0 &&& p0) (m.p1 &&& p1) (m.p2 &&& p2)
        (m.p3 &&& p3) :=
  (m.and_append_fields op sub note 0#16 p0 p1 p2 p3).trans (by rw [BitVec.and_zero]; rfl)

end Message

/-- A field masked with all ones is the field. -/
theorem and_ones4 (x : BitVec 4) : x &&& 15#4 = x := BitVec.and_allOnes
theorem and_ones8 (x : BitVec 8) : x &&& 255#8 = x := BitVec.and_allOnes
theorem and_ones32 (x : Word) : x &&& 0xFFFFFFFF#32 = x := BitVec.and_allOnes

/-! ### What decoding reads -/

/-- The fields of a word that the form `i` uses are those of `i` (30_encoding R82, R83, R87, R89). -/
def Message.HoldsFieldsOf (m : Message) : Instr → Prop
  | .noteOn n => m.op = 0 ∧ m.note = n.toBits
  | .noteOff n => m.op = 1 ∧ m.note = n.toBits
  | .setMasterVolume v => m.op = 2 ∧ m.p0 = v
  | .setAdsr a d s r => m.op = 3 ∧ m.p0 = a ∧ m.p1 = d ∧ m.p2 = s ∧ m.p3 = r
  | .setWaveformSine => m.op = 4 ∧ m.sub = 0
  | .setWaveformSquare pw => m.op = 4 ∧ m.sub = 1 ∧ m.p0 = pw
  | .setWaveformSawtooth => m.op = 4 ∧ m.sub = 2
  | .setWaveformTriangle c => m.op = 4 ∧ m.sub = 3 ∧ m.p0 = c
  | .setFilterNone => m.op = 5 ∧ m.sub = 0
  | .setFilterOnePole fc => m.op = 5 ∧ m.sub = 1 ∧ m.p0 = fc
  | .setFilterTwoPole fc q => m.op = 5 ∧ m.sub = 2 ∧ m.p0 = fc ∧ m.p1 = q
  | .reservedOp6to7 => 6 ≤ m.op.toNat ∧ m.op.toNat < 8
  | .reservedOp8to15 => 8 ≤ m.op.toNat
  | .reservedWaveSub4to7 => m.op = 4 ∧ 4 ≤ m.sub.toNat ∧ m.sub.toNat < 8
  | .reservedWaveSub8to15 => m.op = 4 ∧ 8 ≤ m.sub.toNat
  | .reservedFilterSub3 => m.op = 5 ∧ m.sub = 3
  | .reservedFilterSub4to7 => m.op = 5 ∧ 4 ≤ m.sub.toNat ∧ m.sub.toNat < 8
  | .reservedFilterSub8to15 => m.op = 5 ∧ 8 ≤ m.sub.toNat

namespace Message

theorem holdsFieldsOf_decodeWaveform {m : Message} (hop : m.op = 4) : m.HoldsFieldsOf (decodeWaveform m) := by
  unfold decodeWaveform
  split
  case h_1 h => exact ⟨hop, BitVec.eq_of_toNat_eq h⟩
  case h_2 h => exact ⟨hop, BitVec.eq_of_toNat_eq h, rfl⟩
  case h_3 h => exact ⟨hop, BitVec.eq_of_toNat_eq h⟩
  case h_4 h => exact ⟨hop, BitVec.eq_of_toNat_eq h, rfl⟩
  case h_5 =>
    -- No literal of the match applies: rewritten to `¬`, for `omega`.
    simp only [imp_false] at *
    split
    case isTrue h8 => exact ⟨hop, by omega, h8⟩
    case isFalse h8 => exact ⟨hop, by omega⟩

theorem holdsFieldsOf_decodeFilter {m : Message} (hop : m.op = 5) : m.HoldsFieldsOf (decodeFilter m) := by
  unfold decodeFilter
  split
  case h_1 h => exact ⟨hop, BitVec.eq_of_toNat_eq h⟩
  case h_2 h => exact ⟨hop, BitVec.eq_of_toNat_eq h, rfl⟩
  case h_3 h => exact ⟨hop, BitVec.eq_of_toNat_eq h, rfl, rfl⟩
  case h_4 h => exact ⟨hop, BitVec.eq_of_toNat_eq h⟩
  case h_5 =>
    simp only [imp_false] at *
    split
    case isTrue h8 => exact ⟨hop, by omega, h8⟩
    case isFalse h8 => exact ⟨hop, by omega⟩

/-- A word holds the fields of what it decodes to. -/
theorem holdsFieldsOf_decode (m : Message) : m.HoldsFieldsOf (decode m) := by
  unfold decode
  split
  case h_1 h => exact ⟨BitVec.eq_of_toNat_eq h, (Note.toBits_ofBits m.note).symm⟩
  case h_2 h => exact ⟨BitVec.eq_of_toNat_eq h, (Note.toBits_ofBits m.note).symm⟩
  case h_3 h => exact ⟨BitVec.eq_of_toNat_eq h, rfl⟩
  case h_4 h => exact ⟨BitVec.eq_of_toNat_eq h, rfl, rfl, rfl, rfl⟩
  case h_5 h => exact holdsFieldsOf_decodeWaveform (BitVec.eq_of_toNat_eq h)
  case h_6 h => exact holdsFieldsOf_decodeFilter (BitVec.eq_of_toNat_eq h)
  case h_7 =>
    simp only [imp_false] at *
    split
    case isTrue h8 => exact ⟨by omega, h8⟩
    case isFalse h8 => exact Nat.le_of_not_lt h8

theorem decode_of_six_le {m : Message} (h : 6 ≤ m.op.toNat) :
    decode m = if m.op.toNat < 8 then .reservedOp6to7 else .reservedOp8to15 := by
  unfold decode
  split
  case h_7 => rfl
  all_goals omega

theorem decodeWaveform_of_four_le {m : Message} (h : 4 ≤ m.sub.toNat) :
    decodeWaveform m = if m.sub.toNat < 8 then .reservedWaveSub4to7 else .reservedWaveSub8to15 := by
  unfold decodeWaveform
  split
  case h_5 => rfl
  all_goals omega

theorem decodeFilter_of_four_le {m : Message} (h : 4 ≤ m.sub.toNat) :
    decodeFilter m = if m.sub.toNat < 8 then .reservedFilterSub4to7 else .reservedFilterSub8to15 := by
  unfold decodeFilter
  split
  case h_5 => rfl
  all_goals omega

theorem decode_of_op_eq_four {m : Message} (h : m.op = 4) : decode m = decodeWaveform m := by simp [decode, h]

theorem decode_of_op_eq_five {m : Message} (h : m.op = 5) : decode m = decodeFilter m := by simp [decode, h]

/-- A word decodes to every message whose fields it holds. -/
theorem HoldsFieldsOf.decode_eq {m : Message} {i : Instr} (h : m.HoldsFieldsOf i) : decode m = i := by
  cases i
  case reservedOp6to7 =>
    obtain ⟨h6, h8⟩ := h
    rw [decode_of_six_le h6, if_pos h8]
  case reservedOp8to15 =>
    have h8 : 8 ≤ m.op.toNat := h
    rw [decode_of_six_le (by omega), if_neg (by omega)]
  case reservedWaveSub4to7 =>
    obtain ⟨hop, h4, h8⟩ := h
    rw [decode_of_op_eq_four hop, decodeWaveform_of_four_le h4, if_pos h8]
  case reservedWaveSub8to15 =>
    obtain ⟨hop, h8⟩ := h
    rw [decode_of_op_eq_four hop, decodeWaveform_of_four_le (by omega), if_neg (by omega)]
  case reservedFilterSub4to7 =>
    obtain ⟨hop, h4, h8⟩ := h
    rw [decode_of_op_eq_five hop, decodeFilter_of_four_le h4, if_pos h8]
  case reservedFilterSub8to15 =>
    obtain ⟨hop, h8⟩ := h
    rw [decode_of_op_eq_five hop, decodeFilter_of_four_le (by omega), if_neg (by omega)]
  all_goals
    simp only [HoldsFieldsOf] at h
    simp [decode, decodeWaveform, decodeFilter, h, Note.ofBits_toBits]

/-- Decoding gives the one message whose fields a word holds. -/
theorem decode_eq_iff (m : Message) (i : Instr) : decode m = i ↔ m.HoldsFieldsOf i :=
  ⟨fun h => h ▸ m.holdsFieldsOf_decode, HoldsFieldsOf.decode_eq⟩

/-- The mask of a form keeps the fields the form uses. -/
theorem holdsFieldsOf_and_usedBits (m : Message) (i : Instr) :
    HoldsFieldsOf (m &&& i.usedBits) i ↔ m.HoldsFieldsOf i := by
  cases i <;>
    simp only [HoldsFieldsOf, Instr.usedBits, and_ofFields, op_ofFields, sub_ofFields, note_ofFields, p0_ofFields,
      p1_ofFields, p2_ofFields, p3_ofFields, BitVec.ofNat_eq_ofNat, and_ones4, and_ones8, and_ones32]

/-! ### What encoding writes -/

theorem holdsFieldsOf_of_encode {i : Instr} {k : Message} (h : encode i = some k) : k.HoldsFieldsOf i := by
  cases i <;> cases h <;>
    simp only [HoldsFieldsOf, op_ofFields, sub_ofFields, note_ofFields, p0_ofFields, p1_ofFields, p2_ofFields,
      p3_ofFields, and_self]

/-- The encoding of a message is every word that holds its fields, with the fields its form does not use masked
away (30_encoding R91). -/
theorem HoldsFieldsOf.and_usedBits {m k : Message} {i : Instr} (h : m.HoldsFieldsOf i) (hk : encode i = some k) :
    m &&& i.usedBits = k := by
  cases i <;> cases hk
  all_goals
    simp only [HoldsFieldsOf] at h
    simp only [Instr.usedBits, and_ofFields, h, BitVec.ofNat_eq_ofNat, BitVec.and_zero, and_ones4, and_ones8,
      and_ones32]

/-- A word that `encode` gives is the mask of itself. -/
theorem and_usedBits_of_encode {i : Instr} {k : Message} (h : encode i = some k) : k &&& i.usedBits = k :=
  (holdsFieldsOf_of_encode h).and_usedBits h

theorem canonical_iff (m : Message) : m.canonical = true ↔ m &&& (decode m).usedBits = m := by
  rw [canonical, beq_iff_eq]
  exact and_not_eq_zero_iff m _

end Message

theorem exists_encode_iff (i : Instr) : (∃ k, encode i = some k) ↔ i.reserved = false := by
  cases i <;> simp [encode, Instr.reserved]

theorem decode_of_encode {i : Instr} {k : Message} (h : encode i = some k) : decode k = i :=
  (Message.holdsFieldsOf_of_encode h).decode_eq

/-- Settles O1: a word and the encoding of what it decodes to differ by the form's mask, which is the identity on
canonical words and on encodings. -/
theorem encodedMessagesDecodeBack : Obligations.EncodedMessagesDecodeBack := by
  refine ⟨fun i hwf => ?_, fun m => ⟨fun h => ?_, fun ⟨hcan, hres⟩ => ?_⟩⟩
  · have hres : i.reserved = false := by
      rw [Instr.wellFormed, Bool.and_eq_true, Bool.not_eq_true'] at hwf
      exact hwf.1
    obtain ⟨k, hk⟩ := (exists_encode_iff i).2 hres
    have hdec : decode k = i := decode_of_encode hk
    refine ⟨k, hk, hdec, k.canonical_iff.2 ?_⟩
    rw [hdec]
    exact Message.and_usedBits_of_encode hk
  · exact ⟨m.canonical_iff.2 (Message.and_usedBits_of_encode h), (exists_encode_iff _).1 ⟨m, h⟩⟩
  · obtain ⟨k, hk⟩ := (exists_encode_iff _).2 hres
    rw [hk, ← m.holdsFieldsOf_decode.and_usedBits hk, m.canonical_iff.1 hcan]

/-- Settles O2: a word and its mask hold the same fields, and an encoding is its own mask. -/
theorem unusedFieldsAreIgnored : Obligations.UnusedFieldsAreIgnored := by
  refine ⟨fun m m' hagree => ?_, fun i m h => (and_not_eq_zero_iff m _).2 (Message.and_usedBits_of_encode h)⟩
  rw [Message.decode_eq_iff, ← Message.holdsFieldsOf_and_usedBits, and_eq_and_of_xor_and_eq_zero hagree,
    Message.holdsFieldsOf_and_usedBits]
  exact m.holdsFieldsOf_decode

end Sys2Proof
end

section
/-! PROOFS. The rows of the opcode table partition the headers, and decoding follows them (30_encoding R82, R83,
R89). -/

namespace Sys2Proof

namespace Message

/-- The low byte of a header holds `OP` and `SUB` (30_encoding R81). -/
theorem header_and_lowByte (m : Message) : m.header &&& 0xFF#32 = 0#16 ++ 0#8 ++ m.sub ++ m.op := by
  have hfields : m.header = m.rsv ++ m.note ++ m.sub ++ m.op := by
    simp only [header, rsv, note, sub, op, BitVec.extractLsb'_append_extractLsb'_eq_extractLsb']
  have hmask : 0xFF#32 = 0#16 ++ 0#8 ++ 15#4 ++ 15#4 := rfl
  rw [hfields, hmask, BitVec.and_append, BitVec.and_append, BitVec.and_append, BitVec.and_zero, BitVec.and_zero,
    and_ones4, and_ones4]

/-- The form a word decodes to depends on `OP` and `SUB` alone. -/
theorem mnemonic_decode_congr {m m' : Message} (hop : m.op = m'.op) (hsub : m.sub = m'.sub) :
    (decode m).mnemonic = (decode m').mnemonic := by
  simp only [decode, decodeWaveform, decodeFilter, hop, hsub]
  split
  case h_5 => split <;> rfl
  case h_6 => split <;> rfl
  all_goals rfl

end Message

theorem lowByte_and_mask_of_mem {r : OpcodeRow} (h : r ∈ opcodeTable) : 0xFF#32 &&& r.mask = r.mask := by
  revert r
  decide

/-- A row of the table looks at `OP` and `SUB` alone. -/
theorem selects_header_congr {r : OpcodeRow} (hr : r ∈ opcodeTable) {m m' : Message} (hop : m.op = m'.op)
    (hsub : m.sub = m'.sub) : r.selects m.header = r.selects m'.header := by
  have hlow : m.header &&& r.mask = m'.header &&& r.mask := by
    rw [← lowByte_and_mask_of_mem hr, ← BitVec.and_assoc, ← BitVec.and_assoc, m.header_and_lowByte,
      m'.header_and_lowByte, hop, hsub]
  rw [OpcodeRow.selects, OpcodeRow.selects, hlow]

/-- The 256 values of `OP` and `SUB`, with every other field 0. -/
theorem one_row_of_op_sub : ∀ op sub : BitVec 4,
    (opcodeTable.filter (fun r => r.selects (Message.ofFields op sub 0 0 0 0 0).header)).map OpcodeRow.mnemonic =
      [(decode (Message.ofFields op sub 0 0 0 0 0)).mnemonic] := by
  decide +kernel

/-- Settles O3: rows and form depend on `OP` and `SUB` alone. -/
theorem everyHeaderSelectsOneRow : Obligations.EveryHeaderSelectsOneRow := by
  intro m
  have hop := Message.op_ofFields m.op m.sub 0 0 0 0 0
  have hsub := Message.sub_ofFields m.op m.sub 0 0 0 0 0
  have hrows := List.filter_congr fun r hr => selects_header_congr (r := r) hr hop.symm hsub.symm
  rw [hrows, Message.mnemonic_decode_congr hop.symm hsub.symm]
  exact one_row_of_op_sub m.op m.sub

end Sys2Proof
end

section
/-! PROOFS. The worked encodings (30_encoding R93), and the reserved ones: queued, popped and discarded (R89). -/

namespace Sys2Proof

/-- Which fields make a word reserved (30_encoding R89). -/
theorem Message.HoldsFieldsOf.reserved_iff {m : Message} {i : Instr} (h : m.HoldsFieldsOf i) :
    i.reserved = true ↔
      (6 ≤ m.op.toNat ∨ (m.op = 4 ∧ 4 ≤ m.sub.toNat) ∨ (m.op = 5 ∧ 3 ≤ m.sub.toNat)) := by
  simp only [Message.HoldsFieldsOf] at h
  cases i
  case reservedOp6to7 => exact iff_of_true rfl (.inl h.1)
  case reservedOp8to15 => exact iff_of_true rfl (.inl (Nat.le_trans (by decide) h))
  case reservedWaveSub4to7 => exact iff_of_true rfl (.inr (.inl ⟨h.1, h.2.1⟩))
  case reservedWaveSub8to15 => exact iff_of_true rfl (.inr (.inl ⟨h.1, Nat.le_trans (by decide) h.2⟩))
  case reservedFilterSub3 => exact iff_of_true rfl (.inr (.inr ⟨h.1, by simp [h.2]⟩))
  case reservedFilterSub4to7 => exact iff_of_true rfl (.inr (.inr ⟨h.1, Nat.le_of_succ_le h.2.1⟩))
  case reservedFilterSub8to15 => exact iff_of_true rfl (.inr (.inr ⟨h.1, Nat.le_trans (by decide) h.2⟩))
  all_goals simp [Instr.reserved, h]

/-- Settles O5: a header 6 holds the reserved `OP` whatever the payload. -/
theorem workedEncodingsDecode : Obligations.WorkedEncodingsDecode := by
  refine ⟨by decide, fun p0 p1 p2 p3 => Message.HoldsFieldsOf.decode_eq ?_⟩
  have hop : Message.op (p3 ++ p2 ++ p1 ++ p0 ++ 0x00000006#32) = 6 := Message.op_ofFields 6 0 0 p0 p1 p2 p3
  simp [Message.HoldsFieldsOf, hop]

namespace Machine

theorem exec_of_reserved {i : Instr} (h : i.reserved = true) (s : State) : exec i s = .next s := by
  cases i <;> cases h <;> rfl

/-- A push onto a bus with room (44_bus R210). -/
theorem step_of_push {m : Message} {s : State} {ts : List Turn} (ht : s.turns = .push m :: ts)
    (hroom : s.bus.length ≠ busCapacity) :
    step s = .next { s with turns := ts, bus := s.bus ++ [m], pushResult := some 1 } := by
  rw [step_of_cons ht, takeTurn, pushTurn, State.setTurns_bus, Bus.push_of_room hroom]
  rfl

/-- Settles O4: a reserved word is pushed like any other, and applying it is the identity. -/
theorem reservedWordsAreConsumed : Obligations.ReservedWordsAreConsumed := by
  refine ⟨fun m => m.holdsFieldsOf_decode.reserved_iff, fun i s hr => exec_of_reserved hr s, ?_, ?_⟩
  · intro m s ts _ ht hroom
    exact step_of_push ht (Nat.ne_of_lt hroom)
  · intro m rest s q ts hr hmoves hq hp hb
    rw [step_of_rendererMoves hmoves, rendererStep_of_drain (s := s.setTurns ts) hq hp hb, exec_of_reserved hr]
    rfl

end Machine
end Sys2Proof
end

section
/-! PROOFS. The stages an envelope passes through, in any `NUM` (40_envelope R109, R112 to R116, R118, R121, R123). -/

namespace Sys2Proof.Machine

/-- A tick may stay in its stage (R109). -/
theorem EnvState.self_mem_tickTo (st : EnvState) : st ∈ st.tickTo := by
  cases st <;> decide

namespace Envelope

variable {α : Type} (N : NumOps α)

/-! ### Entering and completing a stage -/

/-- A stage of no length, or entered at its target, completes at once (R112). -/
theorem enterWith_instant {st : EnvState} {tgt time : α} {done : Envelope α → Envelope α} {E : Envelope α}
    (h : (N.le time N.zero || N.eq E.level tgt) = true) :
    enterWith N st tgt time done E = done { E with state := st, target := tgt, level := tgt, step := N.zero } :=
  if_pos h

/-- Any other stage is entered with a constant step (R112). -/
theorem enterWith_timed {st : EnvState} {tgt time : α} {done : Envelope α → Envelope α} {E : Envelope α}
    (h : (N.le time N.zero || N.eq E.level tgt) = false) :
    enterWith N st tgt time done E =
      { E with state := st, target := tgt, step := N.div (N.sub tgt E.level) (N.mul time E.sampleRate) } :=
  if_neg (by simp [h])

/-- With the gate up Decay completes into Sustain at the sustain level (R113). -/
theorem completeDecay_of_gate {E : Envelope α} (hg : E.gate = true) :
    completeDecay N E = { E with state := .sustain, target := E.sustain, step := N.zero, level := E.sustain } :=
  if_pos hg

theorem completeAttack_of_gate {E : Envelope α} (hg : E.gate = true) : completeAttack N E = enterDecay N E :=
  if_pos hg

/-- With the gate up an instant Decay is a Sustain (R113). -/
theorem enterDecay_instant {E : Envelope α} (hg : E.gate = true)
    (h : (N.le E.decay N.zero || N.eq E.level E.sustain) = true) :
    enterDecay N E = { E with state := .sustain, target := E.sustain, step := N.zero, level := E.sustain } := by
  rw [enterDecay, enterWith_instant N h]
  exact completeDecay_of_gate N hg

/-- Everything the advance of a moving stage can do (R116): complete the stage at its target, or move the level. -/
theorem advance_cases (E : Envelope α) :
    advance N E = complete N { E with level := E.target } ∨
      advance N E = { E with level := N.add E.level E.step } := by
  unfold advance
  dsimp only
  split
  · exact .inl rfl
  · exact .inr rfl

/-- The stages in which a tick advances the level (R116). -/
def Moving (st : EnvState) : Prop := st = .attack ∨ st = .decay ∨ st = .release

theorem tick_of_moving {E : Envelope α} (hs : Moving E.state) : tick N E = advance N E := by
  unfold tick
  rcases hs with hs | hs | hs <;> rw [hs]

/-- A tick in Sustain with the gate up re-asserts the sustain level (R116, 10_state R32 d). -/
theorem tick_sustain {E : Envelope α} (hg : E.gate = true) (hs : E.state = .sustain) :
    tick N E = { E with level := E.sustain } := by
  unfold tick
  rw [hs]
  exact if_pos hg

@[simp] theorem flush_state (eps : α) (E : Envelope α) : (flush N eps E).state = E.state := by
  unfold flush
  split <;> rfl

@[simp] theorem nextSample_state (P : Params α) (E : Envelope α) : (E.nextSample N P).state = (tick N E).state :=
  flush_state N P.envEps (tick N E)

/-! ### The stages reached -/

theorem enterRelease_state (E : Envelope α) : (enterRelease N E).state ∈ [.release, .idle] := by
  rcases enterRelease_cases N E with h | ⟨h, -⟩ <;> simp [h]

theorem completeDecay_state (E : Envelope α) : (completeDecay N E).state ∈ [.sustain, .release, .idle] := by
  unfold completeDecay
  split
  · exact List.mem_cons_self
  · exact List.mem_cons_of_mem _ (enterRelease_state N E)

theorem enterDecay_state (E : Envelope α) : (enterDecay N E).state ∈ [.decay, .sustain, .release, .idle] := by
  rcases enterWith_cases N .decay E.sustain E.decay (completeDecay N) E with ⟨-, h⟩ | ⟨-, h⟩ <;> rw [enterDecay, h]
  · exact List.mem_cons_of_mem _ (completeDecay_state N _)
  · exact List.mem_cons_self

theorem completeAttack_state (E : Envelope α) :
    (completeAttack N E).state ∈ [.decay, .sustain, .release, .idle] := by
  unfold completeAttack
  split
  · exact enterDecay_state N E
  · exact List.mem_cons_of_mem _ (List.mem_cons_of_mem _ (enterRelease_state N E))

/-- A completion leads along the graph (R109, R113). -/
theorem complete_state (E : Envelope α) : (complete N E).state ∈ E.state.tickTo := by
  unfold complete
  split
  case h_1 hs => rw [hs]; exact List.mem_cons_of_mem _ (completeAttack_state N E)
  case h_2 hs => rw [hs]; exact List.mem_cons_of_mem _ (completeDecay_state N E)
  case h_3 hs => rw [hs]; exact List.mem_cons_of_mem _ List.mem_cons_self
  all_goals exact EnvState.self_mem_tickTo _

theorem advance_state (E : Envelope α) : (advance N E).state ∈ E.state.tickTo := by
  rcases advance_cases N E with h | h <;> rw [h]
  · exact complete_state N { E with level := E.target }
  · exact EnvState.self_mem_tickTo _

theorem tick_state (E : Envelope α) : (tick N E).state ∈ E.state.tickTo := by
  unfold tick
  split
  case h_1 => exact EnvState.self_mem_tickTo _
  case h_2 hs =>
    split
    · exact EnvState.self_mem_tickTo _
    · rw [hs]; exact List.mem_cons_of_mem _ (enterRelease_state N E)
  all_goals exact advance_state N E

/-- The stages of a note held (R109). -/
def Held (st : EnvState) : Prop := st = .attack ∨ st = .decay ∨ st = .sustain

/-- With the gate up a completion stays among the stages of a note held (R113). -/
theorem complete_held {E : Envelope α} (hg : E.gate = true) (hs : Held E.state) : Held (complete N E).state := by
  unfold complete
  rcases hs with hs | hs | hs <;> rw [hs]
  · rw [completeAttack_of_gate N hg]
    exact .inr (enterDecay_gate N E hg)
  · rw [completeDecay_of_gate N hg]
    exact .inr (.inr rfl)
  · exact .inr (.inr hs)

theorem advance_held {E : Envelope α} (hg : E.gate = true) (hs : Held E.state) : Held (advance N E).state := by
  rcases advance_cases N E with h | h <;> rw [h]
  · exact complete_held N (E := { E with level := E.target }) hg hs
  · exact hs

theorem tick_held {E : Envelope α} (hg : E.gate = true) (hs : Held E.state) : Held (tick N E).state := by
  by_cases hsus : E.state = .sustain
  · rw [tick_sustain N hg hsus]
    exact hs
  · have hmov : Moving E.state := hs.imp_right fun h => .inl (h.resolve_right hsus)
    rw [tick_of_moving N hmov]
    exact advance_held N hg hs

/-- In Release and Idle `ENV.note_off` writes the gate alone (R114). -/
theorem noteOff_of_released {E : Envelope α} (hs : E.state = .release ∨ E.state = .idle) :
    E.noteOff N = { E with gate := false } := by
  unfold noteOff
  rcases hs with hs | hs <;> rw [hs]

/-- In the stages of a note held `ENV.note_off` enters Release (R114). -/
theorem noteOff_of_held {E : Envelope α} (hs : Held E.state) :
    E.noteOff N = enterRelease N { E with gate := false } := by
  unfold noteOff
  rcases hs with hs | hs | hs <;> rw [hs]

theorem released_or_held (st : EnvState) : (st = .release ∨ st = .idle) ∨ Held st := by
  cases st <;> simp [Held]

/-- `ENV.note_off` ends in Release or Idle (R114). -/
theorem noteOff_state (E : Envelope α) : (E.noteOff N).state = .release ∨ (E.noteOff N).state = .idle := by
  rcases released_or_held E.state with hs | hs
  · rw [noteOff_of_released N hs]
    exact hs
  · rw [noteOff_of_held N hs]
    simpa using enterRelease_state N { E with gate := false }

end Envelope

/-- Settles O20: a completion leads forward along the graph, and with the gate up it stops before Release. -/
theorem stagesFollowTheTransitionGraph : Obligations.StagesFollowTheTransitionGraph := by
  intro α N P E
  refine ⟨?_, fun hg hs => ?_, ?_, fun hs => ?_, fun _ => ?_⟩
  · simpa using Envelope.tick_state N E
  · simpa [Envelope.Held] using Envelope.tick_held N hg hs
  · simpa using Envelope.noteOn_state N E
  · rw [Envelope.noteOff_of_released N hs]
  · simpa using Envelope.noteOff_state N E

/-- Settles O18: a zero-length Attack completes into a Decay, which completes into Sustain. -/
theorem zeroAttackAndDecaySustainAtOnce : Obligations.ZeroAttackAndDecaySustainAtOnce := by
  intro α N E ha hd
  rw [Envelope.noteOn, Envelope.enterAttack, Envelope.enterWith_instant N (by simp [ha]),
    Envelope.completeAttack_of_gate N rfl, Envelope.enterDecay_instant N rfl (by simp [hd])]
  exact ⟨rfl, rfl, rfl⟩

/-- Settles O19: the first `note_off` ends in Release or Idle with the gate down; the next writes that gate again. -/
theorem noteOffIsIdempotent : Obligations.NoteOffIsIdempotent := by
  intro α N E
  refine ⟨fun hs => Envelope.noteOff_of_released N (.inl hs), ?_⟩
  rw [Envelope.noteOff_of_released N (Envelope.noteOff_state N E), ← Envelope.noteOff_gate N E]

/-- Settles O22: a tick ends with the flush, which tests the level. -/
theorem ticksFlushTinyLevels : Obligations.TicksFlushTinyLevels :=
  fun _ _ _ _ => ⟨fun h => if_pos h, fun h => if_neg (by simp [h])⟩

/-- Settles O21: the comparisons of binary32 are those of the values. -/
theorem hitMeansTargetCrossed : Obligations.HitMeansTargetCrossed := by
  intro E hs hl ht
  have h0 : F32.value 0x00000000#32 = 0 := by simp [F32.value, show F32.units 0x00000000#32 = 0 by decide]
  have hz : F32.isNaN 0x00000000#32 = false := by decide
  simp only [Envelope.hit, num_gt, num_ge, num_lt, num_le, num_zero, Bool.or_eq_true, Bool.and_eq_true,
    F32.lt_iff hz hs, F32.lt_iff hs hz, F32.le_iff ht hl, F32.le_iff hl ht, h0]

end Sys2Proof.Machine
end

section
/-! PROOFS. The moving stages under exact reals: the level runs along a line until the tick that reaches the target
(40_envelope R112, R116, R117, R122, R124). -/

namespace Sys2Proof.Machine

namespace Envelope

section
variable {sin cos : ℝ → ℝ} {pow : ℝ → ℝ → ℝ} {P : Params ℝ} {E : Envelope ℝ} {T : ℝ}

/-- An entry into a stage with a length, away from its target (R112). -/
theorem enterWith_exact {st : EnvState} {tgt time : ℝ} {done : Envelope ℝ → Envelope ℝ} (ht : 0 < time)
    (hl : E.level ≠ tgt) :
    enterWith (NumOps.exact ℝ sin cos pow) st tgt time done E =
      { E with state := st, target := tgt, step := (tgt - E.level) / (time * E.sampleRate) } :=
  enterWith_timed _ (by simpa [NumOps.exact, NumOps.zero] using ⟨ht, hl⟩)

/-- With the gate up, a Decay of no length or entered at the sustain level is a Sustain (R113). -/
theorem enterDecay_exact_instant (hg : E.gate = true) (h : E.decay ≤ 0 ∨ E.level = E.sustain) :
    enterDecay (NumOps.exact ℝ sin cos pow) E =
      { E with state := .sustain, target := E.sustain, step := 0, level := E.sustain } := by
  rw [enterDecay_instant _ hg (by simpa [NumOps.exact, NumOps.zero] using h), NumOps.exact_zero]

theorem flush_of_le (h : P.envEps ≤ |E.level|) : flush (NumOps.exact ℝ sin cos pow) P.envEps E = E := by
  rw [flush_exact, if_neg h.not_gt]

theorem flush_of_lt (h : |E.level| < P.envEps) :
    flush (NumOps.exact ℝ sin cos pow) P.envEps E = { E with level := 0 } := by
  rw [flush_exact, if_pos h]

/-- A moving stage whose step covers the way from level to target in `T` ticks. -/
structure Ramps (E : Envelope ℝ) (T : ℝ) : Prop where
  moving : Moving E.state
  time_pos : 0 < T
  away : E.level ≠ E.target
  step_eq : E.step = (E.target - E.level) / T

namespace Ramps

/-- After `x` ticks along the line the hit test of R117 holds exactly if the time is over. -/
theorem crossed_iff (h : E.Ramps T) (x : ℝ) :
    ((0 < E.step ∧ E.target ≤ E.level + x * E.step) ∨ (E.step < 0 ∧ E.level + x * E.step ≤ E.target)) ↔ T ≤ x := by
  have hT := h.time_pos.ne'
  have htarget : E.target = E.level + T * E.step := by rw [h.step_eq]; field_simp; ring
  have hstep : E.step ≠ 0 := fun h0 => h.away (by rw [htarget, h0]; ring)
  rcases lt_or_gt_of_ne hstep with hneg | hpos
  · simp [htarget, hneg, hneg.le, mul_le_mul_right_of_neg hneg]
  · simp [htarget, hpos, hpos.le, mul_le_mul_iff_left₀ hpos]

/-- The tick after `k` along the line: one step more, or on a hit the completion at the target (R116). -/
theorem tick_at (h : E.Ramps T) (k : ℕ) :
    tick (NumOps.exact ℝ sin cos pow) { E with level := E.level + k * E.step } =
      if T ≤ (k + 1 : ℕ) then complete (NumOps.exact ℝ sin cos pow) { E with level := E.target }
      else { E with level := E.level + (k + 1 : ℕ) * E.step } := by
  have hnext : E.level + k * E.step + E.step = E.level + (k + 1 : ℕ) * E.step := by push_cast; ring
  rw [tick_of_moving _ (by exact h.moving), advance_exact]
  simp only [hnext, h.crossed_iff]

/-- Before the time is over, and off the flush, the level runs along the line and all else stays. -/
theorem ticks_eq (h : E.Ramps T) (k : ℕ) (hk : k < T)
    (heps : ∀ j ≤ k, 0 < j → P.envEps ≤ |E.level + j * E.step|) :
    E.ticks (NumOps.exact ℝ sin cos pow) P k = { E with level := E.level + k * E.step } := by
  induction k with
  | zero => simp [ticks]
  | succ k ih =>
    have hk' : (k : ℝ) < T := lt_trans (by simp) hk
    rw [ticks_succ_last, ih hk' fun j hj => heps j (by omega), nextSample, h.tick_at, if_neg hk.not_ge]
    exact flush_of_le (heps (k + 1) le_rfl (by omega))

/-- The tick that ends the time completes the stage at its target (R113, R116). -/
theorem ticks_ceil (h : E.Ramps T) (heps : ∀ j < ⌈T⌉₊, 0 < j → P.envEps ≤ |E.level + j * E.step|) :
    E.ticks (NumOps.exact ℝ sin cos pow) P ⌈T⌉₊ =
      flush (NumOps.exact ℝ sin cos pow) P.envEps
        (complete (NumOps.exact ℝ sin cos pow) { E with level := E.target }) := by
  obtain ⟨k, hk⟩ := Nat.exists_eq_succ_of_ne_zero (Nat.ceil_pos.2 h.time_pos).ne'
  have hover : T ≤ (k + 1 : ℕ) := Nat.ceil_le.1 hk.le
  have hlt : (k : ℝ) < T := Nat.lt_ceil.1 (by omega)
  rw [hk, ticks_succ_last, h.ticks_eq k hlt fun j hj => heps j (by omega), nextSample, h.tick_at, if_pos hover]

end Ramps

/-- A stage just entered with a length, away from its target, ramps (R112). -/
theorem ramps_entry {st : EnvState} {tgt : ℝ} (hst : Moving st) (hT : 0 < T) (hl : E.level ≠ tgt) :
    ({ E with state := st, target := tgt, step := (tgt - E.level) / T } : Envelope ℝ).Ramps T :=
  ⟨hst, hT, hl, rfl⟩

/-- Decay with a length, entered away from the sustain level (R112). -/
theorem enterDecay_exact (hd : 0 < E.decay) (hl : E.level ≠ E.sustain) :
    enterDecay (NumOps.exact ℝ sin cos pow) E =
      { E with state := .decay, target := E.sustain, step := (E.sustain - E.level) / (E.decay * E.sampleRate) } :=
  enterWith_exact hd hl

/-- The start of an Attack from level 0 (R110 to R112). -/
noncomputable def attackStart (a d u r sr : ℝ) : Envelope ℝ where
  attack := a
  decay := d
  sustain := u
  release := r
  sampleRate := sr
  state := .attack
  level := 0
  gate := true
  target := 1
  step := (1 - 0) / (a * sr)

theorem noteOn_new_exact {a : ℝ} (ha : 0 < a) (d u r sr : ℝ) :
    (new (NumOps.exact ℝ sin cos pow) a d u r sr).noteOn (NumOps.exact ℝ sin cos pow) = attackStart a d u r sr := by
  unfold noteOn enterAttack new
  rw [NumOps.exact_zero, NumOps.exact_one]
  exact enterWith_exact ha zero_ne_one

theorem ramps_attackStart {a sr : ℝ} (hT : 0 < a * sr) (d u r : ℝ) : (attackStart a d u r sr).Ramps (a * sr) :=
  ⟨.inl rfl, hT, zero_ne_one, rfl⟩

theorem attackStart_line (a d u r sr x : ℝ) :
    (attackStart a d u r sr).level + x * (attackStart a d u r sr).step = x / (a * sr) := by
  simp only [attackStart]
  ring

/-- `ENV.note_off` of a note held at a level above 0 with a Release of a length (R112, R114). -/
theorem noteOff_exact (hs : Held E.state) (hl : 0 < E.level) (hr : 0 < E.release) :
    E.noteOff (NumOps.exact ℝ sin cos pow) =
      { E with gate := false, state := .release, target := 0, step := (0 - E.level) / (E.release * E.sampleRate) } := by
  rw [noteOff_of_held _ hs, enterRelease, NumOps.exact_zero]
  exact enterWith_exact hr hl.ne'

end

end Envelope

/-- Settles O53: Decay is a ramp towards the sustain level, and its completion with the gate up is a Sustain. -/
theorem decayIsLinearThenSustainHolds : Obligations.DecayIsLinearThenSustainHolds := by
  intro sin cos pow P E hg N slope D last
  refine ⟨fun hd hsr hl heps => ?_, fun hs => ?_⟩
  · have hD : D = { E with state := .decay, target := E.sustain, step := slope } := Envelope.enterDecay_exact hd hl
    have hramp : D.Ramps (E.decay * E.sampleRate) :=
      hD ▸ Envelope.ramps_entry (.inr (.inl rfl)) (mul_pos hd hsr) hl
    have hoff : ∀ j < ⌈E.decay * E.sampleRate⌉₊, 0 < j → P.envEps ≤ |D.level + j * D.step| := by
      rw [hD]
      exact heps
    have hline : ∀ k < ⌈E.decay * E.sampleRate⌉₊, D.ticks N P k = { D with level := D.level + k * D.step } :=
      fun k hk => hramp.ticks_eq k (Nat.lt_ceil.1 hk) fun j hj => hoff j (hj.trans_lt hk)
    have hend : last = Envelope.flush N P.envEps
        { E with state := .sustain, target := E.sustain, step := N.zero, level := E.sustain } := by
      refine (hramp.ticks_ceil hoff).trans (congrArg _ ?_)
      rw [hD]
      exact Envelope.completeDecay_of_gate N hg
    refine ⟨fun k hk => ?_, ?_, fun h => ?_, fun h => ?_⟩
    · rw [hline k hk, hD]
    · rw [hend, Envelope.flush_state]
    · rw [hend, Envelope.flush_of_le h]
    · rw [hend, Envelope.flush_of_lt h]
  · have htick : E.nextSample N P = Envelope.flush N P.envEps { E with level := E.sustain } :=
      congrArg _ (Envelope.tick_sustain N hg hs)
    exact ⟨fun h => htick.trans (Envelope.flush_of_le h), fun h => htick.trans (Envelope.flush_of_lt h)⟩

/-- Settles O24: Release is a ramp towards 0, whose levels fall, so that the last of them bounds the others. -/
theorem releaseIsLinear : Obligations.ReleaseIsLinear := by
  intro sin cos pow P E k hs hl hr hsr heps hk N F
  have hT : 0 < E.release * E.sampleRate := mul_pos hr hsr
  have hR := Envelope.noteOff_exact (sin := sin) (cos := cos) (pow := pow) hs hl hr
  have hramp : (E.noteOff N).Ramps (E.release * E.sampleRate) :=
    hR ▸ Envelope.ramps_entry (E := { E with gate := false }) (.inr (.inr rfl)) hT hl.ne'
  have hlevel (x : ℝ) : (E.noteOff N).level + x * (E.noteOff N).step =
      E.level * (1 - x / (E.release * E.sampleRate)) := by
    rw [hR]
    ring
  have hbefore : (k : ℝ) < E.release * E.sampleRate := by
    have hpos := pos_of_mul_pos_right (heps.trans_le hk) hl.le
    rwa [sub_pos, div_lt_one hT] at hpos
  have hF : F = { E.noteOff N with level := E.level * (1 - k / (E.release * E.sampleRate)) } := by
    rw [← hlevel]
    refine hramp.ticks_eq k hbefore fun j hj _ => ?_
    rw [hlevel]
    refine (hk.trans ?_).trans (le_abs_self _)
    gcongr
  rw [hF, hR]
  exact ⟨rfl, rfl, by simp⟩

/-- Settles O23: Attack is a ramp from 0 to 1, completed by the entry into Decay. -/
theorem attackLastsCeilTicks : Obligations.AttackLastsCeilTicks := by
  intro sin cos pow P a d u r sr ha hsr _ heps1 hepsStep N E last
  have hT : 0 < a * sr := mul_pos ha hsr
  have hE : E = Envelope.attackStart a d u r sr := Envelope.noteOn_new_exact ha d u r sr
  have hramp := Envelope.ramps_attackStart hT d u r
  have hoff (j : ℕ) (hj : 0 < j) :
      P.envEps ≤ |(Envelope.attackStart a d u r sr).level + j * (Envelope.attackStart a d u r sr).step| := by
    rw [Envelope.attackStart_line]
    refine (hepsStep.trans ?_).trans (le_abs_self _)
    gcongr
    exact_mod_cast hj
  have hlast : last =
      Envelope.flush N P.envEps (Envelope.enterDecay N { Envelope.attackStart a d u r sr with level := 1 }) :=
    (congrArg (Envelope.ticks N P _) hE).trans (hramp.ticks_ceil fun j _ => hoff j)
  have hone : P.envEps ≤ |(1 : ℝ)| := by rwa [abs_one]
  refine ⟨fun k hk => ?_, fun hd => ?_, fun hd => ?_⟩
  · have hkT : (k : ℝ) < a * sr := Nat.lt_ceil.1 hk
    rw [hE, hramp.ticks_eq k hkT fun j _ => hoff j, Envelope.attackStart_line]
    exact ⟨rfl, rfl, (div_lt_one hT).2 hkT⟩
  · by_cases hu : u = 1
    · subst hu
      rw [hlast, Envelope.enterDecay_exact_instant rfl (.inr rfl), Envelope.flush_of_le hone]
      exact ⟨rfl, fun h => absurd rfl h, fun _ => rfl⟩
    · rw [hlast, Envelope.enterDecay_exact hd (Ne.symm hu), Envelope.flush_of_le hone]
      exact ⟨rfl, fun _ => ⟨rfl, rfl, rfl⟩, fun h => absurd h hu⟩
  · rw [hlast, Envelope.enterDecay_exact_instant rfl (.inl hd)]
    refine ⟨Envelope.flush_state _ _ _, fun h => ?_, fun h => ?_⟩
    · rw [Envelope.flush_of_le h]
      rfl
    · rw [Envelope.flush_of_lt h]

end Sys2Proof.Machine
end

section
/-! PROOFS. The oscillator under exact reals: the wrap is a fractional part of turns, the residual is two parabolas, and
the waveforms take their values from them (41_oscillator R140 to R151). -/

namespace Sys2Proof.NumOps

section
variable {K : Type} [Field K] [LinearOrder K] [FloorRing K] {sin cos : K → K} {pow : K → K → K}

@[simp] theorem exact_add (x y : K) : (exact K sin cos pow).add x y = x + y := rfl
@[simp] theorem exact_sub (x y : K) : (exact K sin cos pow).sub x y = x - y := rfl
@[simp] theorem exact_mul (x y : K) : (exact K sin cos pow).mul x y = x * y := rfl
@[simp] theorem exact_div (x y : K) : (exact K sin cos pow).div x y = x / y := rfl
@[simp] theorem exact_neg (x : K) : (exact K sin cos pow).neg x = -x := rfl
@[simp] theorem exact_lt (x y : K) : (exact K sin cos pow).lt x y = decide (x < y) := rfl
@[simp] theorem exact_gt (x y : K) : (exact K sin cos pow).gt x y = decide (y < x) := rfl
@[simp] theorem exact_pow (x y : K) : (exact K sin cos pow).pow x y = pow x y := rfl
@[simp] theorem exact_floor (x : K) : (exact K sin cos pow).floor x = ⌊x⌋ := rfl
@[simp] theorem exact_lit (n : ℤ) (d : ℕ) : (exact K sin cos pow).lit n d = n / d := rfl

@[simp] theorem exact_two : (exact K sin cos pow).two = 2 := by simp [two]

@[simp] theorem exact_twoPi (P : Params K) : (exact K sin cos pow).twoPi P = 2 * P.pi :=
  congrArg (· * P.pi) exact_two

@[simp] theorem exact_sign (x : K) : (exact K sin cos pow).sign x = (SignType.sign x : K) := by
  rcases lt_trichotomy x 0 with hx | rfl | hx
  · simp [sign, hx, hx.not_gt]
  · simp [sign]
  · simp [sign, hx]

@[simp] theorem exact_abs [IsStrictOrderedRing K] (x : K) : (exact K sin cos pow).abs x = |x| := by
  rcases lt_or_ge x 0 with hx | hx
  · simp [abs, hx, abs_of_neg hx]
  · simp [abs, hx.not_gt, abs_of_nonneg hx]

end

end Sys2Proof.NumOps

namespace Sys2Proof.Machine

section
variable {sin cos : ℝ → ℝ} {pow : ℝ → ℝ → ℝ} {P : Params ℝ} {t dt pw : ℝ}

/-! ### The phase -/

/-- The wrap keeps the fraction of a turn (R142). -/
theorem wrapPhase_exact (hP : 0 < P.pi) (p : ℝ) :
    wrapPhase (NumOps.exact ℝ sin cos pow) P p = 2 * P.pi * Int.fract (p / (2 * P.pi)) := by
  rw [Int.fract, mul_sub, mul_div_cancel₀ p (mul_pos two_pos hP).ne']
  simp [wrapPhase]

/-- Adding an increment to a fraction of a turn and wrapping (R141, R142). -/
theorem wrapPhase_turns (hP : 0 < P.pi) (x r : ℝ) :
    wrapPhase (NumOps.exact ℝ sin cos pow) P (2 * P.pi * Int.fract x + r * (2 * P.pi)) =
      2 * P.pi * Int.fract (x + r) := by
  have hturns : (2 * P.pi * Int.fract x + r * (2 * P.pi)) / (2 * P.pi) = x + r - ⌊x⌋ := by
    rw [Int.fract]
    field_simp
    ring
  rw [wrapPhase_exact hP, hturns, Int.fract_sub_intCast]

theorem Oscillator.advance_iterate (hP : 0 < P.pi) (freq sr : ℝ) (w : Waveform ℝ) (k : ℕ) :
    (Oscillator.advance (NumOps.exact ℝ sin cos pow) P)^[k]
        (Oscillator.new (NumOps.exact ℝ sin cos pow) P freq sr w) =
      { phase := 2 * P.pi * Int.fract (k * (freq / sr)), phaseIncrement := freq / sr * (2 * P.pi), waveform := w,
        amplitude := P.oscAmp } := by
  induction k with
  | zero => simp [Oscillator.new]
  | succ k ih =>
    have hstep := wrapPhase_turns (sin := sin) (cos := cos) (pow := pow) hP (k * (freq / sr)) (freq / sr)
    rw [Function.iterate_succ_apply', ih, Nat.cast_succ, add_one_mul, ← hstep]
    rfl

/-! ### The residual -/

/-- A normalised phase and increment in the domain of R144. -/
structure Normalised (t dt : ℝ) : Prop where
  nonneg : 0 ≤ t
  lt_one : t < 1
  inc_pos : 0 < dt
  inc_le : dt ≤ 1 / 2

/-- The normalisation of R143 leads into that domain. -/
theorem normalised_of_phase {phase inc : ℝ} (hP : 0 < P.pi) (h0 : 0 ≤ phase) (h1 : phase < 2 * P.pi) (hi : 0 < inc)
    (hi' : inc ≤ P.pi) : Normalised (phase / (2 * P.pi)) (inc / (2 * P.pi)) where
  nonneg := by positivity
  lt_one := (div_lt_one (by positivity)).2 h1
  inc_pos := by positivity
  inc_le := (div_le_iff₀ (by positivity)).2 (by linarith)

theorem polyblep_after (h : t < dt) : polyblep (NumOps.exact ℝ sin cos pow) t dt = -(1 - t / dt) ^ 2 := by
  simp [polyblep, h]
  ring

theorem polyblep_before (h : dt ≤ t) (h' : 1 - dt < t) :
    polyblep (NumOps.exact ℝ sin cos pow) t dt = (1 + (t - 1) / dt) ^ 2 := by
  simp [polyblep, h.not_gt, h']
  ring

theorem polyblep_between (h : dt ≤ t) (h' : t ≤ 1 - dt) : polyblep (NumOps.exact ℝ sin cos pow) t dt = 0 := by
  simp [polyblep, h.not_gt, h'.not_gt]

/-! ### The square -/

/-- Before the falling edge, whose residual is read one turn on (R146). -/
theorem squareAt_of_lt (h : t < pw) :
    squareAt (NumOps.exact ℝ sin cos pow) pw t dt =
      1 + polyblep (NumOps.exact ℝ sin cos pow) t dt - polyblep (NumOps.exact ℝ sin cos pow) (t - pw + 1) dt := by
  simp [squareAt, h]

/-- From the falling edge on (R146). -/
theorem squareAt_of_le (h : pw ≤ t) :
    squareAt (NumOps.exact ℝ sin cos pow) pw t dt =
      -1 + polyblep (NumOps.exact ℝ sin cos pow) t dt - polyblep (NumOps.exact ℝ sin cos pow) (t - pw) dt := by
  simp [squareAt, h.not_gt]

theorem squareAt_high (hi : 0 < dt) (h : dt ≤ t) (h' : t ≤ pw - dt) (hpw : pw ≤ 1) :
    squareAt (NumOps.exact ℝ sin cos pow) pw t dt = 1 := by
  rw [squareAt_of_lt (by linarith), polyblep_between h (by linarith), polyblep_between (by linarith) (by linarith)]
  ring

theorem squareAt_low (hi : 0 < dt) (h : pw + dt ≤ t) (h' : t ≤ 1 - dt) (hpw : 0 ≤ pw) :
    squareAt (NumOps.exact ℝ sin cos pow) pw t dt = -1 := by
  rw [squareAt_of_le (by linarith), polyblep_between (by linarith) h',
    polyblep_between (by linarith) (by linarith)]
  ring

theorem squareAt_rising_edge (hi : 0 < dt) (h : dt ≤ pw) (h' : pw ≤ 1 - dt) :
    squareAt (NumOps.exact ℝ sin cos pow) pw 0 dt = 0 := by
  rw [squareAt_of_lt (by linarith), polyblep_after hi, polyblep_between (by linarith) (by linarith)]
  ring

theorem squareAt_falling_edge (hi : 0 < dt) (h : dt ≤ pw) (h' : pw ≤ 1 - dt) :
    squareAt (NumOps.exact ℝ sin cos pow) pw pw dt = 0 := by
  rw [squareAt_of_le le_rfl, polyblep_between h h', sub_self, polyblep_after hi]
  ring

/-- Corrections that do not overlap: each edge is two increments away from the next. -/
def EdgesApart (pw dt : ℝ) : Prop := 2 * dt ≤ pw ∧ pw ≤ 1 - 2 * dt

theorem squareAt_after_rise (ht : Normalised t dt) (hpw : EdgesApart pw dt) (h : t < dt) :
    squareAt (NumOps.exact ℝ sin cos pow) pw t dt = 1 - (1 - t / dt) ^ 2 := by
  obtain ⟨ht0, -, hi, -⟩ := ht
  obtain ⟨hlo, hhi⟩ := hpw
  rw [squareAt_of_lt (by linarith), polyblep_after h, polyblep_between (by linarith) (by linarith)]
  ring

theorem squareAt_before_fall (hpw : EdgesApart pw dt) (h : pw - dt < t) (h' : t < pw) :
    squareAt (NumOps.exact ℝ sin cos pow) pw t dt = 1 - (1 + (t - pw) / dt) ^ 2 := by
  obtain ⟨hlo, hhi⟩ := hpw
  rw [squareAt_of_lt h', polyblep_between (by linarith) (by linarith),
    polyblep_before (by linarith) (by linarith)]
  ring

theorem squareAt_after_fall (hi : 0 < dt) (hpw : EdgesApart pw dt) (h : pw ≤ t) (h' : t < pw + dt) :
    squareAt (NumOps.exact ℝ sin cos pow) pw t dt = -1 + (1 - (t - pw) / dt) ^ 2 := by
  obtain ⟨hlo, hhi⟩ := hpw
  rw [squareAt_of_le h, polyblep_between (by linarith) (by linarith), polyblep_after (by linarith)]
  ring

theorem squareAt_before_rise (ht : Normalised t dt) (hpw : EdgesApart pw dt) (h : 1 - dt < t) :
    squareAt (NumOps.exact ℝ sin cos pow) pw t dt = -1 + (1 + (t - 1) / dt) ^ 2 := by
  obtain ⟨-, ht1, hi, -⟩ := ht
  obtain ⟨hlo, hhi⟩ := hpw
  rw [squareAt_of_le (by linarith), polyblep_before (by linarith) h,
    polyblep_between (by linarith) (by linarith)]
  ring

/-! ### The sawtooth and the triangle -/

theorem sawtoothAt_exact (t dt : ℝ) :
    sawtoothAt (NumOps.exact ℝ sin cos pow) t dt = 2 * t - 1 - polyblep (NumOps.exact ℝ sin cos pow) t dt := by
  simp [sawtoothAt]

/-- The triangle before shaping (R148). -/
noncomputable def rawTriangle (t : ℝ) : ℝ := 1 - 4 * |t - 1 / 2|

theorem triangleAt_exact (c t : ℝ) :
    triangleAt (NumOps.exact ℝ sin cos pow) c t =
      SignType.sign (rawTriangle t) * pow |rawTriangle t| (1 + 2 * c) := by
  simp [triangleAt, rawTriangle]

theorem abs_rawTriangle_le (h0 : 0 ≤ t) (h1 : t < 1) : |rawTriangle t| ≤ 1 := by
  have hdist : |t - 1 / 2| ≤ 1 / 2 := abs_le.2 ⟨by linarith, by linarith⟩
  have hpos := abs_nonneg (t - 1 / 2)
  rw [rawTriangle, abs_le]
  exact ⟨by linarith, by linarith⟩

/-! ### The waveforms at a phase -/

theorem sample_square (phase inc : ℝ) :
    Waveform.sample (NumOps.exact ℝ sin cos pow) P (.square pw) phase inc =
      squareAt (NumOps.exact ℝ sin cos pow) pw (phase / (2 * P.pi)) (inc / (2 * P.pi)) := by
  simp [Waveform.sample]

theorem sample_sawtooth (phase inc : ℝ) :
    Waveform.sample (NumOps.exact ℝ sin cos pow) P .sawtooth phase inc =
      sawtoothAt (NumOps.exact ℝ sin cos pow) (phase / (2 * P.pi)) (inc / (2 * P.pi)) := by
  simp [Waveform.sample]

theorem sample_triangle (c phase inc : ℝ) :
    Waveform.sample (NumOps.exact ℝ sin cos pow) P (.triangle c) phase inc =
      triangleAt (NumOps.exact ℝ sin cos pow) c (phase / (2 * P.pi)) := by
  simp [Waveform.sample]

/-! ### Bounds -/

/-- A level of 1 corrected by the residual stays in the unit interval (R151). -/
theorem abs_one_sub_sq_le {x : ℝ} (h0 : 0 ≤ x) (h1 : x ≤ 1) : |1 - x ^ 2| ≤ 1 := by
  rw [abs_le]
  constructor <;> nlinarith

theorem abs_neg_one_add_sq_le {x : ℝ} (h0 : 0 ≤ x) (h1 : x ≤ 1) : |-1 + x ^ 2| ≤ 1 := by
  rw [neg_add_eq_sub, abs_sub_comm]
  exact abs_one_sub_sq_le h0 h1

/-- A distance within one increment of an edge, in increments, is a fraction. -/
theorem one_sub_div_mem {d : ℝ} (h0 : 0 ≤ d) (h : d < dt) : 0 ≤ 1 - d / dt ∧ 1 - d / dt ≤ 1 := by
  have hi : 0 < dt := h0.trans_lt h
  have hpos : 0 ≤ d / dt := by positivity
  have hlt : d / dt < 1 := (div_lt_one hi).2 h
  constructor <;> linarith

theorem one_add_div_mem {d : ℝ} (h0 : d ≤ 0) (h : -dt < d) : 0 ≤ 1 + d / dt ∧ 1 + d / dt ≤ 1 := by
  have := one_sub_div_mem (neg_nonneg.2 h0) (neg_lt.1 h)
  rwa [neg_div, sub_neg_eq_add] at this

/-- The sawtooth within an increment `dt ≤ 1/2` after its fall, at `t = u * dt` (R151). -/
theorem abs_sawtooth_fall_le {u : ℝ} (hu0 : 0 ≤ u) (hu1 : u ≤ 1) (hi : 0 ≤ dt) (hi' : dt ≤ 1 / 2) :
    |2 * (u * dt) - 1 + (1 - u) ^ 2| ≤ 1 := by
  rw [abs_le]
  constructor <;> nlinarith [mul_nonneg hu0 hi, mul_le_mul_of_nonneg_left hi' hu0]

theorem abs_squareAt_le (ht : Normalised t dt) (hpw : EdgesApart pw dt) :
    |squareAt (NumOps.exact ℝ sin cos pow) pw t dt| ≤ 1 := by
  have ⟨ht0, ht1, hi, _⟩ := ht
  have ⟨hlo, hhi⟩ := hpw
  rcases lt_or_ge t pw with hup | hdown
  · rcases lt_or_ge t dt with hrise | hrise
    · rw [squareAt_after_rise ht hpw hrise]
      obtain ⟨h0, h1⟩ := one_sub_div_mem ht0 hrise
      exact abs_one_sub_sq_le h0 h1
    rcases le_or_gt t (pw - dt) with hfall | hfall
    · rw [squareAt_high hi hrise hfall (by linarith), abs_one]
    · rw [squareAt_before_fall hpw hfall hup]
      obtain ⟨h0, h1⟩ := one_add_div_mem (d := t - pw) (dt := dt) (by linarith) (by linarith)
      exact abs_one_sub_sq_le h0 h1
  · rcases lt_or_ge t (pw + dt) with hfall | hfall
    · rw [squareAt_after_fall hi hpw hdown hfall]
      obtain ⟨h0, h1⟩ := one_sub_div_mem (d := t - pw) (dt := dt) (by linarith) (by linarith)
      exact abs_neg_one_add_sq_le h0 h1
    rcases le_or_gt t (1 - dt) with hrise | hrise
    · rw [squareAt_low hi hfall hrise (by linarith), abs_neg, abs_one]
    · rw [squareAt_before_rise ht hpw hrise]
      obtain ⟨h0, h1⟩ := one_add_div_mem (d := t - 1) (dt := dt) (by linarith) (by linarith)
      exact abs_neg_one_add_sq_le h0 h1

theorem abs_sawtoothAt_le (ht : Normalised t dt) : |sawtoothAt (NumOps.exact ℝ sin cos pow) t dt| ≤ 1 := by
  obtain ⟨ht0, ht1, hi, hi'⟩ := ht
  rw [sawtoothAt_exact]
  rcases lt_or_ge t dt with hafter | hafter
  · have hfall := abs_sawtooth_fall_le (u := t / dt) (by positivity) ((div_lt_one hi).2 hafter).le hi.le hi'
    rwa [polyblep_after hafter, sub_neg_eq_add, ← div_mul_cancel₀ t hi.ne', mul_div_cancel_right₀ _ hi.ne']
  rcases le_or_gt t (1 - dt) with hbefore | hbefore
  · rw [polyblep_between hafter hbefore, sub_zero, abs_le]
    constructor <;> linarith
  · have hfall := abs_sawtooth_fall_le (u := (1 - t) / dt) (div_nonneg (by linarith) hi.le)
      ((div_lt_one hi).2 (by linarith)).le hi.le hi'
    rw [div_mul_cancel₀ _ hi.ne'] at hfall
    rw [polyblep_before hafter hbefore, ← abs_neg]
    convert hfall using 2
    ring

theorem abs_triangleAt_le {c : ℝ} (h0 : 0 ≤ t) (h1 : t < 1) (hc : 0 ≤ c) :
    |triangleAt (NumOps.exact ℝ sin cos (fun x y => x ^ y)) c t| ≤ 1 := by
  have hsign : |((SignType.sign (rawTriangle t) : SignType) : ℝ)| ≤ 1 := by
    cases SignType.sign (rawTriangle t) <;> simp
  have hpow : |rawTriangle t| ^ (1 + 2 * c) ≤ 1 :=
    Real.rpow_le_one (abs_nonneg _) (abs_rawTriangle_le h0 h1) (by linarith)
  rw [triangleAt_exact, abs_mul, abs_of_nonneg (by positivity : 0 ≤ |rawTriangle t| ^ (1 + 2 * c))]
  exact mul_le_one₀ hsign (by positivity) hpow

end

/-! ### The statements -/

/-- Settles O26: the wrap keeps the fraction of a turn, and the floor counts the turns taken off. -/
theorem wrapLandsInRange : Obligations.WrapLandsInRange := by
  intro sin cos pow P p hP w
  have hpos : 0 < 2 * P.pi := by linarith
  have hw : w = 2 * P.pi * Int.fract (p / (2 * P.pi)) := wrapPhase_exact hP p
  refine ⟨?_, ?_, ⟨⌊p / (2 * P.pi)⌋, ?_⟩, fun h0 h1 => ?_⟩
  · rw [hw]
    exact mul_nonneg hpos.le (Int.fract_nonneg _)
  · rw [hw]
    exact mul_lt_of_lt_one_right hpos (Int.fract_lt_one _)
  · rw [hw, mul_comm _ (2 * P.pi), ← mul_add, Int.fract_add_floor, mul_div_cancel₀ p hpos.ne']
  · rw [hw, Int.fract_eq_self.2 ⟨div_nonneg h0 hpos.le, (div_lt_one hpos).2 h1⟩, mul_div_cancel₀ p hpos.ne']

/-- Settles O27: with `dt ≤ 1/2` the two sides of the discontinuity do not meet. -/
theorem polyblepIsTheStepResidual : Obligations.PolyblepIsTheStepResidual :=
  fun _ _ _ _ _ _ _ _ hle => ⟨polyblep_after, fun h => polyblep_before (by linarith) h, polyblep_between⟩

/-- Settles O55: the phase by induction on the advances, and the sample from it. -/
theorem oscillatorsRunAtTheNoteFrequency : Obligations.OscillatorsRunAtTheNoteFrequency := by
  intro sin cos pow P freq sr w k hP N O phase inc
  have hO : O = { phase := phase, phaseIncrement := inc, waveform := w, amplitude := P.oscAmp } :=
    Oscillator.advance_iterate hP freq sr w k
  exact ⟨hO, by rw [hO]; rfl⟩

/-- Settles O54: each waveform at the normalised phase and increment, region by region. -/
theorem waveformsTakeTheirValues : Obligations.WaveformsTakeTheirValues := by
  intro sin cos pow P phase inc hP h0 h1 hi hi' value t dt
  have ht : Normalised t dt := normalised_of_phase hP h0 h1 hi hi'
  have hdt := ht.inc_pos
  have hsquare (pw : ℝ) : value (.square pw) = squareAt (NumOps.exact ℝ sin cos pow) pw t dt :=
    sample_square phase inc
  have hsawtooth : value .sawtooth = 2 * t - 1 - polyblep (NumOps.exact ℝ sin cos pow) t dt :=
    (sample_sawtooth phase inc).trans (sawtoothAt_exact t dt)
  have htriangle (c : ℝ) : value (.triangle c) = SignType.sign (rawTriangle t) * pow |rawTriangle t| (1 + 2 * c) :=
    (sample_triangle c phase inc).trans (triangleAt_exact c t)
  refine ⟨rfl, fun pw => ?_, ?_, fun c => ?_⟩
  · rw [hsquare]
    refine ⟨squareAt_high hdt, squareAt_low hdt, fun hlo hhi hedge => ?_, fun hlo hhi => ?_⟩
    · rcases hedge with hedge | hedge <;> rw [hedge]
      · exact squareAt_rising_edge hdt hlo hhi
      · exact squareAt_falling_edge hdt hlo hhi
    · have hpw : EdgesApart pw dt := ⟨hlo, hhi⟩
      exact ⟨squareAt_after_rise ht hpw, squareAt_before_fall hpw, squareAt_after_fall hdt hpw,
        squareAt_before_rise ht hpw⟩
  · rw [hsawtooth]
    refine ⟨fun h h' => ?_, fun h => ?_, fun h => ?_⟩
    · rw [polyblep_between h h', sub_zero]
    · rw [polyblep_after h, sub_neg_eq_add]
    · rw [polyblep_before (by linarith [ht.inc_le]) h]
  · intro tri
    have htri : rawTriangle t = tri := rfl
    rw [htriangle, htri]
    refine ⟨fun h => ?_, fun h => ?_, fun h => ?_⟩
    · simp [h]
    · simp [h, abs_of_pos h]
    · simp [h, abs_of_neg h]

/-- Settles O28: the regions of the square and the sawtooth one by one, and a power of a number in the unit interval. -/
theorem waveformsStayInUnit : Obligations.WaveformsStayInUnit := by
  intro P phase inc hP h0 h1 hi hi' N dt
  have ht := normalised_of_phase hP h0 h1 hi hi'
  refine ⟨Real.abs_sin_le_one phase, ?_, fun c hc => ?_, fun pw hlo hhi => ?_⟩
  · rw [sample_sawtooth]
    exact abs_sawtoothAt_le ht
  · rw [sample_triangle]
    exact abs_triangleAt_le ht.nonneg ht.lt_one hc
  · rw [sample_square]
    exact abs_squareAt_le ht ⟨hlo, hhi⟩

end Sys2Proof.Machine
end

section
/-! PROOFS. The filters under exact reals: the clamps are `max` and `min`, the coefficients have their closed forms, and
stability, the impulse response and the difference equation follow from them (42_filter R160 to R169). -/

namespace Sys2Proof.NumOps

section
variable {K : Type} [Field K] [LinearOrder K] [FloorRing K] {sin cos : K → K} {pow : K → K → K}

@[simp] theorem exact_sin (x : K) : (exact K sin cos pow).sin x = sin x := rfl
@[simp] theorem exact_cos (x : K) : (exact K sin cos pow).cos x = cos x := rfl
@[simp] theorem exact_ge (x y : K) : (exact K sin cos pow).ge x y = decide (y ≤ x) := rfl

@[simp] theorem exact_max (x y : K) : (exact K sin cos pow).max x y = x ⊔ y := by
  rcases le_total y x with h | h
  · simp [max, h]
  · rw [sup_of_le_right h]
    simpa [max] using fun h' => le_antisymm h h'

theorem exact_clamp {lo hi : K} (h : lo ≤ hi) (x : K) : (exact K sin cos pow).clamp x lo hi = lo ⊔ (x ⊓ hi) := by
  rcases lt_or_ge x lo with hlo | hlo
  · simp [clamp, hlo, hlo.le]
  rcases lt_or_ge hi x with hhi | hhi
  · simp [clamp, hlo.not_gt, hhi, hhi.le, h]
  · simp [clamp, hlo.not_gt, hhi.not_gt, hlo, hhi]

end

end Sys2Proof.NumOps

namespace Sys2Proof.Machine

section
variable {sin cos : ℝ → ℝ} {pow : ℝ → ℝ → ℝ} {P : Params ℝ} {sr : ℝ}

/-! ### The clamps (R168) -/

theorem clampCutoff_exact (h : P.cutoffMin ≤ 49 / 100 * sr) (fc : ℝ) :
    clampCutoff (NumOps.exact ℝ sin cos pow) P fc sr = max P.cutoffMin (min fc (49 / 100 * sr)) := by
  simpa [clampCutoff, cutoffMax] using NumOps.exact_clamp h fc

theorem clampQ_exact (q : ℝ) : clampQ (NumOps.exact ℝ sin cos pow) P q = max q P.qMin := NumOps.exact_max q P.qMin

theorem clampCutoff_mem (h : P.cutoffMin ≤ 49 / 100 * sr) (fc : ℝ) :
    clampCutoff (NumOps.exact ℝ sin cos pow) P fc sr ∈ Set.Icc P.cutoffMin (49 / 100 * sr) := by
  rw [clampCutoff_exact h]
  exact ⟨le_max_left .., max_le h (min_le_right ..)⟩

/-! ### The one-pole filter (R161, R162) -/

namespace OnePole

theorem coefficient_exact {cutoff : ℝ} (hP : 0 < P.pi) (hsr : 0 < sr) (hc : 0 < cutoff) :
    coefficient (NumOps.exact ℝ sin cos pow) P cutoff sr = 2 * P.pi * cutoff / (sr + 2 * P.pi * cutoff) := by
  simp only [coefficient, NumOps.exact_div, NumOps.exact_one, NumOps.exact_mul, NumOps.exact_twoPi, NumOps.exact_add]
  field_simp

theorem coefficient_mem {cutoff : ℝ} (hP : 0 < P.pi) (hsr : 0 < sr) (hc : 0 < cutoff) :
    coefficient (NumOps.exact ℝ sin cos pow) P cutoff sr ∈ Set.Ioo 0 1 := by
  rw [coefficient_exact hP hsr hc]
  exact ⟨by positivity, (div_lt_one (by positivity)).2 (lt_add_of_pos_left _ hsr)⟩

/-- A sample moves the history towards the input by the fraction `a`: a convex combination of the two (R162 b). -/
theorem process_y (F : OnePole ℝ) (x : ℝ) :
    (F.process (NumOps.exact ℝ sin cos pow) x).y = (1 - F.a) * F.y + F.a * x := by
  simp only [process, NumOps.exact_add, NumOps.exact_mul, NumOps.exact_sub]
  ring

theorem abs_process_y_le {F : OnePole ℝ} (h0 : 0 < F.a) (h1 : F.a < 1) (x : ℝ) :
    |(F.process (NumOps.exact ℝ sin cos pow) x).y| ≤ max |F.y| |x| := by
  have h1' : 0 < 1 - F.a := sub_pos.2 h1
  rw [process_y]
  calc |(1 - F.a) * F.y + F.a * x| ≤ |(1 - F.a) * F.y| + |F.a * x| := abs_add_le _ _
    _ = (1 - F.a) * |F.y| + F.a * |x| := by rw [abs_mul, abs_mul, abs_of_pos h0, abs_of_pos h1']
    _ ≤ (1 - F.a) * max |F.y| |x| + F.a * max |F.y| |x| := by
      gcongr
      · exact le_max_left _ _
      · exact le_max_right _ _
    _ = max |F.y| |x| := by ring

/-- Zero samples shrink the history by the factor `1 - a` each (R162 c). -/
theorem process_zero_iterate (F : OnePole ℝ) (k : ℕ) :
    (process (NumOps.exact ℝ sin cos pow) 0)^[k] F = { F with y := F.y * (1 - F.a) ^ k } := by
  induction k with
  | zero => simp
  | succ k ih =>
    rw [Function.iterate_succ_apply', ih, pow_succ, process]
    congr 1
    simp only [NumOps.exact_add, NumOps.exact_mul, NumOps.exact_sub]
    ring

end OnePole

/-! ### The two-pole filter (R164, R165) -/

namespace TwoPole

/-- The filter with the coefficients of R164 for `c = cos w0` and `alpha`. -/
def tuned {K : Type} [Field K] (G : TwoPole K) (cutoff q c alpha : K) : TwoPole K :=
  let b := (1 - c) / 2 / (1 + alpha)
  { G with
    cutoff := cutoff, q := q, b0 := b, b1 := 2 * b, b2 := b
    a1 := -2 * c / (1 + alpha), a2 := (1 - alpha) / (1 + alpha) }

/-- The angle `w0` of a cutoff (R164). -/
def angle {K : Type} [Field K] (P : Params K) (cutoff sr : K) : K := 2 * P.pi * cutoff / sr

theorem setParams_exact (G : TwoPole ℝ) (fc q : ℝ) :
    let N := NumOps.exact ℝ sin cos pow
    let cutoff := clampCutoff N P fc G.sampleRate
    let w0 := angle P cutoff G.sampleRate
    G.setParams N P fc q = G.tuned cutoff (clampQ N P q) (cos w0) (sin w0 / (2 * clampQ N P q)) := by
  simp only [setParams, tuned, angle, NumOps.exact_add, NumOps.exact_sub, NumOps.exact_mul, NumOps.exact_div,
    NumOps.exact_neg, NumOps.exact_sin, NumOps.exact_cos, NumOps.exact_one, NumOps.exact_two, NumOps.exact_twoPi]
  congr 1
  ring

/-- Below half the sample rate the angle stays inside the open half turn (R164 b). -/
theorem angle_mem {cutoff : ℝ} (hpi : P.pi = Real.pi) (hsr : 0 < sr) (hc : 0 < cutoff)
    (hle : cutoff ≤ 49 / 100 * sr) : angle P cutoff sr ∈ Set.Ioo 0 Real.pi := by
  have hπ := Real.pi_pos
  rw [angle, hpi]
  refine ⟨by positivity, (div_lt_iff₀ hsr).2 ?_⟩
  calc 2 * Real.pi * cutoff ≤ 2 * Real.pi * (49 / 100 * sr) := by gcongr
    _ < Real.pi * sr := by linarith [mul_pos hπ hsr]

/-- Positive damping and a cosine inside `(-1, 1)` give both stability conditions (R169). -/
theorem tuned_stable (G : TwoPole ℝ) (cutoff q : ℝ) {c alpha : ℝ} (hc : |c| < 1) (ha : 0 < alpha) :
    |(G.tuned cutoff q c alpha).a2| < 1 ∧ |(G.tuned cutoff q c alpha).a1| < 1 + (G.tuned cutoff q c alpha).a2 := by
  have hpos : 0 < 1 + alpha := by linarith
  have hsum : 1 + (1 - alpha) / (1 + alpha) = 2 / (1 + alpha) := by
    field_simp
    ring
  simp only [tuned, hsum, abs_div, abs_of_pos hpos, abs_mul, abs_neg, abs_two]
  exact ⟨(div_lt_one hpos).2 (abs_lt.2 ⟨by linarith, by linarith⟩), by gcongr; linarith⟩

/-- The gain at frequency 0 is 1 (R164 c). -/
theorem tuned_gain (G : TwoPole ℝ) (cutoff q c : ℝ) {alpha : ℝ} (ha : 0 < alpha) :
    (G.tuned cutoff q c alpha).b0 + (G.tuned cutoff q c alpha).b1 + (G.tuned cutoff q c alpha).b2 =
      1 + (G.tuned cutoff q c alpha).a1 + (G.tuned cutoff q c alpha).a2 := by
  simp only [tuned]
  field_simp
  ring

/-- Samples move the history alone (R165). -/
theorem processed_frame {N : NumOps ℝ} {G : ℕ → TwoPole ℝ} {x : ℕ → ℝ}
    (hG : ∀ k, G (k + 1) = (G k).process N (x k)) (n : ℕ) : G n = { G 0 with y1 := (G n).y1, y2 := (G n).y2 } := by
  induction n with
  | zero => rfl
  | succ n ih => rw [hG, process, ih]

/-- Two samples on, the two previous inputs and outputs have come into the output through `y1` and `y2` (R165 c). -/
theorem output_process_process {F H : TwoPole ℝ} (h : H = { F with y1 := H.y1, y2 := H.y2 }) (x₀ x₁ x₂ : ℝ) :
    let N := NumOps.exact ℝ sin cos pow
    ((H.process N x₀).process N x₁).output N x₂ =
      F.b0 * x₂ + F.b1 * x₁ + F.b2 * x₀ - F.a1 * (H.process N x₀).output N x₁ - F.a2 * H.output N x₀ := by
  rw [h]
  simp only [process, output, NumOps.exact_add, NumOps.exact_sub, NumOps.exact_mul]
  ring

end TwoPole

end

/-- Settles O56: the clamps are `max` and `min`, and both coefficient computations have their closed forms. -/
theorem coefficientsHaveTheirClosedForms : Obligations.CoefficientsHaveTheirClosedForms := by
  intro sin cos pow P fc q F G sr hP hsr hmin hle hF hG N cutoff Q w0 alpha b
  have hcut : clampCutoff N P fc sr = cutoff := clampCutoff_exact hle fc
  have hQ : clampQ N P q = Q := clampQ_exact q
  have hpos : 0 < cutoff := lt_max_of_lt_left hmin
  refine ⟨?_, ?_, ?_, ?_⟩
  · rw [OnePole.setParams, hF, hcut, OnePole.coefficient_exact hP hsr hpos]
  · have hset : G.setParams N P fc q = _ := TwoPole.setParams_exact G fc q
    rwa [hG, hcut, hQ] at hset
  · simp [OnePole.new, OnePole.setParams, hF, N]
  · simp [TwoPole.new, TwoPole.setParams, hG, N]

/-- Settles O29: a clamped cutoff keeps the one-pole coefficient inside (0, 1) and the two-pole's angle inside (0, pi),
where the sine is positive and the cosine inside (-1, 1). -/
theorem clampedFiltersAreStable : Obligations.ClampedFiltersAreStable := by
  intro P sr fc q hpi hsr hmin hle hq N F G
  obtain ⟨hlo, hhi⟩ : clampCutoff N P fc sr ∈ Set.Icc P.cutoffMin (49 / 100 * sr) := clampCutoff_mem hle fc
  have hpos : 0 < clampCutoff N P fc sr := hmin.trans_le hlo
  have hQ : P.qMin ≤ clampQ N P q := (clampQ_exact q).symm ▸ le_max_right q P.qMin
  have ha : OnePole.coefficient N P (clampCutoff N P fc sr) sr ∈ Set.Ioo 0 1 :=
    OnePole.coefficient_mem (hpi ▸ Real.pi_pos) hsr hpos
  have hw0 := TwoPole.angle_mem hpi hsr hpos hhi
  have hsin := Real.sin_pos_of_mem_Ioo hw0
  have hcos : |Real.cos (TwoPole.angle P (clampCutoff N P fc sr) sr)| < 1 := by
    rw [← sq_lt_one_iff_abs_lt_one, Real.cos_sq']
    linarith [pow_pos hsin 2]
  have halpha := div_pos hsin (mul_pos two_pos (hq.trans_le hQ))
  have hG : G = _ := TwoPole.setParams_exact _ fc q
  rw [hG]
  exact ⟨⟨hlo, hhi, ha.1, ha.2⟩, hlo, hhi, hQ, (TwoPole.tuned_stable _ _ _ hcos halpha).1,
    (TwoPole.tuned_stable _ _ _ hcos halpha).2, TwoPole.tuned_gain _ _ _ _ halpha⟩

/-- Settles O30: an impulse leaves `a`, which zero samples shrink, and a convex combination is at most the larger. -/
theorem onePoleImpulseDecaysGeometrically : Obligations.OnePoleImpulseDecaysGeometrically := by
  intro sin cos pow F N
  refine ⟨fun hy k => ?_, fun h0 h1 x => ?_⟩
  · have himpulse : (F.process N 1).y = F.a := by rw [OnePole.process_y, hy]; ring
    exact (congrArg OnePole.y (OnePole.process_zero_iterate _ k)).trans (congrArg (· * (1 - F.a) ^ k) himpulse)
  · exact OnePole.abs_process_y_le h0 h1 x

/-- Settles O31: the output two samples on, at the filters that the input sequence leaves. -/
theorem twoPoleObeysTheDifferenceEquation : Obligations.TwoPoleObeysTheDifferenceEquation := by
  intro sin cos pow F x N G y n
  exact TwoPole.output_process_process (TwoPole.processed_frame (G := G) (fun _ => rfl) n) (x n) (x (n + 1)) (x (n + 2))

end Sys2Proof.Machine
end

section
/-! PROOFS. The note messages (43_engine R180 to R184), and which messages change activity (R188, R196 f). -/

namespace Sys2Proof.Machine

/-! ### The message forms -/

theorem exec_noteOn_id (n : Fin 255) (s : State) :
    exec (.noteOn (.id n)) s = .next { s with engine := s.engine.noteOn num s.config n } := rfl

theorem exec_noteOff_id (n : Fin 255) (s : State) :
    exec (.noteOff (.id n)) s = .next { s with engine := s.engine.noteOff num n } := rfl

/-- Settles O9: the sentinel is discarded before the engine is reached. -/
theorem noteMessagesOfNoneDoNothing : Obligations.NoteMessagesOfNoneDoNothing := fun _ => ⟨rfl, rfl⟩

/-- A message with a payload that is no number is ignored as a whole (93 U1, log 7). -/
theorem exec_of_not_finite {i : Instr} {w : Word} (hw : w ∈ i.payloads) (h : F32.isFinite w = false) (s : State) :
    exec i s = .next s := by
  cases i
  case setMasterVolume v => exact congrArg Host.Outcome.next (onPayloads_of_not_finite hw h _ s)
  case setAdsr a d u r => exact congrArg Host.Outcome.next (onPayloads_of_not_finite hw h _ s)
  case setWaveformSquare pw => exact congrArg Host.Outcome.next (onPayloads_of_not_finite hw h _ s)
  case setWaveformTriangle c => exact congrArg Host.Outcome.next (onPayloads_of_not_finite hw h _ s)
  case setFilterOnePole fc => exact congrArg Host.Outcome.next (onPayloads_of_not_finite hw h _ s)
  case setFilterTwoPole fc q => exact congrArg Host.Outcome.next (onPayloads_of_not_finite hw h _ s)
  all_goals cases hw

/-- Settles O15: one of the payloads is no number. -/
theorem nonFinitePayloadsAreIgnored : Obligations.NonFinitePayloadsAreIgnored := by
  intro i s h
  obtain ⟨w, hw, hn⟩ : ∃ w ∈ i.payloads, F32.isFinite w = false := by
    simpa [Instr.payloadsFinite, F32.dec] using h
  exact exec_of_not_finite hw hn s

/-! ### Retrigger, allocation and release -/

theorem isFirstSlot_iff (e : Engine F32) (p : Voice F32 → Bool) (i : Fin 16) :
    IsFirstSlot e p i ↔ findSlot p e.voices = some i :=
  (findSlot_eq_some p e.voices i).symm

/-- No slot carries the note: none is active with it. -/
theorem findSlot_carries_eq_none (n : Fin 255) (vs : Vector (Voice F32) 16) :
    findSlot (Voice.carries n) vs = none ↔ ∀ i : Fin 16, ¬ (vs[i].active = true ∧ vs[i].note = .id n) := by
  simp [findSlot_eq_none, Voice.carries]

theorem findSlot_free_eq_none (vs : Vector (Voice F32) 16) :
    findSlot Voice.free vs = none ↔ ∀ i : Fin 16, vs[i].active = true := by
  simp [findSlot_eq_none, Voice.free]

/-- The slot written and the others, after a write to one slot. -/
theorem set_slot_and_others {β : Type} {n : Nat} (vs : Vector β n) (i : Fin n) (v : β) :
    (vs.set i v)[i] = v ∧ ∀ j : Fin n, j ≠ i → (vs.set i v)[j] = vs[j] :=
  ⟨by rw [getElem_set_slot, if_pos rfl], fun j hj => by rw [getElem_set_slot, if_neg hj.symm]⟩

/-- Settles O8: the scans for a carrier and for a free slot decide between the three cases. -/
theorem noteOnRetriggersAllocatesOrDrops : Obligations.NoteOnRetriggersAllocatesOrDrops := by
  intro s n e started
  refine ⟨_, exec_noteOn_id n s, ?_, fun i hi => ?_, fun hnone => ⟨fun i hi => ?_, fun hfull => ?_⟩⟩
  · obtain ⟨vs, h⟩ := Engine.noteOn_frame s.config n s.engine
    rw [h]
  · rw [Engine.noteOn_of_carrier num s.config n s.engine i ((isFirstSlot_iff _ _ _).1 hi)]
    obtain ⟨hslot, hothers⟩ := set_slot_and_others e.voices i (Engine.retrigger num e e.voices[i])
    refine ⟨hslot.trans ?_, hothers⟩
    rw [Engine.retrigger, ← num_zero]
    rcases e.voices[i].filter with - | ⟨f | f⟩ <;> rfl
  · rw [Engine.noteOn_of_free num s.config n s.engine i ((findSlot_carries_eq_none n _).2 hnone)
      ((isFirstSlot_iff _ _ _).1 hi), ← num_zero]
    exact set_slot_and_others e.voices i (Engine.freshVoice num s.config e n)
  · rw [Engine.noteOn_of_full num s.config n s.engine ((findSlot_carries_eq_none n _).2 hnone)
      ((findSlot_free_eq_none _).2 hfull)]

theorem releaseVoice_eq (n : Fin 255) (v : Voice F32) :
    Engine.releaseVoice num n v =
      if v.active = true ∧ v.note = .id n then { v with envelope := v.envelope.noteOff num } else v := by
  simp [Engine.releaseVoice, Voice.carries]

/-- Settles O10: the loop releases each slot that carries the note. -/
theorem noteOffReleasesEveryCarrier : Obligations.NoteOffReleasesEveryCarrier := by
  intro s n
  exact ⟨_, exec_noteOff_id n s, rfl, fun i => (Engine.noteOff_slot num n s.engine i).trans (releaseVoice_eq n _)⟩

/-! ### Activity -/

/-- The slots that are active in one engine are those of another. -/
def SameActivity (e e' : Engine F32) : Prop := ∀ k : Fin 16, e'.voices[k].active = e.voices[k].active

/-- A loop over the slots keeps their activity when its operation on the slots that pass a test writes no flag. -/
theorem sameActivity_of_mapSlots {e e' : Engine F32} {c : Voice F32 → Bool} {f : Voice F32 → Voice F32}
    (he : e'.voices = mapSlots (fun v => if c v then f v else v) e.voices) (hf : ∀ v, (f v).active = v.active) :
    SameActivity e e' := by
  intro k
  rw [he, getElem_mapSlots]
  split
  · exact hf _
  · rfl

/-- No setter and no release writes an activity flag (43_engine R188). -/
theorem sameActivity_message {i : Instr} (hi : ∀ n, i ≠ .noteOn n) (s : State) :
    SameActivity s.engine (engineAfter i s) := by
  have same : SameActivity s.engine s.engine := fun _ => rfl
  have wave (w : Waveform F32) : SameActivity s.engine (s.engine.setWaveform num w) :=
    sameActivity_of_mapSlots rfl fun _ => rfl
  have filter (f : Option (FilterType F32)) : SameActivity s.engine (s.engine.setFilter num s.config f) :=
    sameActivity_of_mapSlots rfl fun _ => rfl
  cases i
  case noteOn n => exact absurd rfl (hi n)
  case noteOff note =>
    cases note with
    | none => exact same
    | id n => exact sameActivity_of_mapSlots rfl fun _ => rfl
  case setMasterVolume v => exact onPayloads_engine_of same fun _ _ => rfl
  case setAdsr a d u r =>
    exact onPayloads_engine_of same fun _ => sameActivity_of_mapSlots rfl fun _ => rfl
  case setWaveformSine => exact wave .sine
  case setWaveformSquare pw => exact onPayloads_engine_of same fun _ => wave (.square pw)
  case setWaveformSawtooth => exact wave .sawtooth
  case setWaveformTriangle c => exact onPayloads_engine_of same fun _ => wave (.triangle c)
  case setFilterNone => exact filter none
  case setFilterOnePole fc => exact onPayloads_engine_of same fun _ => filter (some (.onePole fc))
  case setFilterTwoPole fc q => exact onPayloads_engine_of same fun _ => filter (some (.twoPole fc q))
  all_goals exact same

/-- `NoteOn` frees no slot: what it writes is active (R181 to R183). -/
theorem noteOn_keeps_active (P : Params F32) (n : Fin 255) (e : Engine F32) {k : Fin 16}
    (hk : e.voices[k].active = true) : (e.noteOn num P n).voices[k].active = true := by
  rcases Engine.noteOn_cases num P n e with ⟨i, hi, he⟩ | ⟨i, -, -, he⟩ | ⟨-, -, he⟩ <;> rw [he]
  · rw [getElem_set_slot]
    split
    · exact active_of_carrier hi
    · exact hk
  · rw [getElem_set_slot]
    split
    · rfl
    · exact hk
  · exact hk

/-- Settles O16: every other message keeps the flags, and `NoteOn` writes active slots alone. -/
theorem onlyNoteOnChangesActivity : Obligations.OnlyNoteOnChangesActivity := by
  intro i s
  refine ⟨_, exec_eq_next i s, fun k hk => ?_, fun hi k => sameActivity_message hi s k⟩
  by_cases hi : ∀ n, i ≠ .noteOn n
  · exact (sameActivity_message hi s k).trans hk
  · push Not at hi
    obtain ⟨note, rfl⟩ := hi
    cases note with
    | none => exact hk
    | id n => exact noteOn_keeps_active s.config n s.engine hk

end Sys2Proof.Machine
end

section
/-! PROOFS. Distinct notes fill a free pool in slot order (43_engine R183, 95 S5). -/

namespace Sys2Proof.Machine

theorem findSlot_free_eq_some (vs : Vector (Voice F32) 16) (i : Fin 16) :
    findSlot Voice.free vs = some i ↔ vs[i].active = false ∧ ∀ j : Fin 16, j < i → vs[j].active = true := by
  simp [findSlot_eq_some, Voice.free]

/-- The notes `ns` sit in the slots from 0 on, in order, as far as there are slots; the other slots are free. -/
def FilledWith (ns : List (Fin 255)) (e : Engine F32) : Prop :=
  ∀ k : Fin 16, (∀ n, ns[k.val]? = some n → e.voices[k].active = true ∧ e.voices[k].note = .id n) ∧
    (ns.length ≤ k.val → e.voices[k].active = false)

theorem FilledWith.active_iff {ns : List (Fin 255)} {e : Engine F32} (h : FilledWith ns e) (k : Fin 16) :
    e.voices[k].active = true ↔ k.val < ns.length := by
  by_cases hk : k.val < ns.length
  · exact iff_of_true ((h k).1 _ (List.getElem?_eq_getElem hk)).1 hk
  · exact iff_of_false (by rw [(h k).2 (by omega)]; exact Bool.false_ne_true) hk

/-- No slot carries a note that is not among those played. -/
theorem FilledWith.not_carried {ns : List (Fin 255)} {e : Engine F32} {n : Fin 255} (h : FilledWith ns e)
    (hn : n ∉ ns) : findSlot (Voice.carries n) e.voices = none := by
  rw [findSlot_carries_eq_none]
  rintro k ⟨hactive, hnote⟩
  have hk := (h.active_iff k).1 hactive
  obtain ⟨-, hplayed⟩ := (h k).1 _ (List.getElem?_eq_getElem hk)
  obtain rfl : ns[k.val] = n := Note.id.inj (hplayed.symm.trans hnote)
  exact hn (List.getElem_mem hk)

/-- One more note takes the slot after the last one, or is dropped when all sixteen are taken (R182, R183). -/
theorem FilledWith.noteOn {ns : List (Fin 255)} {e : Engine F32} {n : Fin 255} (P : Params F32) (h : FilledWith ns e)
    (hn : n ∉ ns) : FilledWith (ns ++ [n]) (e.noteOn num P n) := by
  by_cases hroom : ns.length < 16
  · have hfree : findSlot Voice.free e.voices = some ⟨ns.length, hroom⟩ :=
      (findSlot_free_eq_some _ _).2 ⟨(h _).2 (Nat.le_refl _), fun j hj => (h.active_iff j).2 hj⟩
    rw [Engine.noteOn_of_free num P n e _ (h.not_carried hn) hfree]
    intro k
    rw [getElem_set_slot]
    rcases Nat.lt_trichotomy k.val ns.length with hk | hk | hk
    · rw [if_neg (by simp [Fin.ext_iff]; omega), List.getElem?_append_left hk]
      exact ⟨(h k).1, fun hlen => by simp at hlen; omega⟩
    · rw [if_pos (Fin.ext hk.symm)]
      refine ⟨fun m hm => ?_, fun hlen => by simp at hlen; omega⟩
      obtain rfl : n = m := by simpa [hk] using hm
      exact ⟨rfl, rfl⟩
    · rw [if_neg (by simp [Fin.ext_iff]; omega)]
      exact ⟨fun m hm => by simp [hk] at hm, fun _ => (h k).2 hk.le⟩
  · have hfull : findSlot Voice.free e.voices = none :=
      (findSlot_free_eq_none _).2 fun k => (h.active_iff k).2 (by omega)
    rw [Engine.noteOn_of_full num P n e (h.not_carried hn) hfull]
    intro k
    rw [List.getElem?_append_left (by omega)]
    exact ⟨(h k).1, fun hlen => by simp at hlen; omega⟩

/-- Draining `NoteOn` messages of new notes puts them after those already played. -/
theorem FilledWith.drainAll {ns ms : List (Fin 255)} {s : State} (h : FilledWith ns s.engine)
    (hd : (ns ++ ms).Nodup) :
    ∃ t, drainAll (ms.map fun n => Message.ofFields 0 0 (Note.toBits (.id n)) 0 0 0 0) s = .next t ∧
      FilledWith (ns ++ ms) t.engine := by
  induction ms generalizing ns s with
  | nil => exact ⟨s, rfl, by rwa [List.append_nil]⟩
  | cons n ms ih =>
    have hn : n ∉ ns := fun hmem => (List.nodup_append.1 hd).2.2 n hmem n (by simp) rfl
    rw [List.append_cons] at hd ⊢
    rw [List.map_cons, Machine.drainAll, decode_of_encode (i := .noteOn (.id n)) rfl, exec_noteOn_id]
    exact ih (h.noteOn s.config hn) hd

/-- A list whose elements pass a test exactly before index `m` has as many of them as `m` allows. -/
theorem countP_eq_min {β : Type} {p : β → Bool} {l : List β} {m : ℕ}
    (h : ∀ (i : ℕ) (hi : i < l.length), p l[i] = true ↔ i < m) : l.countP p = min m l.length := by
  induction l generalizing m with
  | nil => simp
  | cons x l ih =>
    have hx := h 0 (by simp)
    have htail := ih (m := m - 1) fun i hi => (h (i + 1) (by simpa using hi)).trans (by omega)
    rw [List.countP_cons, htail, List.length_cons]
    simp only [List.getElem_cons_zero] at hx
    simp only [hx]
    split <;> omega

theorem FilledWith.activeCount {ns : List (Fin 255)} {e : Engine F32} (h : FilledWith ns e) :
    activeCount e = min ns.length 16 := by
  have := countP_eq_min (p := Voice.active) (l := e.voices.toList) (m := ns.length) fun i hi =>
    h.active_iff ⟨i, by simpa using hi⟩
  simpa [Machine.activeCount] using this

/-- Settles O17: each new note takes the next slot while there is one. -/
theorem distinctNotesFillTheSlotsInOrder : Obligations.DistinctNotesFillTheSlotsInOrder := by
  intro s ns hfree hd
  have hempty : FilledWith [] s.engine := fun k => ⟨fun n hn => by simp at hn, fun _ => hfree k⟩
  obtain ⟨t, hrun, hfilled⟩ := hempty.drainAll (ms := ns) hd
  exact ⟨t, hrun, hfilled.activeCount, fun k n hn => (hfilled k).1 n hn⟩

end Sys2Proof.Machine
end

section
/-! PROOFS. The global setters and their reach into the active voices (43_engine R190 to R203). -/

namespace Sys2Proof.Machine

/-! ### The message forms with payloads that are numbers -/

theorem exec_setMasterVolume {v : Word} (h : F32.isFinite v = true) (s : State) :
    exec (.setMasterVolume v) s = .next { s with engine := s.engine.setMasterVolume num v } :=
  congrArg Host.Outcome.next (onPayloads_of_finite (List.forall_mem_singleton.2 h) _ s)

theorem exec_setAdsr {a d u r : Word} (h : ∀ w ∈ [a, d, u, r], F32.isFinite w = true) (s : State) :
    exec (.setAdsr a d u r) s = .next { s with engine := s.engine.setAdsr num a d u r } :=
  congrArg Host.Outcome.next (onPayloads_of_finite h _ s)

theorem exec_setWaveformSquare {pw : Word} (h : F32.isFinite pw = true) (s : State) :
    exec (.setWaveformSquare pw) s = .next { s with engine := s.engine.setWaveform num (.square pw) } :=
  congrArg Host.Outcome.next (onPayloads_of_finite (List.forall_mem_singleton.2 h) _ s)

theorem exec_setWaveformTriangle {c : Word} (h : F32.isFinite c = true) (s : State) :
    exec (.setWaveformTriangle c) s = .next { s with engine := s.engine.setWaveform num (.triangle c) } :=
  congrArg Host.Outcome.next (onPayloads_of_finite (List.forall_mem_singleton.2 h) _ s)

theorem exec_setFilterOnePole {fc : Word} (h : F32.isFinite fc = true) (s : State) :
    exec (.setFilterOnePole fc) s = .next { s with engine := s.engine.setFilter num s.config (some (.onePole fc)) } :=
  congrArg Host.Outcome.next (onPayloads_of_finite (List.forall_mem_singleton.2 h) _ s)

theorem exec_setFilterTwoPole {fc q : Word} (hfc : F32.isFinite fc = true) (hq : F32.isFinite q = true) (s : State) :
    exec (.setFilterTwoPole fc q) s =
      .next { s with engine := s.engine.setFilter num s.config (some (.twoPole fc q)) } :=
  congrArg Host.Outcome.next (onPayloads_of_finite (ws := [fc, q]) (by simp [hfc, hq]) _ s)

/-! ### The clamps of payloads -/

theorem clamp_unit_clampedTo {x : F32} (hx : F32.isFinite x = true) :
    ClampedTo 0x00000000#32 0x3F800000#32 x (num.clamp x num.zero num.one) := by
  rw [num_zero, num_one]
  exact (clamp_spec (F32.isNaN_eq_false_of_isFinite hx) (by decide)).1

theorem max_zero_clampedBelow {x : F32} (hx : F32.isFinite x = true) :
    ClampedBelow 0x00000000#32 x (num.max x num.zero) := by
  rw [num_zero]
  exact (max_spec (F32.isNaN_eq_false_of_isFinite hx) (by decide)).1

/-- The clamp of a pulse width (43_engine R193, R198). -/
theorem clamp_pulseWidth_clampedTo {x : F32} (hx : F32.isFinite x = true) :
    ClampedTo 0x3D4CCCCD#32 0x3F733333#32 x (num.clamp x (num.lit 5 100) (num.lit 95 100)) := by
  rw [lit_pulseMin, lit_pulseMax]
  exact (clamp_spec (F32.isNaN_eq_false_of_isFinite hx) (by decide)).1

/-- The clamp of a cutoff in an admissible configuration (42_filter R168). -/
theorem clampCutoff_clampedTo {P : Params F32} {sr fc : F32} (hA : admissible num P sr = true)
    (hfc : F32.isFinite fc = true) :
    ClampedTo P.cutoffMin (F32.mul 0x3EFAE148#32 sr) fc (clampCutoff num P fc sr) := by
  rw [← cutoffMax_eq]
  exact (clamp_spec (F32.isNaN_eq_false_of_isFinite hfc) (admissible_filter hA).1).1

/-- The clamp of a `q` in an admissible configuration (42_filter R168). -/
theorem clampQ_clampedBelow {P : Params F32} {sr q : F32} (hA : admissible num P sr = true)
    (hq : F32.isFinite q = true) : ClampedBelow P.qMin q (clampQ num P q) :=
  (max_spec (F32.isNaN_eq_false_of_isFinite hq) (admissible_filter hA).2).1

/-! ### Volume and envelope constants -/

/-- Settles O11: the operation of R190 on a payload that is a number. -/
theorem setMasterVolumeStoresTheClampedValue : Obligations.SetMasterVolumeStoresTheClampedValue := by
  intro s v hv
  exact ⟨_, exec_setMasterVolume hv s, clamp_unit_clampedTo hv⟩

theorem adsrVoice_of_inactive (a d u r : F32) {v : Voice F32} (hv : v.active = false) :
    Engine.adsrVoice num a d u r v = v := by
  simp [Engine.adsrVoice, hv]

/-- An active slot's envelope is retuned, and re-enters Attack from a level above 0 (R191). -/
theorem adsrVoice_of_active (a d u r : F32) {v : Voice F32} (hv : v.active = true) :
    Engine.adsrVoice num a d u r v =
      { v with envelope :=
        if F32.lt 0x00000000#32 v.envelope.level = true then (v.envelope.retune a d u r).noteOn num
        else v.envelope.retune a d u r } := by
  rw [Engine.adsrVoice, if_pos hv, ← num_zero]
  rfl

/-- Settles O12: the operation of R191 on payloads that are numbers, slot by slot. -/
theorem setAdsrRetunesAndRetriggers : Obligations.SetAdsrRetunesAndRetriggers := by
  intro s a d u r hfin
  refine ⟨_, _, _, _, _, exec_setAdsr hfin s,
    max_zero_clampedBelow (hfin a (by simp)), max_zero_clampedBelow (hfin d (by simp)),
    clamp_unit_clampedTo (hfin u (by simp)), max_zero_clampedBelow (hfin r (by simp)), rfl, fun i => ?_⟩
  have hslot := Engine.setAdsr_slot num a d u r s.engine i
  exact ⟨fun hi => hslot.trans (adsrVoice_of_inactive _ _ _ _ hi),
    fun hi => hslot.trans (adsrVoice_of_active _ _ _ _ hi)⟩

/-! ### Waveforms -/

/-- Settles O13: each form stores its waveform clamped and writes the same one to every active oscillator. -/
theorem setWaveformReachesEveryActiveVoice : Obligations.SetWaveformReachesEveryActiveVoice := by
  unfold Obligations.SetWaveformReachesEveryActiveVoice
  intro after s
  have reaches (w : Waveform F32) : after s (w.clamped num) { s with engine := s.engine.setWaveform num w } :=
    ⟨rfl, fun i => Engine.setWaveform_slot num w s.engine i⟩
  refine ⟨⟨_, rfl, reaches .sine⟩, fun pw hpw => ?_, ⟨_, rfl, reaches .sawtooth⟩, fun c hc => ?_⟩
  · exact ⟨_, _, clamp_pulseWidth_clampedTo hpw, exec_setWaveformSquare hpw s, reaches (.square pw)⟩
  · exact ⟨_, _, max_zero_clampedBelow hc, exec_setWaveformTriangle hc s, reaches (.triangle c)⟩

/-! ### Filters -/

/-- New parameters for a one-pole filter at a clamped cutoff: cutoff and coefficient, the history kept (R161, R167). -/
theorem OnePole.setParams_of_clamped {P : Params F32} {sr fc : F32} {f : OnePole F32} (hf : f.sampleRate = sr)
    (hc : clampCutoff num P fc sr = fc) :
    f.setParams num P fc = { f with cutoff := fc, a := OnePole.coefficient num P fc sr } := by
  subst hf
  rw [OnePole.setParams, hc]

/-- A new one-pole filter at a clamped cutoff (R160, R161). -/
theorem OnePole.new_of_clamped {P : Params F32} {sr fc : F32} (hc : clampCutoff num P fc sr = fc) :
    OnePole.new num P fc sr =
      { sampleRate := sr, cutoff := fc, a := OnePole.coefficient num P fc sr, y := 0x00000000#32 } := by
  rw [← num_zero]
  exact OnePole.setParams_of_clamped rfl hc

/-- A new two-pole filter stores clamped parameters as they are, and no history (R160, R164). -/
theorem TwoPole.new_registers_of_clamped {P : Params F32} {sr fc q : F32} (hc : clampCutoff num P fc sr = fc)
    (hq : clampQ num P q = q) :
    (TwoPole.new num P fc q sr).cutoff = fc ∧ (TwoPole.new num P fc q sr).q = q ∧
      (TwoPole.new num P fc q sr).y1 = 0x00000000#32 ∧ (TwoPole.new num P fc q sr).y2 = 0x00000000#32 := by
  rw [← num_zero]
  exact ⟨hc, hq, rfl, rfl⟩

/-- New parameters give a two-pole filter the registers of a new one, and keep its history (R164, R167). -/
theorem TwoPole.setParams_eq_new {P : Params F32} {sr fc q : F32} {f : TwoPole F32} (hf : f.sampleRate = sr) :
    f.setParams num P fc q = { TwoPole.new num P fc q sr with y1 := f.y1, y2 := f.y2 } := by
  subst hf
  rfl

/-- A live filter runs at the sample rate of the engine when the voices track the globals (10_state R46). -/
theorem VoicesTrackGlobals.filter_rate {P : Params F32} {e : Engine F32} (h : VoicesTrackGlobals P e) {i : Fin 16}
    (hi : e.voices[i].active = true) {F : VoiceFilter F32} (hF : e.voices[i].filter = some F) :
    F.rate = e.sampleRate := by
  obtain ⟨-, htracks, -⟩ := h i hi
  rw [hF] at htracks
  cases hft : e.filterType with
  | none => rw [hft] at htracks; cases htracks
  | some ft => rw [hft] at htracks; exact VoiceFilter.Matches.rate_eq htracks

/-- The slot after `SetFilter`, when `F` is the filter an active voice ends with (R195). -/
theorem filterVoice_eq {P : Params F32} {sr : F32} {f : Option (FilterType F32)} {v : Voice F32}
    {F : Option (VoiceFilter F32)} (h : v.active = true → Engine.filterAfter num P sr f v.filter = F) :
    Engine.filterVoice num P sr f v = if v.active = true then { v with filter := F } else v := by
  rw [Engine.filterVoice]
  by_cases hv : v.active = true
  · rw [if_pos hv, if_pos hv, h hv]
  · rw [if_neg hv, if_neg hv]

/-- Settles O14: a voice's filter runs at the engine's rate, so its clamps are those of the global register. -/
theorem setFilterUpdatesEveryActiveVoice : Obligations.SetFilterUpdatesEveryActiveVoice := by
  unfold Obligations.SetFilterUpdatesEveryActiveVoice
  intro after s hA hV sr P
  have hslot (f : Option (FilterType F32)) (i : Fin 16) := Engine.setFilter_slot num P f s.engine i
  refine ⟨⟨_, rfl, rfl, fun i => (hslot none i).trans (filterVoice_eq fun _ => rfl)⟩, fun fc hfc => ?_,
    fun fc q hfc hq => ?_⟩
  · have hc := clampCutoff_idem hA (F32.isNaN_eq_false_of_isFinite hfc)
    refine ⟨_, _, clampCutoff_clampedTo hA hfc, exec_setFilterOnePole hfc s, rfl,
      fun i => (hslot (some (.onePole fc)) i).trans (filterVoice_eq fun hi => ?_)⟩
    rcases hold : s.engine.voices[i].filter with - | ⟨f | f⟩
    · exact congrArg (fun F => some (VoiceFilter.onePole F)) (OnePole.new_of_clamped hc)
    · exact congrArg (fun F => some (VoiceFilter.onePole F)) (OnePole.setParams_of_clamped (hV.filter_rate hi hold) hc)
    · exact congrArg (fun F => some (VoiceFilter.onePole F)) (OnePole.new_of_clamped hc)
  · have hc := clampCutoff_idem hA (F32.isNaN_eq_false_of_isFinite hfc)
    have hQ := clampQ_idem (admissible_filter hA).2 (F32.isNaN_eq_false_of_isFinite hq)
    refine ⟨_, _, _, clampCutoff_clampedTo hA hfc, clampQ_clampedBelow hA hq,
      exec_setFilterTwoPole hfc hq s, TwoPole.new_registers_of_clamped hc hQ, rfl,
      fun i => (hslot (some (.twoPole fc q)) i).trans (filterVoice_eq fun hi => ?_)⟩
    rcases hold : s.engine.voices[i].filter with - | ⟨f | f⟩
    · rfl
    · rfl
    · exact congrArg (fun F => some (VoiceFilter.twoPole F)) (TwoPole.setParams_eq_new (hV.filter_rate hi hold))

end Sys2Proof.Machine
end

section
/-! PROOFS. One sample of the engine: muted (43_engine R185), or every active voice ticked and summed (R186, R187). -/

namespace Sys2Proof.Machine

/-! ### Muted -/

theorem clampSample_zero : clampSample num num.zero = 0x00000000#32 := by decide

/-- A sample at volume 0 stores 0 and advances the sequencer alone (R185). -/
theorem generateSample_of_mute {s : State} (q : Sequencer) (h : F32.eq s.engine.masterVolume 0x00000000#32 = true) :
    generateSample q s =
      { s with out := s.out ++ [0x00000000#32], seq := Sequencer.settled { q with i := q.i + 1 } } := by
  rw [← num_zero] at h
  rw [generateSample, Engine.nextSample_of_mute num s.config s.engine h, clampSample_zero]
  rfl

/-- Settles O32: the renderer's step is the sample, whoever granted it. -/
theorem mutedSamplesFreezeTheEngine : Obligations.MutedSamplesFreezeTheEngine := by
  intro s q ts hmoves hq hp hi hmute
  refine ⟨Sequencer.settled { q with i := q.i + 1 }, ?_, fun hlast => ?_, fun hmore => ?_⟩
  · rw [step_of_rendererMoves hmoves, rendererStep_of_sample (s := s.setTurns ts) hq hp hi,
      generateSample_of_mute (s := s.setTurns ts) q hmute]
    rfl
  · exact if_pos hlast.ge
  · exact if_neg hmore.not_ge

/-! ### The sum of the contributions -/

/-- What one slot adds to the sum (R186, R187). -/
def addContribution (sum : F32) (c : Option F32) : F32 :=
  match c with
  | none => sum
  | some y => num.add sum y

/-- The contributions of the slots, in ascending order (R187). -/
def contributions (P : Params F32) (e : Engine F32) : List (Option F32) :=
  e.voices.toList.map fun v => (Engine.tickVoice num P v).2

@[simp] theorem length_contributions (P : Params F32) (e : Engine F32) : (contributions P e).length = 16 := by
  simp [contributions]

theorem getElem_contributions (P : Params F32) (e : Engine F32) (i : Fin 16) :
    (contributions P e)[i.val]'(by simp) = (Engine.tickVoice num P e.voices[i]).2 := by
  simp [contributions]

/-- The sum over the slots below `k` (R187). -/
def sumBelow (P : Params F32) (e : Engine F32) (k : ℕ) : F32 := Engine.mix num ((contributions P e).take k)

/-- The sum grows by one slot at a time, in ascending order (R187). -/
theorem sumBelow_succ (P : Params F32) (e : Engine F32) (i : Fin 16) :
    sumBelow P e (i.val + 1) = addContribution (sumBelow P e i.val) (Engine.tickVoice num P e.voices[i]).2 := by
  rw [sumBelow, List.take_succ_eq_append_getElem (by simp), Engine.mix, List.foldl_append, getElem_contributions]
  cases (Engine.tickVoice num P e.voices[i]).2 <;> rfl

/-- The sample at a volume that is not 0: the sum over all slots times the volume (R186). -/
theorem nextSample_fst (P : Params F32) {e : Engine F32} (h : num.eq e.masterVolume num.zero = false) :
    (e.nextSample num P).1 = num.mul (sumBelow P e 16) e.masterVolume := by
  rw [Engine.nextSample, if_neg (Bool.eq_false_iff.1 h), sumBelow, List.take_of_length_le (by simp)]
  simp [mapSlots, contributions, Function.comp_def]

/-! ### The tick of a voice -/

/-- A voice whose level is not above 0 after the tick is freed, and adds nothing (R186). -/
theorem tickVoice_of_silent (P : Params F32) {v : Voice F32} (hv : v.active = true)
    (hl : F32.le (v.envelope.nextSample num P).level 0x00000000#32 = true) :
    Engine.tickVoice num P v = ({ v with envelope := v.envelope.nextSample num P, active := false }, none) := by
  rw [← num_zero] at hl
  rw [Engine.tickVoice, if_pos hv]
  exact if_pos hl

/-- A voice that sounds on advances oscillator and filter, and adds its sample times the level (R186). -/
theorem tickVoice_of_sounding (P : Params F32) {v : Voice F32} (hv : v.active = true)
    (hl : F32.le (v.envelope.nextSample num P).level 0x00000000#32 = false) :
    Engine.tickVoice num P v =
      ({ v with
          envelope := v.envelope.nextSample num P
          oscillator := v.oscillator.advance num P
          filter := v.filter.map (VoiceFilter.process num (v.oscillator.output num P)) },
        some (num.mul (Engine.voiceSample num P v) (v.envelope.nextSample num P).level)) := by
  rw [← num_zero] at hl
  rw [Engine.tickVoice, if_pos hv]
  exact if_neg (Bool.eq_false_iff.1 hl)

theorem tickVoice_of_inactive (P : Params F32) {v : Voice F32} (hv : v.active = false) :
    Engine.tickVoice num P v = (v, none) :=
  if_neg (Bool.eq_false_iff.1 hv)

/-- Settles O33: a slot is inactive, falls silent or sounds on, and the sum runs over the first `k` contributions. -/
theorem samplesTickEveryActiveVoice : Obligations.SamplesTickEveryActiveVoice := by
  intro P e hvol r
  rw [← num_zero] at hvol
  refine ⟨Engine.nextSample_frame num P e, ?_, sumBelow P e, num_zero, ?_, nextSample_fst P hvol⟩
  · intro i v E O x
    refine (Engine.nextSample_slot num P e hvol i).trans ?_
    rcases Bool.eq_false_or_eq_true v.active with hv | hv
    · rw [if_neg (by simp [hv])]
      rcases Bool.eq_false_or_eq_true (F32.le E.level 0x00000000#32) with hl | hl
      · rw [if_pos hl, tickVoice_of_silent P hv hl]
      · rw [if_neg (Bool.eq_false_iff.1 hl), tickVoice_of_sounding P hv hl]
        rcases v.filter with - | ⟨f | f⟩ <;> rfl
    · rw [if_pos hv, tickVoice_of_inactive P hv]
  · intro i v l O x y
    rw [sumBelow_succ]
    cases hv : v.active with
    | false => rw [if_neg (by simp), tickVoice_of_inactive P hv]; rfl
    | true =>
      cases hl : F32.le l 0x00000000#32 with
      | true => rw [if_neg (by simp), tickVoice_of_silent P hv hl]; rfl
      | false =>
        have hy : Engine.voiceSample num P v = y := by
          rcases hf : v.filter with - | ⟨f | f⟩ <;> simp [Engine.voiceSample, hf, y] <;> rfl
        rw [if_pos ⟨rfl, rfl⟩, tickVoice_of_sounding P hv hl, hy]
        rfl

end Sys2Proof.Machine
end

section
/-! PROOFS. The bus: a push tests and appends (44_bus R210), a run of pushes fills the queue in order up to the capacity
(R213, 20_memory R70), and a new bus is empty (R212). -/

namespace Sys2Proof.Machine

/-- A push onto a full bus is refused (44_bus R210, R230). -/
theorem step_of_push_full {m : Message} {s : State} {ts : List Turn} (ht : s.turns = .push m :: ts)
    (hfull : s.bus.length = busCapacity) : step s = .next { s with turns := ts, pushResult := some 0 } := by
  rw [step_of_cons ht, takeTurn, pushTurn, State.setTurns_bus, Bus.push_of_full hfull]
  rfl

/-- Settles O37: the bus is full or has room. -/
theorem pushIsTestAndAppend : Obligations.PushIsTestAndAppend := by
  intro s m ts ht
  exact ⟨step_of_push_full ht, step_of_push ht⟩

/-- On a bus within its capacity a push is an append cut at the capacity. -/
theorem step_of_push_within {m : Message} {s : State} {ts : List Turn} (ht : s.turns = .push m :: ts)
    (hle : s.bus.length ≤ 2048) :
    step s = .next { s with
      turns := ts
      bus := (s.bus ++ [m]).take 2048
      pushResult := some (if s.bus.length < 2048 then 1 else 0) } := by
  by_cases hfull : s.bus.length = 2048
  · rw [step_of_push_full ht hfull, List.take_left' hfull, if_neg (by omega)]
  · have hlen : (s.bus ++ [m]).length ≤ 2048 := by
      rw [List.length_append, List.length_singleton]
      omega
    rw [step_of_push ht hfull, List.take_of_length_le hlen, if_pos (by omega)]

/-- What an append beyond `n` entries loses, a later append cut at `n` loses as well. -/
theorem take_append_of_take {α : Type} (n : ℕ) (xs ys : List α) : (xs.take n ++ ys).take n = (xs ++ ys).take n := by
  have hroom : n - min n xs.length = n - xs.length := by omega
  rw [List.take_append, List.take_append, List.take_take, Nat.min_self, List.length_take, hroom]

/-- Settles O38, by induction on the pushes before the last: each leaves a bus within its capacity. -/
theorem pushesQueueInOrderUpToCapacity : Obligations.PushesQueueInOrderUpToCapacity := by
  intro s ms m hle ht
  induction ms generalizing s with
  | nil => rw [List.length_nil, steps_succ 0 (step_of_push_within ht hle)]; rfl
  | cons m' ms ih =>
    have hlen : ((s.bus ++ [m']).take 2048).length = min 2048 (s.bus.length + 1) := by simp
    have hresult : min 2048 (s.bus.length + 1) + ms.length < 2048 ↔ s.bus.length + (ms.length + 1) < 2048 := by omega
    rw [List.length_cons, steps_succ _ (step_of_push_within ht hle), ih _ (hlen ▸ Nat.min_le_left ..) rfl]
    simp only [hlen, hresult, take_append_of_take, List.append_assoc, List.cons_append, List.nil_append]

/-- Between blocks a bus is constructed, not refused (R212). -/
theorem newBusTurn_of_idle {s : State} (hs : s.seq = none) : newBusTurn s = .next (s.setBus Bus.new) := by
  simp [newBusTurn, hs]

/-- Settles O42: the step is the construction, by a host between blocks. -/
theorem newBusIsEmpty : Obligations.NewBusIsEmpty := by
  intro s ts ht hs
  rw [step_of_cons ht, takeTurn, newBusTurn_of_idle (s := s.setTurns ts) hs]
  rfl

end Sys2Proof.Machine
end

section
/-! PROOFS. The block renderer (45_render R220 to R225): the end of the drain, the sample stored, and a whole block as
the drain of the bus followed by its samples. -/

namespace Sys2Proof.Machine

/-! ### The end of the drain -/

/-- The renderer's step in the drain with no message waiting (R223). -/
theorem rendererStep_of_empty {s : State} {q : Sequencer} (hq : s.seq = some q) (hp : q.phase = .drain)
    (hb : s.bus = []) : rendererStep s = .next (endDrain q s) := by
  simp [rendererStep, hq, hp, hb]

/-- A block of length 0 has no phase GEN (R225). -/
theorem Sequencer.settled_start (len : ℕ) :
    Sequencer.settled { phase := .gen, i := 0, len := len } =
      if len = 0 then none else some { phase := .gen, i := 0, len := len } := by
  simp [Sequencer.settled]

/-- Settles O36: the renderer's step is the end of the drain, whoever granted it. -/
theorem emptyBusEndsTheDrain : Obligations.EmptyBusEndsTheDrain := by
  intro s q ts hmoves hq hp hb
  rw [step_of_rendererMoves hmoves, rendererStep_of_empty (s := s.setTurns ts) hq hp hb, endDrain,
    Sequencer.settled_start]
  rfl

/-! ### The sample stored -/

theorem clampSample_clampedTo {x : F32} (hx : x.isNaN = false) :
    ClampedTo 0xBF800000#32 0x3F800000#32 x (clampSample num x) :=
  (clamp_spec hx (by decide)).1

/-- The clamp passes a NaN: it compares with neither bound (R222). -/
theorem clampSample_of_isNaN {x : F32} (hx : x.isNaN = true) : clampSample num x = x := by
  simp [clampSample, NumOps.clamp, num_lt, num_gt, F32.lt, hx]

/-- Settles O34: the renderer's step is the sample, whoever granted it. -/
theorem samplesAreClampedAndStored : Obligations.SamplesAreClampedAndStored := by
  intro s q ts hmoves hq hp hi r
  refine ⟨clampSample num r.1, Sequencer.settled { q with i := q.i + 1 }, ?_, clampSample_clampedTo,
    clampSample_of_isNaN, fun hlast => if_pos hlast.ge, fun hmore => if_neg hmore.not_ge⟩
  rw [step_of_rendererMoves hmoves, rendererStep_of_sample (s := s.setTurns ts) hq hp hi]
  rfl

/-! ### A whole block -/

/-- The call of `render_block` between blocks, of a length within `L_MAX` (R220). -/
theorem step_of_renderBlock {s : State} {len : ℕ} {ts : List Turn} (ht : s.turns = .renderBlock len :: ts)
    (hs : s.seq = none) (hlen : ∀ bound, s.config.maxBlock = some bound → len ≤ bound) :
    step s = .next ((s.setTurns ts).beginBlock len) := by
  have hallowed := (blockAllowed_iff s.config len).2 hlen
  simp [step_of_cons ht, takeTurn, renderBlockTurn, hs, hallowed]

/-- With no act scheduled the drain takes one step for each message; it leaves the engine that `drainAll` leaves of any
state with the same configuration and engine. -/
theorem steps_of_drain {s t : State} {q : Sequencer} {ms : List Message} (hc : s.config = t.config)
    (he : s.engine = t.engine) (hq : t.seq = some q) (hp : q.phase = .drain) (ht : t.turns = []) (hb : t.bus = ms) :
    ∃ e, drainAll ms s = .next { s with engine := e } ∧
      ∀ k, steps (k + ms.length) t = steps k { t with engine := e, bus := [] } := by
  induction ms generalizing s t with
  | nil => exact ⟨s.engine, rfl, fun k => by rw [List.length_nil, he, ← hb]; rfl⟩
  | cons m ms ih =>
    have hstep : step t = .next { t with engine := engineAfter (decode m) (t.setBus ms), bus := ms } := by
      rw [step_of_nil ht, rendererStep_of_drain hq hp hb, exec_eq_next]
      rfl
    obtain ⟨e, hdrain, hrun⟩ := ih (s := { s with engine := engineAfter (decode m) s })
      (t := { t with engine := engineAfter (decode m) (t.setBus ms), bus := ms }) hc
      (engineAfter_congr (decode m) hc he) hq ht rfl
    refine ⟨e, ?_, fun k => ?_⟩
    · rw [drainAll, exec_eq_next]
      exact hdrain
    · rw [List.length_cons, ← Nat.add_assoc, steps_succ _ hstep, hrun]

/-- With no act scheduled phase GEN takes one step for each of its remaining `k` samples, which it appends to the
output. -/
theorem steps_of_gen {s : State} {i k : ℕ} (ht : s.turns = [])
    (hs : s.seq = Sequencer.settled { phase := .gen, i := i, len := i + k }) :
    steps k s = .next { s with
      engine := (generateAll s.config k s.engine).2
      out := s.out ++ (generateAll s.config k s.engine).1
      seq := none } := by
  induction k generalizing s i with
  | zero =>
    have hnone : s.seq = none := hs.trans (if_pos le_rfl)
    simp [generateAll, ← hnone]
  | succ k ih =>
    have hsome : s.seq = some { phase := .gen, i := i, len := i + (k + 1) } := hs.trans (if_neg (by simp))
    have hstep := (step_of_nil ht).trans (rendererStep_of_sample hsome rfl (by simp))
    have hnext : i + (k + 1) = i + 1 + k := by omega
    rw [steps_succ k hstep, hnext, ih (s := generateSample _ s) (i := i + 1) ht rfl]
    simp [generateSample, generateAll]

/-- Settles O39: the call, a step for each message, the end of the drain, a step for each sample. -/
theorem renderBlockDrainsThenGenerates : Obligations.RenderBlockDrainsThenGenerates := by
  intro s len hs ht hlen
  obtain ⟨e, hdrain, hrun⟩ :=
    steps_of_drain (s := s) (t := (s.setTurns []).beginBlock len) rfl rfl rfl rfl rfl rfl
  refine ⟨e, hdrain, ?_⟩
  have hcount : s.bus.length + len + 2 = len + 1 + s.bus.length + 1 := by omega
  rw [hcount, steps_succ _ (step_of_renderBlock ht hs hlen)]
  refine (hrun _).trans ?_
  rw [steps_succ _ ((step_of_nil rfl).trans (rendererStep_of_empty rfl rfl rfl)),
    steps_of_gen (i := 0) rfl (by simp [endDrain])]
  rfl

end Sys2Proof.Machine
end

section
/-! PROOFS. The construction of an engine (70_reset R260), and what every step keeps of configuration and sample rate
(R262, 10_state R20). -/

namespace Sys2Proof.Machine

/-! ### The new engine -/

/-- Between blocks an engine is constructed from admissible arguments, not refused (R260). -/
theorem newEngineTurn_of_idle {s : State} {sr : F32} {w : Waveform F32} {f : Option (FilterType F32)}
    (hs : s.seq = none) (h : admissibleNew num s.config sr w f = true) :
    newEngineTurn sr w f s = .next (s.setEngine (Engine.new num s.config sr w f)) := by
  simp [newEngineTurn, hs, h]

/-- Settles O41: the step is the construction, and admissible arguments are numbers, so each clamp has its value. -/
theorem newBuildsAnIdleEngine : Obligations.NewBuildsAnIdleEngine := by
  intro s sr w f ts ht hs h
  obtain ⟨hA, hw, hf⟩ := (admissibleNew_iff s.config sr w f).1 h
  refine ⟨Engine.new num s.config sr w f, ?_, rfl, rfl, rfl, rfl, rfl, rfl, fun i => ?_, ?_, ?_⟩
  · rw [step_of_cons ht, takeTurn, newEngineTurn_of_idle (s := s.setTurns ts) hs h]
    rfl
  · rw [Engine.new_slot]
    exact ⟨rfl, rfl⟩
  · cases w with
    | sine => rfl
    | square pw => exact ⟨_, clamp_pulseWidth_clampedTo hw, rfl⟩
    | sawtooth => rfl
    | triangle c => exact ⟨_, max_zero_clampedBelow hw, rfl⟩
  · rcases f with - | fc | ⟨fc, q⟩
    · rfl
    · exact ⟨_, clampCutoff_clampedTo hA hf, rfl⟩
    · obtain ⟨hfc, hq⟩ := (Bool.and_eq_true _ _).mp hf
      exact ⟨_, _, clampCutoff_clampedTo hA hfc, clampQ_clampedBelow hA hq, rfl⟩

/-! ### The sample rate -/

theorem Engine.noteOn_sampleRate (P : Params F32) (n : Fin 255) (e : Engine F32) :
    (e.noteOn num P n).sampleRate = e.sampleRate := by
  obtain ⟨vs, he⟩ := Engine.noteOn_frame P n e
  rw [he]

theorem Engine.nextSample_sampleRate (P : Params F32) (e : Engine F32) :
    (e.nextSample num P).2.sampleRate = e.sampleRate := by
  rw [Engine.nextSample_frame]

/-- A message form with payloads keeps the sample rate when its operation does. -/
theorem onPayloads_sampleRate (ws : List Word) {f : NumOps F32 → Params F32 → Engine F32 → Engine F32} (s : State)
    (hf : (f num s.config s.engine).sampleRate = s.engine.sampleRate) :
    (onPayloads ws f s).engine.sampleRate = s.engine.sampleRate :=
  onPayloads_engine_of (Q := fun e => e.sampleRate = s.engine.sampleRate) rfl fun _ => hf

/-- No message changes the sample rate: what a form writes is voices and global registers (43_engine R180). -/
theorem engineAfter_sampleRate (i : Instr) (s : State) : (engineAfter i s).sampleRate = s.engine.sampleRate := by
  cases i
  case noteOn note =>
    cases note with
    | none => rfl
    | id n => exact Engine.noteOn_sampleRate s.config n s.engine
  case noteOff note =>
    cases note with
    | none => rfl
    | id n => rfl
  case setMasterVolume v => exact onPayloads_sampleRate _ s rfl
  case setAdsr a d u r => exact onPayloads_sampleRate _ s rfl
  case setWaveformSquare pw => exact onPayloads_sampleRate _ s rfl
  case setWaveformTriangle c => exact onPayloads_sampleRate _ s rfl
  case setFilterOnePole fc => exact onPayloads_sampleRate _ s rfl
  case setFilterTwoPole fc q => exact onPayloads_sampleRate _ s rfl
  all_goals rfl

/-- The renderer keeps the sample rate: a message does, and a sample writes the voices alone. -/
theorem sampleRate_of_rendererStep {s s' : State} (h : rendererStep s = .next s') :
    s'.engine.sampleRate = s.engine.sampleRate := by
  rcases rendererStep_cases s with ⟨-, e⟩ | ⟨_, m, _, -, -, -, e⟩ | ⟨_, -, -, -, e⟩ | ⟨_, -, -, -, e⟩ |
    ⟨_, -, -, -, e⟩ <;> obtain rfl := Host.Outcome.next.inj (e.symm.trans h)
  case inr.inl => exact engineAfter_sampleRate (decode m) s
  case inr.inr.inr.inl => exact Engine.nextSample_sampleRate s.config s.engine
  all_goals rfl

/-- The only act that changes the sample rate is the construction of an engine. -/
theorem sampleRate_of_takeTurn {t : Turn} {s s' : State} (ht : ∀ sr w f, t ≠ .newEngine sr w f)
    (h : takeTurn t s = .next s') : s'.engine.sampleRate = s.engine.sampleRate := by
  rcases takeTurn_cases h with ⟨m, -, rfl⟩ | ⟨len, -, -, -, rfl⟩ | ⟨sr, w, f, hnew, -⟩ | ⟨-, -, rfl⟩ | ⟨-, hr⟩
  case inr.inr.inl => exact absurd hnew (ht sr w f)
  case inr.inr.inr.inr => exact sampleRate_of_rendererStep hr
  all_goals rfl

/-- Settles O44: the renderer and every other act than a construction keep the sample rate. -/
theorem stepsKeepConfigurationAndSampleRate : Obligations.StepsKeepConfigurationAndSampleRate := by
  intro s s' h
  refine ⟨(engineStep_of_step h).1, fun hnew => ?_⟩
  cases ht : s.turns with
  | nil => exact sampleRate_of_rendererStep (step_of_nil ht ▸ h)
  | cons t ts =>
    have hother (sr w f) : t ≠ .newEngine sr w f := fun he => hnew sr w f ts (he ▸ ht)
    exact sampleRate_of_takeTurn (s := s.setTurns ts) hother (step_of_cons ht ▸ h)

end Sys2Proof.Machine
end
